-- ==== Sys2Proof/Word.lean ====
section
/-! DEFINITION. The word types of the engine (spec 00_scope.md R8, R11): 32-bit words, bytes, and the
readings `u` and `s` of a word. -/

namespace Sys2Proof

/-- A 32-bit word; `+`, `-` and `<<<` wrap modulo 2^32 (R11). -/
abbrev Word := BitVec 32

/-- One byte of memory (R51). -/
abbrev Byte := BitVec 8

/-- A register index, a 5-bit field "inherently in range" (R22). -/
abbrev Reg := Fin 32

/-- A 12-bit CSR address (R8, R32). -/
abbrev CsrAddr := BitVec 12

end Sys2Proof
end

