-- ==== Sys2Proof/Syntax.lean ====
section
/-! DEFINITION. The instructions of the engine: one constructor of `Instr` per row of
spec/opcode_table.json (30_encoding.md R93), and the vocabulary of the decode record (R90). -/

namespace Sys2Proof

/-- The 46 admitted instructions (R2, R93).

Immediates are kept as the fields the format gives them: 12 bits for I and S (R83, R84), the upper
20 bits for U (R86), the 13-bit and 21-bit byte offsets of B and J with their bit 0, which an encoding
forces to 0 (R85, R87; `Instr.WellFormed`). `fence` keeps the fields it ignores (R94, R97), so that no
bit of its word is lost (log 26). -/
inductive Instr where
  | lui (rd : Reg) (imm : BitVec 20)
  | auipc (rd : Reg) (imm : BitVec 20)
  | addi (rd rs1 : Reg) (imm : BitVec 12)
  | slti (rd rs1 : Reg) (imm : BitVec 12)
  | sltiu (rd rs1 : Reg) (imm : BitVec 12)
  | xori (rd rs1 : Reg) (imm : BitVec 12)
  | ori (rd rs1 : Reg) (imm : BitVec 12)
  | andi (rd rs1 : Reg) (imm : BitVec 12)
  | slli (rd rs1 : Reg) (shamt : BitVec 5)
  | srli (rd rs1 : Reg) (shamt : BitVec 5)
  | srai (rd rs1 : Reg) (shamt : BitVec 5)
  | add (rd rs1 rs2 : Reg)
  | sub (rd rs1 rs2 : Reg)
  | sll (rd rs1 rs2 : Reg)
  | slt (rd rs1 rs2 : Reg)
  | sltu (rd rs1 rs2 : Reg)
  | xor (rd rs1 rs2 : Reg)
  | srl (rd rs1 rs2 : Reg)
  | sra (rd rs1 rs2 : Reg)
  | or (rd rs1 rs2 : Reg)
  | and (rd rs1 rs2 : Reg)
  | lb (rd rs1 : Reg) (imm : BitVec 12)
  | lh (rd rs1 : Reg) (imm : BitVec 12)
  | lw (rd rs1 : Reg) (imm : BitVec 12)
  | lbu (rd rs1 : Reg) (imm : BitVec 12)
  | lhu (rd rs1 : Reg) (imm : BitVec 12)
  | sb (rs1 rs2 : Reg) (imm : BitVec 12)
  | sh (rs1 rs2 : Reg) (imm : BitVec 12)
  | sw (rs1 rs2 : Reg) (imm : BitVec 12)
  | jal (rd : Reg) (off : BitVec 21)
  | jalr (rd rs1 : Reg) (imm : BitVec 12)
  | beq (rs1 rs2 : Reg) (off : BitVec 13)
  | bne (rs1 rs2 : Reg) (off : BitVec 13)
  | blt (rs1 rs2 : Reg) (off : BitVec 13)
  | bge (rs1 rs2 : Reg) (off : BitVec 13)
  | bltu (rs1 rs2 : Reg) (off : BitVec 13)
  | bgeu (rs1 rs2 : Reg) (off : BitVec 13)
  | fence (fm pred succ : BitVec 4) (rs1 rd : Reg)
  | ecall
  | ebreak
  | csrrw (rd : Reg) (csr : CsrAddr) (rs1 : Reg)
  | csrrs (rd : Reg) (csr : CsrAddr) (rs1 : Reg)
  | csrrc (rd : Reg) (csr : CsrAddr) (rs1 : Reg)
  | csrrwi (rd : Reg) (csr : CsrAddr) (zimm : BitVec 5)
  | csrrsi (rd : Reg) (csr : CsrAddr) (zimm : BitVec 5)
  | csrrci (rd : Reg) (csr : CsrAddr) (zimm : BitVec 5)
deriving DecidableEq, Repr

/-- The execution classes (00_scope.md R17). -/
inductive ExecClass where
  | alu | mem | ctrl | csr
deriving DecidableEq, Repr

/-- The instruction formats (R82). -/
inductive Format where
  | R | I | S | B | U | J
deriving DecidableEq, Repr

/-- First ALU operand source of a decode record (R89). -/
inductive Src1 where
  | none | rs1 | pc | zimm
deriving DecidableEq, Repr

/-- Second ALU operand source of a decode record (R89). -/
inductive Src2 where
  | none | rs2 | immI | immS | immU | immJ | immB | csrImm
deriving DecidableEq, Repr

/-- The ALU operations (41_alu.md R142-R149). -/
inductive AluOp where
  | add | sub | sll | srl | sra | slt | sltu | and | or | xor
deriving DecidableEq, Repr

/-- The branch conditions (43_control.md R213-R219). -/
inductive Cond where
  | eq | ne | lt | ge | ltu | geu
deriving DecidableEq, Repr

/-- The operation column of R93: an ALU operation, a branch condition, a memory access, or one of the
operations that R93 writes in parentheses and that the class handler carries out. -/
inductive OpCode where
  | alu (op : AluOp)
  | cond (c : Cond)
  | load | store | target | special | csrWrite | csrSet | csrClear
deriving DecidableEq, Repr

/-- The memory-access width selector (R90, R180). `double` is the "double/unaligned-exempt" width of the
decode record, which no row uses (20_memory.md R62). -/
inductive Width where
  | none | byte | byteU | half | halfU | word | double
deriving DecidableEq, Repr

/-- One row of the decode table: mask, match and the decode record (R90, R93). -/
structure Row where
  mnemonic : String
  format : Format
  mask : Word
  value : Word
  cls : ExecClass
  op1 : Src1
  op2 : Src2
  op : OpCode
  width : Width
deriving DecidableEq, Repr

end Sys2Proof
end

