-- ==== Sys2Proof/Machine/Flags.lean ====
section
/-! DEFINITION. Comparisons. The engine has no flags: "Comparisons write their 0/1 result to `rd` ... or
decide a branch directly" (spec 10_state.md R27), so this file holds the comparisons themselves and no
flag computation. -/

namespace Sys2Proof.Machine

/-- `s(a) < s(b)` (41_alu.md R147). -/
def signedLess (a b : Word) : Bool := decide (a.toInt < b.toInt)

/-- `u(a) < u(b)` (41_alu.md R148). -/
def unsignedLess (a b : Word) : Bool := decide (a.toNat < b.toNat)

/-- A 0/1 result as a word (10_state.md R27). -/
def truthWord (p : Bool) : Word := if p then 1#32 else 0#32

/-- The branch conditions over x[rs1] and x[rs2] (43_control.md R214-R219). -/
def condHolds (c : Cond) (a b : Word) : Bool :=
  match c with
  | .eq => a == b
  | .ne => a != b
  | .lt => signedLess a b
  | .ge => !signedLess a b
  | .ltu => unsignedLess a b
  | .geu => !unsignedLess a b

end Sys2Proof.Machine
end

