-- ==== Sys2Proof/WellFormed.lean ====
section
/-! DEFINITION. Which terms of `Instr` an encoding can express: branch and JAL offsets are multiples of 2
(30_encoding.md R85, R87). Every other field takes every value of its width (R81, R22). -/

namespace Sys2Proof

/-- The offset of a branch is even: its bit 0 is the constant `0b0` of R85. -/
def evenB (off : BitVec 13) : Bool := off.getLsbD 0 == false

/-- The offset of JAL is even: its bit 0 is the constant `0b0` of R87. -/
def evenJ (off : BitVec 21) : Bool := off.getLsbD 0 == false

/-- The instruction has an encoding. -/
def Instr.wellFormed : Instr → Bool
  | .jal _ off => evenJ off
  | .beq _ _ off => evenB off
  | .bne _ _ off => evenB off
  | .blt _ _ off => evenB off
  | .bge _ _ off => evenB off
  | .bltu _ _ off => evenB off
  | .bgeu _ _ off => evenB off
  | .lui .. | .auipc .. | .addi .. | .slti .. | .sltiu .. | .xori .. | .ori .. | .andi ..
  | .slli .. | .srli .. | .srai .. | .add .. | .sub .. | .sll .. | .slt .. | .sltu .. | .xor ..
  | .srl .. | .sra .. | .or .. | .and .. | .lb .. | .lh .. | .lw .. | .lbu .. | .lhu .. | .sb ..
  | .sh .. | .sw .. | .jalr .. | .fence .. | .ecall | .ebreak | .csrrw .. | .csrrs .. | .csrrc ..
  | .csrrwi .. | .csrrsi .. | .csrrci .. => true

/-- `Instr.wellFormed` as a proposition. -/
abbrev Instr.WellFormed (i : Instr) : Prop := i.wellFormed = true

end Sys2Proof
end

