-- ==== Sys2Proof/Decode.lean ====
section
/-! DEFINITION. Decoding and encoding (spec 30_encoding.md): the fields of an instruction word, the decode
table R93 as data, the lookup (R90), the decoder on bytes and words, and the encoder written from the same
formats (R82) and rows. -/

namespace Sys2Proof

/-! ## Fields of an instruction word (R81-R88) -/

def fieldRd (w : Word) : Reg := (w.extractLsb' 7 5).toFin
def fieldRs1 (w : Word) : Reg := (w.extractLsb' 15 5).toFin
def fieldRs2 (w : Word) : Reg := (w.extractLsb' 20 5).toFin
def fieldShamt (w : Word) : BitVec 5 := w.extractLsb' 20 5
/-- `zimm` (R88). -/
def fieldZimm (w : Word) : BitVec 5 := w.extractLsb' 15 5
/-- The CSR address, "top 12 bits of the instruction" (R81). -/
def fieldCsr (w : Word) : CsrAddr := w.extractLsb' 20 12
/-- The 12 bits that `immI` extends (R83). -/
def fieldImmI (w : Word) : BitVec 12 := w.extractLsb' 20 12
/-- The 12 bits that `immS` extends (R84). -/
def fieldImmS (w : Word) : BitVec 12 := w.extractLsb' 25 7 ++ w.extractLsb' 7 5
/-- The 13 bits that `immB` extends (R85). -/
def fieldImmB (w : Word) : BitVec 13 :=
  w.extractLsb' 31 1 ++ w.extractLsb' 7 1 ++ w.extractLsb' 25 6 ++ w.extractLsb' 8 4 ++ 0#1
/-- The upper 20 bits of `immU` (R86). -/
def fieldImmU (w : Word) : BitVec 20 := w.extractLsb' 12 20
/-- The 21 bits that `immJ` extends (R87). -/
def fieldImmJ (w : Word) : BitVec 21 :=
  w.extractLsb' 31 1 ++ w.extractLsb' 12 8 ++ w.extractLsb' 20 1 ++ w.extractLsb' 21 10 ++ 0#1
/-- FENCE's ignored fields fm, pred and succ (R94). -/
def fieldFm (w : Word) : BitVec 4 := w.extractLsb' 28 4
def fieldPred (w : Word) : BitVec 4 := w.extractLsb' 24 4
def fieldSucc (w : Word) : BitVec 4 := w.extractLsb' 20 4

/-! ## The rows of the decode table (R93) -/

def Row.lui : Row := ⟨"LUI", .U, 0x0000007F#32, 0x00000037#32, .alu, .none, .immU, .alu .add, .none⟩
def Row.auipc : Row := ⟨"AUIPC", .U, 0x0000007F#32, 0x00000017#32, .alu, .pc, .immU, .alu .add, .none⟩
def Row.jal : Row := ⟨"JAL", .J, 0x0000007F#32, 0x0000006F#32, .ctrl, .pc, .immJ, .target, .none⟩
def Row.jalr : Row := ⟨"JALR", .I, 0x0000707F#32, 0x00000067#32, .ctrl, .rs1, .immI, .target, .none⟩
def Row.beq : Row := ⟨"BEQ", .B, 0x0000707F#32, 0x00000063#32, .ctrl, .rs1, .rs2, .cond .eq, .none⟩
def Row.bne : Row := ⟨"BNE", .B, 0x0000707F#32, 0x00001063#32, .ctrl, .rs1, .rs2, .cond .ne, .none⟩
def Row.blt : Row := ⟨"BLT", .B, 0x0000707F#32, 0x00004063#32, .ctrl, .rs1, .rs2, .cond .lt, .none⟩
def Row.bge : Row := ⟨"BGE", .B, 0x0000707F#32, 0x00005063#32, .ctrl, .rs1, .rs2, .cond .ge, .none⟩
def Row.bltu : Row := ⟨"BLTU", .B, 0x0000707F#32, 0x00006063#32, .ctrl, .rs1, .rs2, .cond .ltu, .none⟩
def Row.bgeu : Row := ⟨"BGEU", .B, 0x0000707F#32, 0x00007063#32, .ctrl, .rs1, .rs2, .cond .geu, .none⟩
def Row.lb : Row := ⟨"LB", .I, 0x0000707F#32, 0x00000003#32, .mem, .rs1, .immI, .load, .byte⟩
def Row.lh : Row := ⟨"LH", .I, 0x0000707F#32, 0x00001003#32, .mem, .rs1, .immI, .load, .half⟩
def Row.lw : Row := ⟨"LW", .I, 0x0000707F#32, 0x00002003#32, .mem, .rs1, .immI, .load, .word⟩
def Row.lbu : Row := ⟨"LBU", .I, 0x0000707F#32, 0x00004003#32, .mem, .rs1, .immI, .load, .byteU⟩
def Row.lhu : Row := ⟨"LHU", .I, 0x0000707F#32, 0x00005003#32, .mem, .rs1, .immI, .load, .halfU⟩
def Row.sb : Row := ⟨"SB", .S, 0x0000707F#32, 0x00000023#32, .mem, .rs1, .immS, .store, .byte⟩
def Row.sh : Row := ⟨"SH", .S, 0x0000707F#32, 0x00001023#32, .mem, .rs1, .immS, .store, .half⟩
def Row.sw : Row := ⟨"SW", .S, 0x0000707F#32, 0x00002023#32, .mem, .rs1, .immS, .store, .word⟩
def Row.addi : Row := ⟨"ADDI", .I, 0x0000707F#32, 0x00000013#32, .alu, .rs1, .immI, .alu .add, .none⟩
def Row.slti : Row := ⟨"SLTI", .I, 0x0000707F#32, 0x00002013#32, .alu, .rs1, .immI, .alu .slt, .none⟩
def Row.sltiu : Row := ⟨"SLTIU", .I, 0x0000707F#32, 0x00003013#32, .alu, .rs1, .immI, .alu .sltu, .none⟩
def Row.xori : Row := ⟨"XORI", .I, 0x0000707F#32, 0x00004013#32, .alu, .rs1, .immI, .alu .xor, .none⟩
def Row.ori : Row := ⟨"ORI", .I, 0x0000707F#32, 0x00006013#32, .alu, .rs1, .immI, .alu .or, .none⟩
def Row.andi : Row := ⟨"ANDI", .I, 0x0000707F#32, 0x00007013#32, .alu, .rs1, .immI, .alu .and, .none⟩
def Row.slli : Row := ⟨"SLLI", .I, 0xFE00707F#32, 0x00001013#32, .alu, .rs1, .immI, .alu .sll, .none⟩
def Row.srli : Row := ⟨"SRLI", .I, 0xFE00707F#32, 0x00005013#32, .alu, .rs1, .immI, .alu .srl, .none⟩
def Row.srai : Row := ⟨"SRAI", .I, 0xFE00707F#32, 0x40005013#32, .alu, .rs1, .immI, .alu .sra, .none⟩
def Row.add : Row := ⟨"ADD", .R, 0xFE00707F#32, 0x00000033#32, .alu, .rs1, .rs2, .alu .add, .none⟩
def Row.sub : Row := ⟨"SUB", .R, 0xFE00707F#32, 0x40000033#32, .alu, .rs1, .rs2, .alu .sub, .none⟩
def Row.sll : Row := ⟨"SLL", .R, 0xFE00707F#32, 0x00001033#32, .alu, .rs1, .rs2, .alu .sll, .none⟩
def Row.slt : Row := ⟨"SLT", .R, 0xFE00707F#32, 0x00002033#32, .alu, .rs1, .rs2, .alu .slt, .none⟩
def Row.sltu : Row := ⟨"SLTU", .R, 0xFE00707F#32, 0x00003033#32, .alu, .rs1, .rs2, .alu .sltu, .none⟩
def Row.xor : Row := ⟨"XOR", .R, 0xFE00707F#32, 0x00004033#32, .alu, .rs1, .rs2, .alu .xor, .none⟩
def Row.srl : Row := ⟨"SRL", .R, 0xFE00707F#32, 0x00005033#32, .alu, .rs1, .rs2, .alu .srl, .none⟩
def Row.sra : Row := ⟨"SRA", .R, 0xFE00707F#32, 0x40005033#32, .alu, .rs1, .rs2, .alu .sra, .none⟩
def Row.or : Row := ⟨"OR", .R, 0xFE00707F#32, 0x00006033#32, .alu, .rs1, .rs2, .alu .or, .none⟩
def Row.and : Row := ⟨"AND", .R, 0xFE00707F#32, 0x00007033#32, .alu, .rs1, .rs2, .alu .and, .none⟩
def Row.fence : Row := ⟨"FENCE", .I, 0x0000707F#32, 0x0000000F#32, .csr, .none, .none, .special, .none⟩
def Row.ecall : Row := ⟨"ECALL", .I, 0xFFFFFFFF#32, 0x00000073#32, .csr, .none, .none, .special, .none⟩
def Row.ebreak : Row := ⟨"EBREAK", .I, 0xFFFFFFFF#32, 0x00100073#32, .csr, .none, .none, .special, .none⟩
def Row.csrrw : Row := ⟨"CSRRW", .I, 0x0000707F#32, 0x00001073#32, .csr, .rs1, .none, .csrWrite, .none⟩
def Row.csrrs : Row := ⟨"CSRRS", .I, 0x0000707F#32, 0x00002073#32, .csr, .rs1, .none, .csrSet, .none⟩
def Row.csrrc : Row := ⟨"CSRRC", .I, 0x0000707F#32, 0x00003073#32, .csr, .rs1, .none, .csrClear, .none⟩
def Row.csrrwi : Row := ⟨"CSRRWI", .I, 0x0000707F#32, 0x00005073#32, .csr, .zimm, .none, .csrWrite, .none⟩
def Row.csrrsi : Row := ⟨"CSRRSI", .I, 0x0000707F#32, 0x00006073#32, .csr, .zimm, .none, .csrSet, .none⟩
def Row.csrrci : Row := ⟨"CSRRCI", .I, 0x0000707F#32, 0x00007073#32, .csr, .zimm, .none, .csrClear, .none⟩

/-- A word selects a row when its fixed bits agree (R90). -/
def Row.selects (r : Row) (w : Word) : Bool := w &&& r.mask == r.value

/-- A table row with the instruction its words stand for. -/
structure Entry where
  row : Row
  build : Word → Instr

/-- Arithmetic and logic (41_alu.md) rows of the decode table. -/
def aluEntries : List Entry := [
  ⟨.lui, fun w => .lui (fieldRd w) (fieldImmU w)⟩,
  ⟨.auipc, fun w => .auipc (fieldRd w) (fieldImmU w)⟩,
  ⟨.addi, fun w => .addi (fieldRd w) (fieldRs1 w) (fieldImmI w)⟩,
  ⟨.slti, fun w => .slti (fieldRd w) (fieldRs1 w) (fieldImmI w)⟩,
  ⟨.sltiu, fun w => .sltiu (fieldRd w) (fieldRs1 w) (fieldImmI w)⟩,
  ⟨.xori, fun w => .xori (fieldRd w) (fieldRs1 w) (fieldImmI w)⟩,
  ⟨.ori, fun w => .ori (fieldRd w) (fieldRs1 w) (fieldImmI w)⟩,
  ⟨.andi, fun w => .andi (fieldRd w) (fieldRs1 w) (fieldImmI w)⟩,
  ⟨.slli, fun w => .slli (fieldRd w) (fieldRs1 w) (fieldShamt w)⟩,
  ⟨.srli, fun w => .srli (fieldRd w) (fieldRs1 w) (fieldShamt w)⟩,
  ⟨.srai, fun w => .srai (fieldRd w) (fieldRs1 w) (fieldShamt w)⟩,
  ⟨.add, fun w => .add (fieldRd w) (fieldRs1 w) (fieldRs2 w)⟩,
  ⟨.sub, fun w => .sub (fieldRd w) (fieldRs1 w) (fieldRs2 w)⟩,
  ⟨.sll, fun w => .sll (fieldRd w) (fieldRs1 w) (fieldRs2 w)⟩,
  ⟨.slt, fun w => .slt (fieldRd w) (fieldRs1 w) (fieldRs2 w)⟩,
  ⟨.sltu, fun w => .sltu (fieldRd w) (fieldRs1 w) (fieldRs2 w)⟩,
  ⟨.xor, fun w => .xor (fieldRd w) (fieldRs1 w) (fieldRs2 w)⟩,
  ⟨.srl, fun w => .srl (fieldRd w) (fieldRs1 w) (fieldRs2 w)⟩,
  ⟨.sra, fun w => .sra (fieldRd w) (fieldRs1 w) (fieldRs2 w)⟩,
  ⟨.or, fun w => .or (fieldRd w) (fieldRs1 w) (fieldRs2 w)⟩,
  ⟨.and, fun w => .and (fieldRd w) (fieldRs1 w) (fieldRs2 w)⟩]

/-- Loads and stores (42_memory_access.md) rows of the decode table. -/
def memEntries : List Entry := [
  ⟨.lb, fun w => .lb (fieldRd w) (fieldRs1 w) (fieldImmI w)⟩,
  ⟨.lh, fun w => .lh (fieldRd w) (fieldRs1 w) (fieldImmI w)⟩,
  ⟨.lw, fun w => .lw (fieldRd w) (fieldRs1 w) (fieldImmI w)⟩,
  ⟨.lbu, fun w => .lbu (fieldRd w) (fieldRs1 w) (fieldImmI w)⟩,
  ⟨.lhu, fun w => .lhu (fieldRd w) (fieldRs1 w) (fieldImmI w)⟩,
  ⟨.sb, fun w => .sb (fieldRs1 w) (fieldRs2 w) (fieldImmS w)⟩,
  ⟨.sh, fun w => .sh (fieldRs1 w) (fieldRs2 w) (fieldImmS w)⟩,
  ⟨.sw, fun w => .sw (fieldRs1 w) (fieldRs2 w) (fieldImmS w)⟩]

/-- Control transfer (43_control.md) rows of the decode table. -/
def ctrlEntries : List Entry := [
  ⟨.jal, fun w => .jal (fieldRd w) (fieldImmJ w)⟩,
  ⟨.jalr, fun w => .jalr (fieldRd w) (fieldRs1 w) (fieldImmI w)⟩,
  ⟨.beq, fun w => .beq (fieldRs1 w) (fieldRs2 w) (fieldImmB w)⟩,
  ⟨.bne, fun w => .bne (fieldRs1 w) (fieldRs2 w) (fieldImmB w)⟩,
  ⟨.blt, fun w => .blt (fieldRs1 w) (fieldRs2 w) (fieldImmB w)⟩,
  ⟨.bge, fun w => .bge (fieldRs1 w) (fieldRs2 w) (fieldImmB w)⟩,
  ⟨.bltu, fun w => .bltu (fieldRs1 w) (fieldRs2 w) (fieldImmB w)⟩,
  ⟨.bgeu, fun w => .bgeu (fieldRs1 w) (fieldRs2 w) (fieldImmB w)⟩]

/-- CSR and system (44_csr_system.md) rows of the decode table. -/
def csrEntries : List Entry := [
  ⟨.fence, fun w => .fence (fieldFm w) (fieldPred w) (fieldSucc w) (fieldRs1 w) (fieldRd w)⟩,
  ⟨.ecall, fun _w => .ecall⟩,
  ⟨.ebreak, fun _w => .ebreak⟩,
  ⟨.csrrw, fun w => .csrrw (fieldRd w) (fieldCsr w) (fieldRs1 w)⟩,
  ⟨.csrrs, fun w => .csrrs (fieldRd w) (fieldCsr w) (fieldRs1 w)⟩,
  ⟨.csrrc, fun w => .csrrc (fieldRd w) (fieldCsr w) (fieldRs1 w)⟩,
  ⟨.csrrwi, fun w => .csrrwi (fieldRd w) (fieldCsr w) (fieldZimm w)⟩,
  ⟨.csrrsi, fun w => .csrrsi (fieldRd w) (fieldCsr w) (fieldZimm w)⟩,
  ⟨.csrrci, fun w => .csrrci (fieldRd w) (fieldCsr w) (fieldZimm w)⟩]

/-- The decode table (R93): 46 rows. -/
def decodeTable : List Entry := aluEntries ++ memEntries ++ ctrlEntries ++ csrEntries

/-- The row a word selects (R90); no two rows select the same word. -/
def lookupRow (w : Word) : Option Entry := decodeTable.find? (fun e => e.row.selects w)

/-- Why bytes are no instruction. Both become ILLEGAL_INST in a step (R96); a fetched word always has its
four bytes (R80). -/
inductive Reject where
  /-- Fewer than the four bytes of an instruction word (R80). -/
  | truncated
  /-- `inst[1:0] /= 0b11`, a 16-bit encoding (R80). -/
  | compressed
  /-- A word that matches no row (R96). -/
  | unmapped
deriving DecidableEq, Repr

/-- Decode one instruction word (R90, R96). -/
def decode (w : Word) : Except Reject Instr :=
  match lookupRow w with
  | some e => .ok (e.build w)
  | none => if w.extractLsb' 0 2 == 0b11#2 then .error .unmapped else .error .compressed

/-- The little-endian word of four bytes, the first at the lowest address (20_memory.md R59, R80). -/
def wordOfBytes (b0 b1 b2 b3 : Byte) : Word := b3 ++ b2 ++ b1 ++ b0

/-- Decode the instruction at the head of a byte sequence; answers the bytes after it. -/
def decodeBytes : List Byte → Except Reject (Instr × List Byte)
  | b0 :: b1 :: b2 :: b3 :: rest =>
    match decode (wordOfBytes b0 b1 b2 b3) with
    | .ok i => .ok (i, rest)
    | .error r => .error r
  | _ => .error .truncated

/-! ## Encoding (R82, R93) -/

/-- The row of an instruction. -/
def rowOf : Instr → Row
  | .lui .. => .lui
  | .auipc .. => .auipc
  | .addi .. => .addi
  | .slti .. => .slti
  | .sltiu .. => .sltiu
  | .xori .. => .xori
  | .ori .. => .ori
  | .andi .. => .andi
  | .slli .. => .slli
  | .srli .. => .srli
  | .srai .. => .srai
  | .add .. => .add
  | .sub .. => .sub
  | .sll .. => .sll
  | .slt .. => .slt
  | .sltu .. => .sltu
  | .xor .. => .xor
  | .srl .. => .srl
  | .sra .. => .sra
  | .or .. => .or
  | .and .. => .and
  | .lb .. => .lb
  | .lh .. => .lh
  | .lw .. => .lw
  | .lbu .. => .lbu
  | .lhu .. => .lhu
  | .sb .. => .sb
  | .sh .. => .sh
  | .sw .. => .sw
  | .jal .. => .jal
  | .jalr .. => .jalr
  | .beq .. => .beq
  | .bne .. => .bne
  | .blt .. => .blt
  | .bge .. => .bge
  | .bltu .. => .bltu
  | .bgeu .. => .bgeu
  | .fence .. => .fence
  | .ecall => .ecall
  | .ebreak => .ebreak
  | .csrrw .. => .csrrw
  | .csrrs .. => .csrrs
  | .csrrc .. => .csrrc
  | .csrrwi .. => .csrrwi
  | .csrrsi .. => .csrrsi
  | .csrrci .. => .csrrci

/-- The execution class of an instruction (R90). -/
def Instr.cls (i : Instr) : ExecClass := (rowOf i).cls

def regBits (r : Reg) : BitVec 5 := BitVec.ofFin r

/-- Fixed fields of a row: opcode, funct3 and funct7 (R81, R92). -/
def Row.opcode (r : Row) : BitVec 7 := r.value.extractLsb' 0 7
def Row.funct3 (r : Row) : BitVec 3 := r.value.extractLsb' 12 3
def Row.funct7 (r : Row) : BitVec 7 := r.value.extractLsb' 25 7

/-- R format; the immediate shifts put shamt in the rs2 field (R81, R82). -/
def packR (r : Row) (rs2 : BitVec 5) (rs1 rd : Reg) : Word :=
  r.funct7 ++ rs2 ++ regBits rs1 ++ r.funct3 ++ regBits rd ++ r.opcode

/-- I format; CSRR*I put zimm in the rs1 field (R81, R82). -/
def packI (r : Row) (imm : BitVec 12) (rs1 : BitVec 5) (rd : Reg) : Word :=
  imm ++ rs1 ++ r.funct3 ++ regBits rd ++ r.opcode

/-- S format (R82). -/
def packS (r : Row) (imm : BitVec 12) (rs2 rs1 : Reg) : Word :=
  imm.extractLsb' 5 7 ++ regBits rs2 ++ regBits rs1 ++ r.funct3 ++ imm.extractLsb' 0 5 ++ r.opcode

/-- B format (R82). -/
def packB (r : Row) (off : BitVec 13) (rs2 rs1 : Reg) : Word :=
  off.extractLsb' 12 1 ++ off.extractLsb' 5 6 ++ regBits rs2 ++ regBits rs1 ++ r.funct3
    ++ off.extractLsb' 1 4 ++ off.extractLsb' 11 1 ++ r.opcode

/-- U format (R82). -/
def packU (r : Row) (imm : BitVec 20) (rd : Reg) : Word := imm ++ regBits rd ++ r.opcode

/-- J format (R82). -/
def packJ (r : Row) (off : BitVec 21) (rd : Reg) : Word :=
  off.extractLsb' 20 1 ++ off.extractLsb' 1 10 ++ off.extractLsb' 11 1 ++ off.extractLsb' 12 8
    ++ regBits rd ++ r.opcode

/-- The word of an instruction. -/
def encode : Instr → Word
  | .lui rd imm => packU .lui imm rd
  | .auipc rd imm => packU .auipc imm rd
  | .addi rd rs1 imm => packI .addi imm (regBits rs1) rd
  | .slti rd rs1 imm => packI .slti imm (regBits rs1) rd
  | .sltiu rd rs1 imm => packI .sltiu imm (regBits rs1) rd
  | .xori rd rs1 imm => packI .xori imm (regBits rs1) rd
  | .ori rd rs1 imm => packI .ori imm (regBits rs1) rd
  | .andi rd rs1 imm => packI .andi imm (regBits rs1) rd
  | .slli rd rs1 shamt => packR .slli shamt rs1 rd
  | .srli rd rs1 shamt => packR .srli shamt rs1 rd
  | .srai rd rs1 shamt => packR .srai shamt rs1 rd
  | .add rd rs1 rs2 => packR .add (regBits rs2) rs1 rd
  | .sub rd rs1 rs2 => packR .sub (regBits rs2) rs1 rd
  | .sll rd rs1 rs2 => packR .sll (regBits rs2) rs1 rd
  | .slt rd rs1 rs2 => packR .slt (regBits rs2) rs1 rd
  | .sltu rd rs1 rs2 => packR .sltu (regBits rs2) rs1 rd
  | .xor rd rs1 rs2 => packR .xor (regBits rs2) rs1 rd
  | .srl rd rs1 rs2 => packR .srl (regBits rs2) rs1 rd
  | .sra rd rs1 rs2 => packR .sra (regBits rs2) rs1 rd
  | .or rd rs1 rs2 => packR .or (regBits rs2) rs1 rd
  | .and rd rs1 rs2 => packR .and (regBits rs2) rs1 rd
  | .lb rd rs1 imm => packI .lb imm (regBits rs1) rd
  | .lh rd rs1 imm => packI .lh imm (regBits rs1) rd
  | .lw rd rs1 imm => packI .lw imm (regBits rs1) rd
  | .lbu rd rs1 imm => packI .lbu imm (regBits rs1) rd
  | .lhu rd rs1 imm => packI .lhu imm (regBits rs1) rd
  | .sb rs1 rs2 imm => packS .sb imm rs2 rs1
  | .sh rs1 rs2 imm => packS .sh imm rs2 rs1
  | .sw rs1 rs2 imm => packS .sw imm rs2 rs1
  | .jal rd off => packJ .jal off rd
  | .jalr rd rs1 imm => packI .jalr imm (regBits rs1) rd
  | .beq rs1 rs2 off => packB .beq off rs2 rs1
  | .bne rs1 rs2 off => packB .bne off rs2 rs1
  | .blt rs1 rs2 off => packB .blt off rs2 rs1
  | .bge rs1 rs2 off => packB .bge off rs2 rs1
  | .bltu rs1 rs2 off => packB .bltu off rs2 rs1
  | .bgeu rs1 rs2 off => packB .bgeu off rs2 rs1
  | .fence fm pred succ rs1 rd => packI .fence (fm ++ pred ++ succ) (regBits rs1) rd
  | .ecall => Row.ecall.value
  | .ebreak => Row.ebreak.value
  | .csrrw rd csr rs1 => packI .csrrw csr (regBits rs1) rd
  | .csrrs rd csr rs1 => packI .csrrs csr (regBits rs1) rd
  | .csrrc rd csr rs1 => packI .csrrc csr (regBits rs1) rd
  | .csrrwi rd csr zimm => packI .csrrwi csr zimm rd
  | .csrrsi rd csr zimm => packI .csrrsi csr zimm rd
  | .csrrci rd csr zimm => packI .csrrci csr zimm rd

/-- Byte `k` of a word (20_memory.md R59). -/
def byteOf (w : Word) (k : Nat) : Byte := w.extractLsb' (8 * k) 8

/-- The bytes of a word, lowest address first (20_memory.md R59). -/
def bytesOfWord (w : Word) : List Byte := [byteOf w 0, byteOf w 1, byteOf w 2, byteOf w 3]

/-- The instruction the decoder reads from the table word `w` of `nbits` bits, laid out in memory as the
engine stores it; bits above `nbits` are 0. -/
def decodeTableWord (nbits w : Nat) : Option Instr :=
  match decodeBytes (bytesOfWord (BitVec.ofNat 32 (w % 2 ^ nbits))) with
  | .ok (i, _) => some i
  | .error _ => none

end Sys2Proof
end

