-- ==== Sys2Proof/Config.lean ====
section
/-! DEFINITION. The named parameters of the spec (00_scope.md R9) as one record of plain data, and the
draws, the values the spec leaves free (00_scope.md R16), as opaque constants.

"A model takes each of them as an argument" (R9): a machine's `Config` is carried in its state, no step
changes it, and a statement about every state holds for every configuration (log 1). -/

namespace Sys2Proof

/-- The range `[base, base + size)` of a memory region (20_memory.md R51). -/
structure Region where
  base : Nat
  size : Nat
deriving DecidableEq, Repr

/-- `MISALIGNED_FETCH` (40_engine.md R112). -/
inductive MisalignedFetch where
  | refuse | enclosingWord | imemError
deriving DecidableEq, Repr

/-- `CROSSING_LOAD` and `CROSSING_STORE` (42_memory_access.md R186, R194). -/
inductive CrossingPolicy where
  | truncate | illegal
deriving DecidableEq, Repr

/-- `SYSCALL_MEM_FAIL` (45_syscalls.md R265): the spec names `Refuse` only; `error` is the bridge
answering its ERROR result (R264), the one other outcome the bridge has for a failure (log 12). -/
inductive SyscallMemFail where
  | refuse | error
deriving DecidableEq, Repr

/-- `SYS_NUM`: the numbers of the seven allowlisted syscalls (45_syscalls.md R261). -/
structure SysNums where
  fstat : Word
  brk : Word
  write : Word
  close : Word
  exit : Word
  read : Word
  lseek : Word
deriving DecidableEq, Repr

/-- `FENCE_MATCH`: the mask and the match value of the FENCE row (30_encoding.md R94). -/
structure FenceMatch where
  mask : Word
  value : Word
deriving DecidableEq, Repr

/-- `READ_LINE_FORMAT` (45_syscalls.md R273): whether the newline is part of the line (as which byte: log
32), whether a terminator byte follows it, whether count limits it (log 16). -/
structure ReadLineFormat where
  keepNewline : Bool
  terminator : Option Byte
  enforceCount : Bool
deriving DecidableEq, Repr

/-- The parameters of R9. -/
structure Config where
  /-- `IMEM_BASE`, `IMEM_SIZE`. -/
  imem : Region
  /-- `DMEM_BASE`, `DMEM_SIZE`. -/
  dmem : Region
  /-- `BOOTROM_BASE`, `BOOTROM_SIZE`. -/
  bootrom : Region
  /-- `VM_REGIONS`, in probe order (20_memory.md R57). -/
  vmRegions : List Region
  /-- `BOOTROM_IMAGE`, the boot ROM's bytes at launch (70_reset_and_hazards.md R335). -/
  bootromImage : List Byte
  /-- `HEAP_START` (45_syscalls.md R270). -/
  heapStart : Word
  /-- `HEAP_SIZE`, used by no rule (45_syscalls.md R270). -/
  heapSize : Word
  /-- `RESET_PC` (70_reset_and_hazards.md R333). -/
  resetPc : Word
  /-- `BACKED_CSRS` (10_state.md R29). -/
  backedCsrs : List CsrAddr
  /-- `CSR_RESET`: the backed addresses whose launch value is not 0, with it, rising (10_state.md R31). -/
  csrReset : List (Nat × Word)
  /-- `SYS_NUM`. -/
  sysNum : SysNums
  /-- `WRITE_SENTINEL` (45_syscalls.md R272). -/
  writeSentinel : Word
  /-- `WRITE_ALT_ADDR`, whose use the spec leaves to the drawn bytes (45_syscalls.md R272). -/
  writeAltAddr : Word
  /-- `BRK_KEY_REG` (45_syscalls.md R270). -/
  brkKeyReg : Reg
  misalignedFetch : MisalignedFetch
  crossingLoad : CrossingPolicy
  crossingStore : CrossingPolicy
  fenceMatch : FenceMatch
  syscallMemFail : SyscallMemFail
  readLineFormat : ReadLineFormat
deriving DecidableEq, Repr

/-! ## Well-formed configurations (20_memory.md R52) -/

/-- Base and size are multiples of 4 and the region ends inside the 32-bit space (R52). -/
def Region.aligned (r : Region) : Bool :=
  r.base % 4 == 0 && r.size % 4 == 0 && decide (r.base + r.size ≤ 2 ^ 32)

/-- Two regions share no address (R52). -/
def Region.disjoint (r q : Region) : Bool :=
  decide (r.base + r.size ≤ q.base) || decide (q.base + q.size ≤ r.base)
    || r.size == 0 || q.size == 0

/-- The same region listed again, or a disjoint one (R52, R57). -/
def Region.sameOrDisjoint (r q : Region) : Bool := r == q || r.disjoint q

/-- Every region of the machine: IMEM, DMEM, the boot ROM and the members of `VM_REGIONS` (R51). -/
def Config.regions (c : Config) : List Region :=
  c.imem :: c.dmem :: c.bootrom :: c.vmRegions

/-- The mask and match of the default FENCE row (30_encoding.md R94). -/
def FenceMatch.row : FenceMatch := { mask := 0x0000707F#32, value := 0x0000000F#32 }

/-- `FENCE_MATCH` selects no word outside the default FENCE row (R94: "narrower"). -/
def FenceMatch.narrows (f : FenceMatch) : Bool :=
  f.mask &&& FenceMatch.row.mask == FenceMatch.row.mask
    && f.value &&& FenceMatch.row.mask == FenceMatch.row.value

/-- The seven numbers of `SYS_NUM` as a list. -/
def SysNums.all (n : SysNums) : List Word :=
  [n.fstat, n.brk, n.write, n.close, n.exit, n.read, n.lseek]

/-- What the spec asks of the parameters: R52 for the regions; a boot ROM image that fits its region;
a `RESET_PC` that is a multiple of 4 (R333); a FENCE match no wider than the row (R94); CSR launch values
for backed addresses only, listed in rising order and none 0 (R31); seven different syscall numbers
(R261). -/
def Config.wellFormed (c : Config) : Bool :=
  c.regions.all Region.aligned
    && c.imem.disjoint c.dmem && c.imem.disjoint c.bootrom && c.dmem.disjoint c.bootrom
    && c.regions.all (fun r => c.regions.all (Region.sameOrDisjoint r))
    && decide (c.bootromImage.length ≤ c.bootrom.size)
    && c.resetPc.toNat % 4 == 0
    && c.fenceMatch.narrows
    && decide (c.csrReset.Pairwise (fun a b => a.1 < b.1))
    && c.csrReset.all (fun e => e.2 != 0#32 && c.backedCsrs.any (fun a => a.toNat == e.1))
    && decide (c.sysNum.all.Nodup)

/-- `Config.wellFormed` as a proposition. -/
abbrev Config.WellFormed (c : Config) : Prop := c.wellFormed = true

/-! ## Draws: values the spec leaves free (93_implementation_defined.md section 1; log 14)

Each is applied to the number of draws taken so far; nothing constrains any of them. -/

/-- a0 after brk with a0 = 0 (45_syscalls.md R270). -/
opaque Config.freeBrkResult : Nat → Word

/-- The value brk stores in `brk_table` (45_syscalls.md R270). -/
opaque Config.freeBrkValue : Nat → Word

/-- a0 after write (45_syscalls.md R271). -/
opaque Config.freeWriteResult : Nat → Word

/-- The console bytes of a write that read the sentinel (45_syscalls.md R272). -/
opaque Config.freeWriteOutput : Nat → List Byte

/-- a0 after reading an empty line (45_syscalls.md R273). -/
opaque Config.freeReadResult : Nat → Word

end Sys2Proof
end

