-- ==== Sys2Proof/Machine/Platform.lean ====
section
/-! DEFINITION. The configuration of the machine that `State.reset` is: the spec's defaults, and for the
parameters that have none the example values of 95_test_vectors.md section 0 (92_eei_decisions.md D4) or a
value of the model's own (log 1). Statements about every state do not depend on it. -/

namespace Sys2Proof

/-- `SYS_NUM`'s default, the RISC-V Linux generic numbers (45_syscalls.md R261). -/
def SysNums.linux : SysNums :=
  { fstat := 80, brk := 214, write := 64, close := 57, exit := 93, read := 63, lseek := 62 }

/-- `READ_LINE_FORMAT`'s default (45_syscalls.md R273). -/
def ReadLineFormat.plain : ReadLineFormat :=
  { keepNewline := false, terminator := none, enforceCount := false }

/-- DESIGN CHOICE (log 1): the example configuration of 95_test_vectors.md section 0; `HEAP_START`,
`HEAP_SIZE`, `WRITE_SENTINEL`, `WRITE_ALT_ADDR`, an empty `BOOTROM_IMAGE` and `CROSSING_LOAD = Truncate`
are the model's choices (logs 1, 6, 8). -/
def Config.standard : Config where
  imem := ⟨0x80000000, 0x10000⟩
  dmem := ⟨0x80010000, 0x10000⟩
  bootrom := ⟨0x00001000, 0x1000⟩
  vmRegions := [⟨0x80000000, 0x10000⟩, ⟨0x80010000, 0x10000⟩]
  bootromImage := []
  heapStart := 0x80018000#32
  heapSize := 0x4000#32
  resetPc := 0x00001000#32
  backedCsrs := [0x340#12, 0xF14#12]
  csrReset := []
  sysNum := SysNums.linux
  writeSentinel := 0xFFFFFFFF#32
  writeAltAddr := 0x80010000#32
  brkKeyReg := 10
  misalignedFetch := .refuse
  crossingLoad := .truncate
  crossingStore := .truncate
  fenceMatch := FenceMatch.row
  syscallMemFail := .refuse
  readLineFormat := ReadLineFormat.plain

end Sys2Proof
end

