-- ==== Sys2Proof/Machine/State.lean ====
section
/-! DEFINITION. The state of the engine as plain data (spec 10_state.md), the reasons a step can stop, and
the state after reset. -/

namespace Sys2Proof.Machine

/-- The exception codes (60_exceptions.md R300). -/
inductive ExcCode where
  | noException | imemError | dmemError | illegalInst | completion | fence | osError
deriving DecidableEq, Repr

/-- The statistics counters `count[c]` (10_state.md R40), 32-bit words as every value of no stated width
(00_scope.md R11; log 31). -/
structure ClassCounts where
  alu : Word
  mem : Word
  ctrl : Word
  csr : Word
deriving DecidableEq, Repr

/-- A register write as the trace port sees it: the destination and the value computed, kept for
`rd = 0` too (40_engine.md R125). -/
structure WriteBack where
  rd : Reg
  value : Word
deriving DecidableEq, Repr

/-- One record of the trace port (40_engine.md R125). -/
structure TraceRecord where
  pc : Word
  inst : Word
  rd : Option Reg
  wbval : Option Word
  nextPc : Word
deriving DecidableEq, Repr

/-- A table keyed by number: entries in strictly rising order, none equal to what an unlisted key reads
as (`Table.Wf`; log 25). -/
abbrev Table (α : Type) := List (Nat × α)

/-- The bytes of every memory region, keyed by address (20_memory.md R56; logs 5, 24). -/
abbrev Memory := List Host.Cell

/-- Everything the spec gives the machine (INVENTORY.md, State). -/
structure State where
  /-- The machine's parameters, fixed (00_scope.md R9; log 1). -/
  cfg : Config
  /-- x0-x31 (10_state.md R20); x0 is read and written through the accessors only (R21). -/
  regs : Vector Word 32
  /-- The program counter (10_state.md R24). -/
  pc : Word
  /-- The CSR file, keyed by the 12-bit address; an unlisted address holds 0 (10_state.md R28-R31). -/
  csrs : Table Word
  /-- The bytes of all regions; an unlisted byte reads 0 (10_state.md R35; log 5). -/
  mem : Memory
  /-- Fetch through `VM_REGIONS` (10_state.md R37). -/
  vmFetch : Bool
  /-- The break side-table; an unlisted key reads 0 (10_state.md R38). -/
  brkTable : Table Word
  /-- The exception code of the last step (10_state.md R39). -/
  status : ExcCode
  /-- The refusal mark (10_state.md R42). -/
  refused : Bool
  /-- Steps that reached dispatch (10_state.md R40, 40_engine.md R124), modulo 2^32 (00_scope.md R11; log 31). -/
  cycles : Word
  /-- Dispatched steps per class (10_state.md R40). -/
  counts : ClassCounts
  /-- Console lines the host has supplied and no read has taken, oldest first, each without its newline
  (10_state.md R41, 45_syscalls.md R263). -/
  consoleIn : List (List Byte)
  /-- The console output stream, oldest byte first (10_state.md R41, 45_syscalls.md R262). -/
  consoleOut : List Byte
  /-- The trace port, oldest record first (40_engine.md R125). -/
  trace : List TraceRecord
  /-- MODEL's own: the register write of the step under way, for its trace record (log 18). -/
  wb : Option WriteBack
  /-- MODEL's own: how many draws have been taken (00_scope.md R16; log 14). -/
  draws : Nat
deriving DecidableEq, Repr

/-- Why a step has no next state though nothing is unmodelled. -/
inductive Fault where
  /-- Raised by `step` when `status` is not NONE: "A halted engine takes no step" (40_engine.md R122).
  Safe: it is the spec's own behaviour. -/
  | halted
  /-- Raised by ECALL's read service when the host has supplied no line: the step waits and changes
  nothing (45_syscalls.md R263, 70_reset_and_hazards.md R341), "stuck until the host supplies a line"
  (93_implementation_defined.md). Safe. -/
  | consoleInputWait
deriving DecidableEq, Repr

/-- Why a step is given no meaning. -/
inductive Refusal where
  /-- Raised by `exec` for an instruction that has no meaning yet. Safe. -/
  | notModelled (mnemonic : String)
  /-- Raised by `step` when the `refused` mark is set: such a state "takes no further step"
  (10_state.md R42). Safe. -/
  | refusedState
deriving DecidableEq, Repr

/-- The outcome of a step or of an instruction. -/
abbrev Result := Host.Outcome State Fault Refusal

/-- The machine right after reset: construction (70_reset_and_hazards.md R330, 10_state.md R43) in the
standard configuration, set up for the boot phase as `run(RESET_PC, vm = false)` leaves it (R336).
The values the spec leaves to the launch are DESIGN CHOICES: x1-x31 are 0 (log 3), pc and vm_fetch are
those of the boot phase (log 2), memory lists nothing (logs 5, 6), no console line is supplied (log 17). -/
def State.reset : State where
  cfg := Config.standard
  regs := Vector.replicate 32 0#32
  pc := Config.standard.resetPc
  csrs := Config.standard.csrReset
  mem := []
  vmFetch := false
  brkTable := []
  status := .noException
  refused := false
  cycles := 0#32
  counts := ⟨0#32, 0#32, 0#32, 0#32⟩
  consoleIn := []
  consoleOut := []
  trace := []
  wb := none
  draws := 0

end Sys2Proof.Machine
end

