-- ==== Sys2Proof/Machine/Memory.lean ====
section
/-! DEFINITION. Tables in canonical form, the byte memory over them, aligned words, and access through an
ordered chain of regions (spec 20_memory.md). -/

namespace Sys2Proof.Machine

/-! ## Tables (log 25) -/

section
variable {α : Type}

/-- What key `a` reads as; `d` where it is not listed. -/
def Table.get (d : α) : Table α → Nat → α
  | [], _ => d
  | (k, v) :: m, a => if a < k then d else if k = a then v else Table.get d m a

/-- An entry for `a`, or none when the value is what an unlisted key reads as. -/
def Table.entry [DecidableEq α] (d : α) (a : Nat) (v : α) : Table α :=
  if v = d then [] else [(a, v)]

/-- Make key `a` read as `v`, in canonical form. In a canonical table nothing is dropped but the old
entry of `a`. -/
def Table.put [DecidableEq α] (d : α) : Table α → Nat → α → Table α
  | [], a, v => Table.entry d a v
  | (k, w) :: m, a, v =>
    if k < a then (k, w) :: Table.put d m a v
    else if k = a then Table.entry d a v ++ m.dropWhile (fun c => decide (c.1 ≤ a))
    else Table.entry d a v ++ (k, w) :: m

/-- The canonical form: keys strictly rising, no entry equal to what an unlisted key reads as. -/
abbrev Table.Wf [DecidableEq α] (d : α) (m : Table α) : Prop :=
  m.Pairwise (fun a b => a.1 < b.1) ∧ ∀ c ∈ m, c.2 ≠ d

end

/-! ## Bytes and words -/

/-- DESIGN CHOICE (log 5): what a byte that nothing has written reads as. The spec makes every byte's
launch value part of the launch input (10_state.md R36). -/
def unlistedByte : Byte := 0#8

/-- The byte at an address. -/
def Memory.read (m : Memory) (a : Nat) : Byte := Table.get unlistedByte m a

/-- Make the byte at an address `b`. -/
def Memory.write (m : Memory) (a : Nat) (b : Byte) : Memory := Table.put unlistedByte m a b

/-- The canonical form of memory. -/
abbrev Memory.wf (m : Memory) : Prop := Table.Wf unlistedByte m

/-- `word(W)`: the little-endian word of the bytes W..W+3 (20_memory.md R59). -/
def Memory.readWord (m : Memory) (w : Nat) : Word :=
  wordOfBytes (m.read w) (m.read (w + 1)) (m.read (w + 2)) (m.read (w + 3))

/-- Store a word as bytes W..W+3 (20_memory.md R53, R59). -/
def Memory.writeWord (m : Memory) (w : Nat) (v : Word) : Memory :=
  (((Memory.write m w (byteOf v 0)).write (w + 1) (byteOf v 1)).write (w + 2) (byteOf v 2)).write
    (w + 3) (byteOf v 3)

/-- Store bytes at rising addresses from `a` on: an image of the loader or of the boot ROM
(70_reset_and_hazards.md R334, R335). -/
def Memory.load : Memory → Nat → List Byte → Memory
  | m, _, [] => m
  | m, a, b :: bs => Memory.load (Memory.write m a b) (a + 1) bs

/-! ## Regions and chains -/

/-- The address lies in `[base, base + size)` (20_memory.md R51). -/
def inRegion (r : Region) (a : Word) : Bool := decide (r.base ≤ a.toNat) && decide (a.toNat < r.base + r.size)

/-- `FETCH_CHAIN` (20_memory.md R54). -/
def fetchChain (c : Config) (vmFetch : Bool) : List Region :=
  if vmFetch then c.vmRegions else [c.imem, c.bootrom]

/-- `LOAD_CHAIN` (20_memory.md R54). -/
def loadChain (c : Config) : List Region := [c.dmem] ++ c.vmRegions ++ [c.bootrom, c.imem]

/-- `STORE_CHAIN` (20_memory.md R54). -/
def storeChain (c : Config) : List Region := [c.dmem] ++ c.vmRegions ++ [c.imem]

/-- `SYSCALL_CHAIN` (20_memory.md R54). -/
def syscallChain (c : Config) : List Region := c.vmRegions

/-- Some region of the chain contains the address (20_memory.md R55). With disjoint regions the order of
a chain decides only which addresses it reaches (R56; log 24). -/
def reaches (chain : List Region) (a : Word) : Bool := chain.any (fun r => inRegion r a)

/-- `RegionRead(chain, A)` (20_memory.md R55): `none` is its failure. -/
def regionRead (chain : List Region) (m : Memory) (a : Word) : Option Word :=
  if reaches chain a then some (m.readWord a.toNat) else none

/-- `RegionWrite(chain, A, w)` (20_memory.md R55): `none` is its failure, which changes nothing. -/
def regionWrite (chain : List Region) (m : Memory) (a : Word) (w : Word) : Option Memory :=
  if reaches chain a then some (m.writeWord a.toNat w) else none

/-! ## Words and lanes -/

/-- The enclosing word of an address: `EA & ~3` (20_memory.md R61). -/
def alignDown (a : Word) : Word := a &&& 0xFFFFFFFC#32

/-- The remainder `EA[1:0]` (20_memory.md R61). -/
def remainder (a : Word) : Nat := (a.extractLsb' 0 2).toNat

/-- The lane shift `w >>u 8r` (42_memory_access.md R183). -/
def laneShift (w : Word) (r : Nat) : Word := w >>> (8 * r)

/-- `mask_n = 2^(8n) - 1` (42_memory_access.md R193). -/
def laneMask (n : Nat) : Word := BitVec.ofNat 32 (2 ^ (8 * n) - 1)

/-- The store merge (42_memory_access.md R193): every byte outside the written lanes is kept
(90_conflicts.md C2). With lanes beyond byte 3 the shift drops them (R194, Truncate). -/
def merge (old v : Word) (n r : Nat) : Word :=
  (old &&& ~~~(laneMask n <<< (8 * r))) ||| ((v &&& laneMask n) <<< (8 * r))

end Sys2Proof.Machine
end

