-- ==== Sys2Proof/Machine/Ops.lean ====
section
/-! DEFINITION. The shared operations on the state: registers, the program counter, CSRs, the break table,
the console, taking an exception and going on after one. -/

namespace Sys2Proof.Machine

/-! ## General registers (spec 10_state.md R20-R23) -/

/-- `x[i]`: 0 for `i = 0` (R21). -/
def State.readReg (s : State) (r : Reg) : Word := if r = 0 then 0#32 else s.regs[r.val]

/-- `x[i] <- v`: dropped for `i = 0` (R21). -/
def State.setReg (s : State) (r : Reg) (v : Word) : State :=
  if r = 0 then s else { s with regs := s.regs.set r.val v }

/-- An instruction's write of `rd`: the register write, and the value on the write-back latch, which the
trace port shows for `rd = 0` too (40_engine.md R125; log 18). -/
def State.writeRd (s : State) (rd : Reg) (v : Word) : State := { s.setReg rd v with wb := some ⟨rd, v⟩ }

/-- a0, a1, a2 and a7 (45_syscalls.md R260, 00_scope.md R18). -/
def regA0 : Reg := 10
def regA1 : Reg := 11
def regA2 : Reg := 12
def regA7 : Reg := 17

/-! ## The program counter (10_state.md R24, R25) -/

/-- `pc <- t`. -/
def State.setPc (s : State) (t : Word) : State := { s with pc := t }

/-- `pc <- pc + 4`, modulo 2^32 (R25). -/
def State.advance (s : State) : State := s.setPc (s.pc + 4#32)

/-! ## CSRs (10_state.md R28-R31) -/

/-- The address is in `BACKED_CSRS` (R29). -/
def csrBacked (c : Config) (a : CsrAddr) : Bool := c.backedCsrs.contains a

/-- `CSR[a]` (R30). -/
def State.readCsr (s : State) (a : CsrAddr) : Word := Table.get 0#32 s.csrs a.toNat

/-- `CSR[a] <- v`, all 32 bits as given (R30). -/
def State.writeCsr (s : State) (a : CsrAddr) (v : Word) : State :=
  { s with csrs := Table.put 0#32 s.csrs a.toNat v }

/-! ## Memory and the break table -/

def State.setMem (s : State) (m : Memory) : State := { s with mem := m }

/-- `var_get(key)` (10_state.md R38). -/
def State.readBrk (s : State) (key : Word) : Word := Table.get 0#32 s.brkTable key.toNat

/-- `var_set(key, value)` (10_state.md R38). -/
def State.writeBrk (s : State) (key v : Word) : State :=
  { s with brkTable := Table.put 0#32 s.brkTable key.toNat v }

/-! ## Console ports and draws -/

/-- Append bytes to the console output stream (45_syscalls.md R262). -/
def State.emit (s : State) (bs : List Byte) : State := { s with consoleOut := s.consoleOut ++ bs }

/-- Take the oldest supplied line off the console input (45_syscalls.md R263). -/
def State.dropLine (s : State) : State := { s with consoleIn := s.consoleIn.tail }

/-- Count one draw (log 14). -/
def State.countDraw (s : State) : State := { s with draws := s.draws + 1 }

/-! ## Exceptions (60_exceptions.md) -/

/-- Taking an exception: the step ends with the code in `status` and nothing else happens. No state is
saved, no CSR is written, no mode changes and control goes to no vector (R306); the run has ended (R120). -/
def raise (c : ExcCode) (s : State) : State := { s with status := c }

/-- The refusal mark (10_state.md R42). -/
def markRefused (s : State) : State := { s with refused := true }

/-- Going on after a halt. There is no trap return (R310); the host's `run(start_pc, vm)` sets exactly
pc, vm_fetch and status (70_reset_and_hazards.md R331). -/
def hostRun (startPc : Word) (vm : Bool) (s : State) : State :=
  { s with pc := startPc, vmFetch := vm, status := .noException }

/-- The numeric value of a code: one bit each (R300; log 23), as a word (00_scope.md R11). -/
def ExcCode.value : ExcCode → Word
  | .noException => 0x00#32
  | .imemError => 0x01#32
  | .dmemError => 0x02#32
  | .illegalInst => 0x04#32
  | .completion => 0x08#32
  | .fence => 0x10#32
  | .osError => 0x20#32

/-! ## Outcomes -/

/-- Apply a function to the next state of an outcome; a stop stays as it is. -/
def mapNext (f : State → State) : Result → Result
  | .next s => .next (f s)
  | .fault r => .fault r
  | .refused r => .refused r

end Sys2Proof.Machine
end

