-- ==== Sys2Proof/Machine/Operands.lean ====
section
/-! DEFINITION. Every operand form of the decode record (spec 30_encoding.md R83-R89): what it reads, and
how a row's selectors pick it out of an instruction word. -/

namespace Sys2Proof.Machine

/-- An operand, with its immediate or register number. -/
inductive Operand where
  | none
  | reg (r : Reg)
  | pc
  | zimm (z : BitVec 5)
  | immI (i : BitVec 12)
  | immS (i : BitVec 12)
  | immU (i : BitVec 20)
  | immJ (i : BitVec 21)
  | immB (i : BitVec 13)
deriving DecidableEq, Repr

/-- `immI = sext_12` (R83) and `immS = sext_12` (R84). -/
def immI (i : BitVec 12) : Word := i.signExtend 32
def immS (i : BitVec 12) : Word := i.signExtend 32
/-- `immU`: twelve zero bits below (R86). -/
def immU (i : BitVec 20) : Word := i ++ 0#12
/-- `immJ = sext_21` (R87). -/
def immJ (i : BitVec 21) : Word := i.signExtend 32
/-- `immB = sext_13` (R85). -/
def immB (i : BitVec 13) : Word := i.signExtend 32
/-- `zimm = zext_5` (R88). -/
def zimm (z : BitVec 5) : Word := z.setWidth 32

/-- What an operand reads; `none` reads 0, `pc` the address of the current instruction (R89). -/
def Operand.value (o : Operand) (s : State) : Word :=
  match o with
  | .none => 0#32
  | .reg r => s.readReg r
  | .pc => s.pc
  | .zimm z => Machine.zimm z
  | .immI i => Machine.immI i
  | .immS i => Machine.immS i
  | .immU i => Machine.immU i
  | .immJ i => Machine.immJ i
  | .immB i => Machine.immB i

/-- The first operand a row's selector picks out of a word (R89). -/
def operand1 (sel : Src1) (w : Word) : Operand :=
  match sel with
  | .none => .none
  | .rs1 => .reg (fieldRs1 w)
  | .pc => .pc
  | .zimm => .zimm (fieldZimm w)

/-- The second operand a row's selector picks out of a word (R89). -/
def operand2 (sel : Src2) (w : Word) : Operand :=
  match sel with
  | .none => .none
  | .rs2 => .reg (fieldRs2 w)
  | .immI => .immI (fieldImmI w)
  | .immS => .immS (fieldImmS w)
  | .immU => .immU (fieldImmU w)
  | .immJ => .immJ (fieldImmJ w)
  | .immB => .immB (fieldImmB w)
  | .csrImm => .zimm (fieldZimm w)

end Sys2Proof.Machine
end

