-- ==== Sys2Proof/Machine/Alu.lean ====
section
/-! DEFINITION. Arithmetic and logic instructions (spec 41_alu.md): the ALU, its class handler, and the
meaning of each of the 21 instructions. -/

namespace Sys2Proof.Machine

/-- The shift amount `b[4:0]` (R141). -/
def shiftAmount (b : Word) : Nat := (b.extractLsb' 0 5).toNat

/-- `ALU(op, a, b)` (R142-R149). -/
def alu (op : AluOp) (a b : Word) : Word :=
  match op with
  | .add => a + b
  | .sub => a - b
  | .sll => a <<< shiftAmount b
  | .srl => a >>> shiftAmount b
  | .sra => a.sshiftRight (shiftAmount b)
  | .slt => truthWord (signedLess a b)
  | .sltu => truthWord (unsignedLess a b)
  | .and => a &&& b
  | .or => a ||| b
  | .xor => a ^^^ b

/-- The ALU class handler (R140): both operands are read, the result goes to rd, pc advances by 4. -/
def aluStep (op : AluOp) (rd : Reg) (a b : Operand) (s : State) : Result :=
  .next (s.writeRd rd (alu op (a.value s) (b.value s))).advance

/-- LUI (R150): `x[rd] <- immU`. -/
def execLui (rd : Reg) (imm : BitVec 20) (s : State) : Result :=
  aluStep .add rd .none (.immU imm) s

/-- AUIPC (R151): `x[rd] <- pc + immU`. -/
def execAuipc (rd : Reg) (imm : BitVec 20) (s : State) : Result :=
  aluStep .add rd .pc (.immU imm) s

/-- ADDI (R152). -/
def execAddi (rd rs1 : Reg) (imm : BitVec 12) (s : State) : Result :=
  aluStep .add rd (.reg rs1) (.immI imm) s

/-- SLTI (R153). -/
def execSlti (rd rs1 : Reg) (imm : BitVec 12) (s : State) : Result :=
  aluStep .slt rd (.reg rs1) (.immI imm) s

/-- SLTIU (R154). -/
def execSltiu (rd rs1 : Reg) (imm : BitVec 12) (s : State) : Result :=
  aluStep .sltu rd (.reg rs1) (.immI imm) s

/-- XORI (R155). -/
def execXori (rd rs1 : Reg) (imm : BitVec 12) (s : State) : Result :=
  aluStep .xor rd (.reg rs1) (.immI imm) s

/-- ORI (R156). -/
def execOri (rd rs1 : Reg) (imm : BitVec 12) (s : State) : Result :=
  aluStep .or rd (.reg rs1) (.immI imm) s

/-- ANDI (R157). -/
def execAndi (rd rs1 : Reg) (imm : BitVec 12) (s : State) : Result :=
  aluStep .and rd (.reg rs1) (.immI imm) s

/-- SLLI (R158): the I-immediate is `shamt`. -/
def execSlli (rd rs1 : Reg) (shamt : BitVec 5) (s : State) : Result :=
  aluStep .sll rd (.reg rs1) (.immI (0x00#7 ++ shamt)) s

/-- SRLI (R159): the I-immediate is `shamt`. -/
def execSrli (rd rs1 : Reg) (shamt : BitVec 5) (s : State) : Result :=
  aluStep .srl rd (.reg rs1) (.immI (0x00#7 ++ shamt)) s

/-- SRAI (R160): the I-immediate is `0x400 | shamt`; the 5-bit mask removes bit 10 (30_encoding.md R89). -/
def execSrai (rd rs1 : Reg) (shamt : BitVec 5) (s : State) : Result :=
  aluStep .sra rd (.reg rs1) (.immI (0x20#7 ++ shamt)) s

/-- ADD (R161). -/
def execAdd (rd rs1 rs2 : Reg) (s : State) : Result :=
  aluStep .add rd (.reg rs1) (.reg rs2) s

/-- SUB (R162). -/
def execSub (rd rs1 rs2 : Reg) (s : State) : Result :=
  aluStep .sub rd (.reg rs1) (.reg rs2) s

/-- SLL (R163). -/
def execSll (rd rs1 rs2 : Reg) (s : State) : Result :=
  aluStep .sll rd (.reg rs1) (.reg rs2) s

/-- SLT (R164). -/
def execSlt (rd rs1 rs2 : Reg) (s : State) : Result :=
  aluStep .slt rd (.reg rs1) (.reg rs2) s

/-- SLTU (R165). -/
def execSltu (rd rs1 rs2 : Reg) (s : State) : Result :=
  aluStep .sltu rd (.reg rs1) (.reg rs2) s

/-- XOR (R166). -/
def execXor (rd rs1 rs2 : Reg) (s : State) : Result :=
  aluStep .xor rd (.reg rs1) (.reg rs2) s

/-- SRL (R167). -/
def execSrl (rd rs1 rs2 : Reg) (s : State) : Result :=
  aluStep .srl rd (.reg rs1) (.reg rs2) s

/-- SRA (R168). -/
def execSra (rd rs1 rs2 : Reg) (s : State) : Result :=
  aluStep .sra rd (.reg rs1) (.reg rs2) s

/-- OR (R169). -/
def execOr (rd rs1 rs2 : Reg) (s : State) : Result :=
  aluStep .or rd (.reg rs1) (.reg rs2) s

/-- AND (R170). -/
def execAnd (rd rs1 rs2 : Reg) (s : State) : Result :=
  aluStep .and rd (.reg rs1) (.reg rs2) s

end Sys2Proof.Machine
end

