-- ==== Sys2Proof/Machine/Control.lean ====
section
/-! DEFINITION. Control transfer (spec 43_control.md): the class handler and the meaning of each of the
eight instructions. -/

namespace Sys2Proof.Machine

/-- The link write of JAL and JALR: the return address `pc + 4` (R210). -/
def linkTo (link : Option Reg) (s : State) : State :=
  match link with
  | some rd => s.writeRd rd (s.pc + 4#32)
  | none => s

/-- The CTRL class handler (R210): the link write, then COMPLETION when the target is the instruction's own
address, else the jump. -/
def transfer (link : Option Reg) (target : Word) (s : State) : Result :=
  if target = s.pc then .next (raise .completion (linkTo link s))
  else .next ((linkTo link s).setPc target)

/-- The target of a branch (R213). -/
def branchTarget (c : Cond) (rs1 rs2 : Reg) (off : BitVec 13) (s : State) : Word :=
  if condHolds c (s.readReg rs1) (s.readReg rs2) then s.pc + immB off else s.pc + 4#32

/-- A branch (R213): no link write. -/
def branchStep (c : Cond) (rs1 rs2 : Reg) (off : BitVec 13) (s : State) : Result :=
  transfer none (branchTarget c rs1 rs2 off s) s

/-- JAL (R211). -/
def execJal (rd : Reg) (off : BitVec 21) (s : State) : Result :=
  transfer (some rd) (s.pc + immJ off) s

/-- JALR (R212): bit 0 of the target is cleared. -/
def execJalr (rd rs1 : Reg) (imm : BitVec 12) (s : State) : Result :=
  transfer (some rd) ((s.readReg rs1 + immI imm) &&& 0xFFFFFFFE#32) s

/-- BEQ (R214). -/
def execBeq (rs1 rs2 : Reg) (off : BitVec 13) (s : State) : Result :=
  branchStep .eq rs1 rs2 off s

/-- BNE (R215). -/
def execBne (rs1 rs2 : Reg) (off : BitVec 13) (s : State) : Result :=
  branchStep .ne rs1 rs2 off s

/-- BLT (R216). -/
def execBlt (rs1 rs2 : Reg) (off : BitVec 13) (s : State) : Result :=
  branchStep .lt rs1 rs2 off s

/-- BGE (R217). -/
def execBge (rs1 rs2 : Reg) (off : BitVec 13) (s : State) : Result :=
  branchStep .ge rs1 rs2 off s

/-- BLTU (R218). -/
def execBltu (rs1 rs2 : Reg) (off : BitVec 13) (s : State) : Result :=
  branchStep .ltu rs1 rs2 off s

/-- BGEU (R219). -/
def execBgeu (rs1 rs2 : Reg) (off : BitVec 13) (s : State) : Result :=
  branchStep .geu rs1 rs2 off s

end Sys2Proof.Machine
end

