-- ==== Sys2Proof/Machine/LoadStore.lean ====
section
/-! DEFINITION. Loads and stores (spec 42_memory_access.md): the memory-access sequencer and the meaning of
each of the eight instructions. -/

namespace Sys2Proof.Machine

/-- The width in bytes. No row has width `none` or `double` in the MEM class (20_memory.md R62). -/
def widthBytes : Width → Nat
  | .none => 0
  | .byte => 1
  | .byteU => 1
  | .half => 2
  | .halfU => 2
  | .word => 4
  | .double => 8

/-- The access asks for bytes beyond its aligned word (R184). -/
def crosses (width : Width) (r : Nat) : Bool := decide (4 < r + widthBytes width)

/-- Extraction from the shifted word (R185). -/
def extractLane (width : Width) (t : Word) : Word :=
  match width with
  | .byte => (t.extractLsb' 0 8).signExtend 32
  | .byteU => (t.extractLsb' 0 8).setWidth 32
  | .half => (t.extractLsb' 0 16).signExtend 32
  | .halfU => (t.extractLsb' 0 16).setWidth 32
  | .none => t
  | .word => t
  | .double => t

/-- The load sequence in the order of R198 (R181-R186): probe the chain, apply the crossing policy, write
rd, advance pc. A crossing access under `Truncate` reads 0 beyond the word (R186). -/
def loadAt (width : Width) (rd : Reg) (ea : Word) (s : State) : Result :=
  match regionRead (loadChain s.cfg) s.mem (alignDown ea) with
  | none => .next (raise .dmemError s)
  | some w =>
    if crosses width (remainder ea) && s.cfg.crossingLoad == .illegal then
      .next (raise .illegalInst s)
    else
      .next (s.writeRd rd (extractLane width (laneShift w (remainder ea)))).advance

/-- The store sequence in the order of R198 (R181, R192-R194): a read-modify-write of one aligned word. -/
def storeAt (width : Width) (v : Word) (ea : Word) (s : State) : Result :=
  match regionRead (storeChain s.cfg) s.mem (alignDown ea) with
  | none => .next (raise .dmemError s)
  | some old =>
    if crosses width (remainder ea) && s.cfg.crossingStore == .illegal then
      .next (raise .illegalInst s)
    else
      match regionWrite (storeChain s.cfg) s.mem (alignDown ea)
          (merge old v (widthBytes width) (remainder ea)) with
      | none => .next (raise .dmemError s)
      | some m => .next (s.setMem m).advance

/-- LB (R187). -/
def execLb (rd rs1 : Reg) (imm : BitVec 12) (s : State) : Result :=
  loadAt .byte rd (s.readReg rs1 + immI imm) s

/-- LH (R188). -/
def execLh (rd rs1 : Reg) (imm : BitVec 12) (s : State) : Result :=
  loadAt .half rd (s.readReg rs1 + immI imm) s

/-- LW (R189). -/
def execLw (rd rs1 : Reg) (imm : BitVec 12) (s : State) : Result :=
  loadAt .word rd (s.readReg rs1 + immI imm) s

/-- LBU (R190). -/
def execLbu (rd rs1 : Reg) (imm : BitVec 12) (s : State) : Result :=
  loadAt .byteU rd (s.readReg rs1 + immI imm) s

/-- LHU (R191). -/
def execLhu (rd rs1 : Reg) (imm : BitVec 12) (s : State) : Result :=
  loadAt .halfU rd (s.readReg rs1 + immI imm) s

/-- SB (R195). -/
def execSb (rs1 rs2 : Reg) (imm : BitVec 12) (s : State) : Result :=
  storeAt .byte (s.readReg rs2) (s.readReg rs1 + immS imm) s

/-- SH (R196). -/
def execSh (rs1 rs2 : Reg) (imm : BitVec 12) (s : State) : Result :=
  storeAt .half (s.readReg rs2) (s.readReg rs1 + immS imm) s

/-- SW (R197). -/
def execSw (rs1 rs2 : Reg) (imm : BitVec 12) (s : State) : Result :=
  storeAt .word (s.readReg rs2) (s.readReg rs1 + immS imm) s

end Sys2Proof.Machine
end

