-- ==== Sys2Proof/Machine/Syscall.lean ====
section
/-! DEFINITION. The syscall bridge (spec 45_syscalls.md), which runs inside the ECALL step. -/

namespace Sys2Proof.Machine

/-- The seven allowlisted syscalls (R261). -/
inductive Service where
  | fstat | brk | write | close | exit | read | lseek
deriving DecidableEq, Repr

/-- The service of a number; `none` where it is not on the allowlist (R261, R266). -/
def serviceOf (n : SysNums) (a7 : Word) : Option Service :=
  if a7 = n.fstat then some .fstat
  else if a7 = n.brk then some .brk
  else if a7 = n.write then some .write
  else if a7 = n.close then some .close
  else if a7 = n.exit then some .exit
  else if a7 = n.read then some .read
  else if a7 = n.lseek then some .lseek
  else none

/-- What the bridge answers: the three results of R264, the refusal mark of `SYSCALL_MEM_FAIL = Refuse`
(R265), and the wait of the read syscall (R263). -/
inductive BridgeResult where
  | ok (s : State)
  | error (s : State)
  | exited (s : State)
  | refuse (s : State)
  | wait
deriving Repr

/-- `SYSCALL_MEM_FAIL`: an access the bridge needs found no region (R265). None of the syscall's effects
happen (40_engine.md R117; log 12). -/
def memFail (s : State) : BridgeResult :=
  match s.cfg.syscallMemFail with
  | .refuse => .refuse s
  | .error => .error s

/-- brk (R270): a0 gets `HEAP_START` for a nonzero a0 and a draw for 0; the entry of the key register's value
gets a draw. `HEAP_SIZE` is used by no rule. -/
def sysBrk (s : State) : State :=
  ((s.setReg regA0
      (if s.readReg regA0 = 0#32 then Config.freeBrkResult s.draws else s.cfg.heapStart)).writeBrk
    (s.readReg s.cfg.brkKeyReg) (Config.freeBrkValue s.draws)).countDraw

/-- The bytes of a buffer with the words they were read from (R271): byte lanes of aligned words read through
`SYSCALL_CHAIN`; `none` when an access finds no region. -/
def gatherBytes (c : Config) (m : Memory) : Word → Nat → Option (List (Word × Byte))
  | _, 0 => some []
  | a, n + 1 =>
    match regionRead (syscallChain c) m (alignDown a) with
    | none => none
    | some w =>
      match gatherBytes c m (a + 1#32) n with
      | none => none
      | some rest => some ((w, (laneShift w (remainder a)).extractLsb' 0 8) :: rest)

/-- The bytes a write emits: a draw when a word read is the sentinel (R272). -/
def emittedBytes (c : Config) (draws : Nat) (got : List (Word × Byte)) : List Byte :=
  if got.any (fun p => p.1 == c.writeSentinel) then Config.freeWriteOutput draws else got.map (·.2)

/-- write (R271): buf = a1, count = a2; the file descriptor is not checked; a0 is a draw. -/
def sysWrite (s : State) : BridgeResult :=
  match gatherBytes s.cfg s.mem (s.readReg regA1) (s.readReg regA2).toNat with
  | none => memFail s
  | some got =>
    .ok ((s.emit (emittedBytes s.cfg s.draws got)).setReg regA0
      (Config.freeWriteResult s.draws)).countDraw

/-- The line the bridge packs: `L` of R273 under `READ_LINE_FORMAT` (log 16). DESIGN CHOICE (log 32): the
newline that the format may keep is the one byte 0x0A; the spec gives it no value. -/
def formatLine (f : ReadLineFormat) (count : Nat) (line : List Byte) : List Byte :=
  let l := if f.keepNewline then line ++ [0x0A#8] else line
  if f.enforceCount then l.take count else l

/-- Store bytes at rising addresses from `a` on, each by a read-modify-write of its aligned word through
`SYSCALL_CHAIN` (R265, R273); `none` when an access finds no region. -/
def scatterBytes (c : Config) : Memory → Word → List Byte → Option Memory
  | m, _, [] => some m
  | m, a, b :: bs =>
    match regionRead (syscallChain c) m (alignDown a) with
    | none => none
    | some old =>
      match regionWrite (syscallChain c) m (alignDown a)
          (merge old (b.setWidth 32) 1 (remainder a)) with
      | none => none
      | some m' => scatterBytes c m' (a + 1#32) bs

/-- a0 after read: the first character's code, a draw for an empty line (R273). -/
def readResult (draws : Nat) (l : List Byte) : Word :=
  match l with
  | [] => Config.freeReadResult draws
  | b :: _ => b.setWidth 32

/-- read (R273): takes one host line and packs it at buf = a1; waits when the host has supplied none (R263). -/
def sysRead (s : State) : BridgeResult :=
  match s.consoleIn with
  | [] => .wait
  | line :: _ =>
    let l := formatLine s.cfg.readLineFormat (s.readReg regA2).toNat line
    match scatterBytes s.cfg s.mem (s.readReg regA1)
        (l ++ s.cfg.readLineFormat.terminator.toList) with
    | none => memFail s
    | some m => .ok (((s.setMem m).dropLine).setReg regA0 (readResult s.draws l)).countDraw

/-- The syscall bridge (R260-R275). pc has been advanced already (44_csr_system.md R231). -/
def bridge (s : State) : BridgeResult :=
  match serviceOf s.cfg.sysNum (s.readReg regA7) with
  | none => .error s
  | some .fstat => .ok s
  | some .close => .ok s
  | some .lseek => .ok s
  | some .exit => .exited s
  | some .brk => .ok (sysBrk s)
  | some .write => sysWrite s
  | some .read => sysRead s

end Sys2Proof.Machine
end

