-- ==== Sys2Proof/Machine/System.lean ====
section
/-! DEFINITION. CSR and system instructions (spec 44_csr_system.md): the CSR access sequence and the meaning
of each of the nine instructions. -/

namespace Sys2Proof.Machine

/-- What a CSR instruction does to the CSR (R238): CSRRC and CSRRCI have no write operation (R243, R246). -/
inductive CsrOp where
  | write | set | clear
deriving DecidableEq, Repr

/-- The CSR access sequence (R234). The operand is read before rd is written (R235); an unbacked address is
illegal before any write (R236); CSRRC and CSRRCI write rd, then are illegal with the CSR and pc unchanged
(R243; 90_conflicts.md C4; log 20). -/
def csrAccess (op : CsrOp) (rd : Reg) (a : CsrAddr) (opd : Word) (s : State) : Result :=
  if csrBacked s.cfg a then
    match op with
    | .write => .next ((s.writeRd rd (s.readCsr a)).writeCsr a opd).advance
    | .set => .next ((s.writeRd rd (s.readCsr a)).writeCsr a (s.readCsr a ||| opd)).advance
    | .clear => .next (raise .illegalInst (s.writeRd rd (s.readCsr a)))
  else .next (raise .illegalInst s)

/-- FENCE (R230): pc advances and the run ends with FENCE; fm, pred, succ, rs1 and rd are ignored. -/
def execFence (_fm _pred _succ : BitVec 4) (_rs1 _rd : Reg) (s : State) : Result :=
  .next (raise .fence s.advance)

/-- ECALL (R231): pc advances, the bridge runs, its result is mapped to a code (45_syscalls.md R264). -/
def execEcall (s : State) : Result :=
  match bridge s.advance with
  | .ok t => .next t
  | .error t => .next (raise .osError t)
  | .exited t => .next (raise .completion t)
  | .refuse t => .next (markRefused t)
  | .wait => .fault .consoleInputWait

/-- EBREAK (R232): pc advances and the run ends with OS_ERROR. -/
def execEbreak (s : State) : Result := .next (raise .osError s.advance)

/-- CSRRW (R241). -/
def execCsrrw (rd : Reg) (csr : CsrAddr) (rs1 : Reg) (s : State) : Result :=
  csrAccess .write rd csr (s.readReg rs1) s

/-- CSRRS (R242). -/
def execCsrrs (rd : Reg) (csr : CsrAddr) (rs1 : Reg) (s : State) : Result :=
  csrAccess .set rd csr (s.readReg rs1) s

/-- CSRRC (R243). -/
def execCsrrc (rd : Reg) (csr : CsrAddr) (rs1 : Reg) (s : State) : Result :=
  csrAccess .clear rd csr (s.readReg rs1) s

/-- CSRRWI (R244). -/
def execCsrrwi (rd : Reg) (csr : CsrAddr) (z : BitVec 5) (s : State) : Result :=
  csrAccess .write rd csr (zimm z) s

/-- CSRRSI (R245). -/
def execCsrrsi (rd : Reg) (csr : CsrAddr) (z : BitVec 5) (s : State) : Result :=
  csrAccess .set rd csr (zimm z) s

/-- CSRRCI (R246). -/
def execCsrrci (rd : Reg) (csr : CsrAddr) (z : BitVec 5) (s : State) : Result :=
  csrAccess .clear rd csr (zimm z) s

end Sys2Proof.Machine
end

