-- ==== Sys2Proof/Machine/Engine.lean ====
section
/-! DEFINITION. The engine around the class handlers (spec 40_engine.md): fetch, decode under the machine's
configuration, the counters and the trace record, and one step as a function of the dispatcher. -/

namespace Sys2Proof.Machine

/-- What a fetch answers. -/
inductive Fetched where
  | word (w : Word)
  | imemError
  | refuse
deriving DecidableEq, Repr

/-- Read the word at an aligned address through `FETCH_CHAIN` (R111). -/
def fetchAt (s : State) (a : Word) : Fetched :=
  match regionRead (fetchChain s.cfg s.vmFetch) s.mem a with
  | some w => .word w
  | none => .imemError

/-- Fetch at pc (R111); at a pc that is no multiple of 4, `MISALIGNED_FETCH` (R112; log 7). -/
def fetch (s : State) : Fetched :=
  if remainder s.pc = 0 then fetchAt s s.pc
  else
    match s.cfg.misalignedFetch with
    | .refuse => .refuse
    | .enclosingWord => fetchAt s (alignDown s.pc)
    | .imemError => .imemError

/-- The word is a FENCE under `FENCE_MATCH` (30_encoding.md R94). -/
def fenceMatches (c : Config) (w : Word) : Bool := w &&& c.fenceMatch.mask == c.fenceMatch.value

/-- The instruction a word stands for on this machine; `none` is "unmapped" (R113, R114). A narrower
`FENCE_MATCH` turns the other words of the FENCE row illegal (92_eei_decisions.md D11; log 10). -/
def instrAt (c : Config) (w : Word) : Option Instr :=
  match decode w with
  | .error _ => none
  | .ok i => if rowOf i = Row.fence && !fenceMatches c w then none else some i

/-- Add 1 to the counter of a class, modulo 2^32 (00_scope.md R11; log 31). -/
def ClassCounts.bump (n : ClassCounts) : ExecClass → ClassCounts
  | .alu => { n with alu := n.alu + 1#32 }
  | .mem => { n with mem := n.mem + 1#32 }
  | .ctrl => { n with ctrl := n.ctrl + 1#32 }
  | .csr => { n with csr := n.csr + 1#32 }

/-- What a step that reached dispatch adds to its handler's effect: the counters (R124) and the trace record
(R125); the write-back latch is emptied (logs 18, 19). -/
def retire (pc w : Word) (cls : ExecClass) (t : State) : State :=
  { t with
    cycles := t.cycles + 1#32
    counts := t.counts.bump cls
    trace := t.trace ++ [⟨pc, w, t.wb.map (·.rd), t.wb.map (·.value), t.pc⟩]
    wb := none }

/-- One step (R110-R119), with the dispatcher as an argument: `step` passes `exec`. -/
def stepWith (dispatch : Instr → State → Result) (s : State) : Result :=
  if s.status ≠ .noException then .fault .halted
  else if s.refused then .refused .refusedState
  else
    match fetch s with
    | .refuse => .next (markRefused s)
    | .imemError => .next (raise .imemError s)
    | .word w =>
      match instrAt s.cfg w with
      | none => .next (raise .illegalInst s)
      | some i => mapNext (retire s.pc w i.cls) (dispatch i s)

/-- Place a table word where the next step fetches: at pc, with `status` NONE and `refused` false, as a step
requires (R110). Bits of `w` above `nbits` are 0 (log 6). -/
def placeWord (s : State) (nbits w : Nat) : State :=
  { s with
    mem := s.mem.writeWord s.pc.toNat (BitVec.ofNat 32 (w % 2 ^ nbits))
    status := .noException
    refused := false }

end Sys2Proof.Machine
end

