-- ==== Sys2Proof/Machine/Handlers.lean ====
section
/-! DEFINITION. The class handlers as the source has them, driven by the decode record of a row and the
instruction word (spec 40_engine.md R115): a second reading of the spec, which the meaning of each
instruction is stated to agree with. -/

namespace Sys2Proof.Machine

/-- The ALU class handler (41_alu.md R140). -/
def aluHandler (row : Row) (w : Word) (s : State) : Result :=
  match row.op with
  | .alu op => aluStep op (fieldRd w) (operand1 row.op1 w) (operand2 row.op2 w) s
  | _ => .next (raise .illegalInst s)

/-- The MEM class handler (42_memory_access.md R180, R181). -/
def memHandler (row : Row) (w : Word) (s : State) : Result :=
  let ea := (operand1 row.op1 w).value s + (operand2 row.op2 w).value s
  match row.op with
  | .load => loadAt row.width (fieldRd w) ea s
  | .store => storeAt row.width (s.readReg (fieldRs2 w)) ea s
  | _ => .next (raise .illegalInst s)

/-- The CTRL class handler (43_control.md R210): the J row jumps to the sum of its operands, the I row to
the sum with bit 0 cleared, a branch compares its operands. -/
def ctrlHandler (row : Row) (w : Word) (s : State) : Result :=
  let a := (operand1 row.op1 w).value s
  let b := (operand2 row.op2 w).value s
  match row.op, row.format with
  | .target, .J => transfer (some (fieldRd w)) (a + b) s
  | .target, .I => transfer (some (fieldRd w)) ((a + b) &&& 0xFFFFFFFE#32) s
  | .cond c, .B =>
    transfer none (if condHolds c a b then s.pc + immB (fieldImmB w) else s.pc + 4#32) s
  | _, _ => .next (raise .illegalInst s)

/-- The CSR/system handler (44_csr_system.md R233): FENCE, ECALL and EBREAK are tested first, every other
word of the class is a CSR access (R234). -/
def csrHandler (row : Row) (w : Word) (s : State) : Result :=
  if Row.fence.selects w then .next (raise .fence s.advance)
  else if w = Row.ecall.value then execEcall s
  else if w = Row.ebreak.value then .next (raise .osError s.advance)
  else
    let opd := (operand1 row.op1 w).value s
    match row.op with
    | .csrWrite => csrAccess .write (fieldRd w) (fieldCsr w) opd s
    | .csrSet => csrAccess .set (fieldRd w) (fieldCsr w) opd s
    | _ => csrAccess .clear (fieldRd w) (fieldCsr w) opd s

/-- Dispatch by the class of the row (40_engine.md R115). -/
def handle (row : Row) (w : Word) (s : State) : Result :=
  match row.cls with
  | .alu => aluHandler row w s
  | .mem => memHandler row w s
  | .ctrl => ctrlHandler row w s
  | .csr => csrHandler row w s

end Sys2Proof.Machine
end

