-- ==== Sys2Proof/Machine/RunLoop.lean ====
section
/-! DEFINITION. What the host does with the machine (spec 40_engine.md R120-R123, 70_reset_and_hazards.md
R330-R337): construct it, run it, boot it in two phases, supply console lines. -/

namespace Sys2Proof.Machine

/-- What the loader supplies (70_reset_and_hazards.md R334): the images of IMEM and DMEM, of VM-only regions
by address (10_state.md R43), the initial register file and the entry point. -/
structure Launch where
  imemImage : List Byte
  dmemImage : List Byte
  vmImages : List (Nat × List Byte)
  regs : Vector Word 32
  entryPc : Word
deriving DecidableEq, Repr

/-- The launch input in which the loader supplies nothing. -/
def Launch.empty : Launch := ⟨[], [], [], Vector.replicate 32 0#32, 0#32⟩

/-- Memory at launch: the boot ROM image and the loader's images (R330, R335). -/
def launchMemory (c : Config) (l : Launch) : Memory :=
  l.vmImages.foldl (fun m p => Memory.load m p.1 p.2)
    (Memory.load (Memory.load (Memory.load [] c.bootrom.base c.bootromImage) c.imem.base l.imemImage)
      c.dmem.base l.dmemImage)

/-- Machine construction (R330). pc and vm_fetch have no value until the first `run`; they stand at those of
the boot phase (log 2). -/
def construct (c : Config) (l : Launch) : State :=
  { State.reset with
    cfg := c
    regs := l.regs.set 0 0#32
    pc := c.resetPc
    csrs := c.csrReset
    mem := launchMemory c l }

/-- The host supplies a console line (45_syscalls.md R263). -/
def supplyLine (line : List Byte) (s : State) : State := { s with consoleIn := s.consoleIn ++ [line] }

/-- How a run stands after some steps (R123). -/
inductive RunEnd where
  /-- A step ended with a code that is not NONE (R120). -/
  | ended (s : State)
  /-- The read syscall waits for a line (70_reset_and_hazards.md R341). -/
  | waiting (s : State)
  /-- The refusal mark is set (10_state.md R42). -/
  | refused (s : State)
  /-- Still running after the given number of steps. -/
  | running (s : State)
deriving Repr

/-- The loop of `run` (R120), for at most `n` steps. -/
def runLoop : Nat → State → RunEnd
  | n, s =>
    if s.status ≠ .noException then .ended s
    else if s.refused then .refused s
    else
      match n with
      | 0 => .running s
      | k + 1 =>
        match step s with
        | .next t => runLoop k t
        | .fault _ => .waiting s
        | .refused _ => .refused s

/-- `run(start_pc, vm)` for at most `n` steps (70_reset_and_hazards.md R331). -/
def run (n : Nat) (startPc : Word) (vm : Bool) (s : State) : RunEnd := runLoop n (hostRun startPc vm s)

/-- What `run` returns to the host: `(status, pc)` (R121). -/
def runResult : RunEnd → Option (ExcCode × Word)
  | .ended s => some (s.status, s.pc)
  | .waiting _ => none
  | .refused _ => none
  | .running _ => none

/-- A single-run launch: `run(ENTRY_PC, vm = false)` (70_reset_and_hazards.md R337). -/
def singleRun (n : Nat) (c : Config) (l : Launch) : RunEnd := run n l.entryPc false (construct c l)

/-- The two-phase boot (70_reset_and_hazards.md R336): the user phase runs only if the boot phase ended with
FENCE, over the state the boot phase left. -/
def twoPhaseBoot (n : Nat) (s : State) : RunEnd :=
  match run n s.cfg.resetPc false s with
  | .ended t => if t.status = .fence then run n t.cfg.resetPc true t else .ended t
  | .waiting t => .waiting t
  | .refused t => .refused t
  | .running t => .running t

end Sys2Proof.Machine
end

