-- ==== Sys2Proof/Safety.lean ====
section
/-! DEFINITION. The terms statements use: what counts as a good end of a run, the invariant of the machine,
and the frames, what an instruction leaves unchanged. -/

namespace Sys2Proof.Machine

/-! ## Ends of a run -/

/-- FENCE and COMPLETION are a good end (spec 40_engine.md R121). -/
def ExcCode.benign (c : ExcCode) : Prop := c = .completion ∨ c = .fence

/-- IMEM_ERROR, DMEM_ERROR, ILLEGAL_INST and OS_ERROR are an error end (40_engine.md R121). -/
def ExcCode.isError (c : ExcCode) : Prop :=
  c = .imemError ∨ c = .dmemError ∨ c = .illegalInst ∨ c = .osError

/-- A halted machine that ended well; a state with `refused` set is never one (10_state.md R42). -/
def State.goodEnd (s : State) : Prop := s.status.benign ∧ s.refused = false

/-- The machine takes steps (40_engine.md R110). -/
def State.live (s : State) : Prop := s.status = .noException ∧ s.refused = false

/-- A run of at most `n` steps is safe: it ends in no error code and in no refusal. -/
def safeRun (n : Nat) (s : State) : Prop :=
  match runLoop n s with
  | .ended t => t.goodEnd
  | .refused _ => False
  | .waiting _ => True
  | .running _ => True

/-! ## The invariant -/

/-- What holds of every state a run reaches from a well-formed start. -/
structure State.Inv (s : State) : Prop where
  /-- The parameters satisfy the spec's conditions (20_memory.md R52). -/
  config : s.cfg.WellFormed
  /-- The cell of x0 holds 0 (10_state.md R21). -/
  zeroReg : s.regs[0] = 0#32
  /-- pc is even: targets are even and JALR clears bit 0 (10_state.md R26). -/
  pcEven : s.pc.getLsbD 0 = false
  /-- Memory is in canonical form. -/
  memCanonical : Memory.wf s.mem
  /-- Every listed byte lies in a region (20_memory.md R51). -/
  memBacked : ∀ c ∈ s.mem, ∃ r ∈ s.cfg.regions, r.base ≤ c.1 ∧ c.1 < r.base + r.size
  /-- The CSR file is in canonical form. -/
  csrsCanonical : Table.Wf 0#32 s.csrs
  /-- Only backed CSRs hold a value (10_state.md R29). -/
  csrsBacked : ∀ e ∈ s.csrs, ∃ a ∈ s.cfg.backedCsrs, a.toNat = e.1
  /-- The break table is in canonical form, its keys are words (10_state.md R38). -/
  brkCanonical : Table.Wf 0#32 s.brkTable
  brkKeys : ∀ e ∈ s.brkTable, e.1 < 2 ^ 32
  /-- `cycles` is the sum of the class counters, modulo 2^32 (40_engine.md R124; log 31). -/
  cyclesSum : s.cycles = s.counts.alu + s.counts.mem + s.counts.ctrl + s.counts.csr
  /-- One trace record per dispatched step, counted modulo 2^32 (40_engine.md R124, R125; log 31). -/
  traceLength : s.cycles = BitVec.ofNat 32 s.trace.length
  /-- The write-back latch is empty between steps (log 18). -/
  latchEmpty : s.wb = none

/-! ## Frames -/

/-- Every general register reads as before, but `rd`, which reads `v` unless it is x0. -/
def RegsUpdated (s t : State) (rd : Reg) (v : Word) : Prop :=
  ∀ r, t.readReg r = if r = rd ∧ r ≠ 0 then v else s.readReg r

/-- Every general register reads as before. -/
def SameRegs (s t : State) : Prop := ∀ r, t.readReg r = s.readReg r

/-- Every byte of memory reads as before. -/
def SameMemory (s t : State) : Prop := ∀ a, t.mem.read a = s.mem.read a

/-- Every CSR reads as before. -/
def SameCsrs (s t : State) : Prop := ∀ a, t.readCsr a = s.readCsr a

/-- Every CSR reads as before, but `a`, which reads `v`. -/
def CsrUpdated (s t : State) (a : CsrAddr) (v : Word) : Prop :=
  ∀ b, t.readCsr b = if b = a then v else s.readCsr b

/-- Every entry of the break table reads as before. -/
def SameBrk (s t : State) : Prop := ∀ k, t.readBrk k = s.readBrk k

/-- The parameters, the fetch mode, the refusal mark, the counters and the trace are as before. -/
def SameEngine (s t : State) : Prop :=
  t.cfg = s.cfg ∧ t.vmFetch = s.vmFetch ∧ t.refused = s.refused ∧ t.cycles = s.cycles
    ∧ t.counts = s.counts ∧ t.trace = s.trace

/-- The console ports and the count of draws are as before. -/
def SameConsole (s t : State) : Prop :=
  t.consoleIn = s.consoleIn ∧ t.consoleOut = s.consoleOut ∧ t.draws = s.draws

/-- Nothing but general registers, pc, status, CSRs and the write-back latch may differ. -/
def SameStores (s t : State) : Prop := SameMemory s t ∧ SameBrk s t ∧ SameEngine s t ∧ SameConsole s t

/-- The effect of an ALU instruction or a load: rd gets `v`, the write-back latch shows it, pc advances by 4,
nothing else changes (41_alu.md R140, 42_memory_access.md R185; 40_engine.md R125). -/
def WritesRd (s t : State) (rd : Reg) (v : Word) : Prop :=
  RegsUpdated s t rd v ∧ t.wb = some ⟨rd, v⟩ ∧ t.pc = s.pc + 4#32 ∧ t.status = s.status ∧ SameCsrs s t
    ∧ SameStores s t

/-- The effect of a jump or branch to `target`, the link register apart (43_control.md R210): pc is the target,
and the run ends with COMPLETION when the target is the instruction's own address. -/
def Jumps (s t : State) (target : Word) : Prop :=
  t.pc = target ∧ t.status = (if target = s.pc then .completion else s.status)
    ∧ SameCsrs s t ∧ SameStores s t

/-- The effect of a branch (43_control.md R213): to `pc + immB` when taken, else to `pc + 4`; no register is
written; COMPLETION exactly when it is taken with offset 0. -/
def Branches (s t : State) (taken : Bool) (off : BitVec 13) : Prop :=
  SameRegs s t ∧ t.wb = s.wb ∧ Jumps s t (if taken then s.pc + off.signExtend 32 else s.pc + 4#32)
    ∧ (s.status = .noException → (t.status = .completion ↔ taken = true ∧ off = 0#13))

/-- The effect of a CSR instruction that goes on: rd gets the old value, the CSR gets `v` (44_csr_system.md
R234). -/
def WritesCsr (s t : State) (rd : Reg) (a : CsrAddr) (v : Word) : Prop :=
  RegsUpdated s t rd (s.readCsr a) ∧ CsrUpdated s t a v ∧ t.wb = some ⟨rd, s.readCsr a⟩
    ∧ t.pc = s.pc + 4#32 ∧ t.status = s.status ∧ SameStores s t

/-- The effect of a store of the low `n` bytes of `v` at `ea` inside one word: those bytes change, nothing else
does but pc (42_memory_access.md R193). -/
def StoresBytes (s t : State) (ea : Word) (n : Nat) (v : Word) : Prop :=
  (∀ a : Nat, t.mem.read a =
    if ea.toNat ≤ a ∧ a < ea.toNat + n then byteOf v (a - ea.toNat) else s.mem.read a)
    ∧ SameRegs s t ∧ t.wb = s.wb ∧ t.pc = s.pc + 4#32 ∧ t.status = s.status ∧ SameCsrs s t ∧ SameBrk s t
    ∧ SameEngine s t ∧ SameConsole s t

/-- Memory bytes from `ea` on as a word of `n` bytes, the first the least significant (20_memory.md R59). -/
def littleEndian (m : Memory) (ea : Nat) : Nat → Nat
  | 0 => 0
  | n + 1 => (m.read ea).toNat + 256 * littleEndian m (ea + 1) n

/-- Some region of the chain contains the word that encloses the address (20_memory.md R55). -/
def Reaches (chain : List Region) (ea : Word) : Prop :=
  ∃ r ∈ chain, r.base ≤ 4 * (ea.toNat / 4) ∧ 4 * (ea.toNat / 4) < r.base + r.size

/-! ## Instructions by what they may touch -/

/-- The address and the number of bytes a load reads, before any check (42_memory_access.md R181). -/
def loadAccess (s : State) : Instr → Option (Word × Nat)
  | .lb _ rs1 imm | .lbu _ rs1 imm => some (s.readReg rs1 + imm.signExtend 32, 1)
  | .lh _ rs1 imm | .lhu _ rs1 imm => some (s.readReg rs1 + imm.signExtend 32, 2)
  | .lw _ rs1 imm => some (s.readReg rs1 + imm.signExtend 32, 4)
  | .lui .. | .auipc .. | .addi .. | .slti .. | .sltiu .. | .xori .. | .ori .. | .andi ..
  | .slli .. | .srli .. | .srai .. | .add .. | .sub .. | .sll .. | .slt .. | .sltu .. | .xor ..
  | .srl .. | .sra .. | .or .. | .and .. | .sb .. | .sh .. | .sw .. | .jal .. | .jalr .. | .beq ..
  | .bne .. | .blt .. | .bge .. | .bltu .. | .bgeu .. | .fence .. | .ecall | .ebreak | .csrrw ..
  | .csrrs .. | .csrrc .. | .csrrwi .. | .csrrsi .. | .csrrci .. => none

/-- The address and the number of bytes a store writes, before any check (42_memory_access.md R181, R192). -/
def storeAccess (s : State) : Instr → Option (Word × Nat)
  | .sb rs1 _ imm => some (s.readReg rs1 + imm.signExtend 32, 1)
  | .sh rs1 _ imm => some (s.readReg rs1 + imm.signExtend 32, 2)
  | .sw rs1 _ imm => some (s.readReg rs1 + imm.signExtend 32, 4)
  | .lui .. | .auipc .. | .addi .. | .slti .. | .sltiu .. | .xori .. | .ori .. | .andi ..
  | .slli .. | .srli .. | .srai .. | .add .. | .sub .. | .sll .. | .slt .. | .sltu .. | .xor ..
  | .srl .. | .sra .. | .or .. | .and .. | .lb .. | .lh .. | .lw .. | .lbu .. | .lhu .. | .jal ..
  | .jalr .. | .beq .. | .bne .. | .blt .. | .bge .. | .bltu .. | .bgeu .. | .fence .. | .ecall
  | .ebreak | .csrrw .. | .csrrs .. | .csrrc .. | .csrrwi .. | .csrrsi .. | .csrrci .. => none

/-- The CSR a CSR instruction names. -/
def csrOf : Instr → Option CsrAddr
  | .csrrw _ a _ | .csrrs _ a _ | .csrrc _ a _ | .csrrwi _ a _ | .csrrsi _ a _ | .csrrci _ a _ => some a
  | .lui .. | .auipc .. | .addi .. | .slti .. | .sltiu .. | .xori .. | .ori .. | .andi ..
  | .slli .. | .srli .. | .srai .. | .add .. | .sub .. | .sll .. | .slt .. | .sltu .. | .xor ..
  | .srl .. | .sra .. | .or .. | .and .. | .lb .. | .lh .. | .lw .. | .lbu .. | .lhu .. | .sb ..
  | .sh .. | .sw .. | .jal .. | .jalr .. | .beq .. | .bne .. | .blt .. | .bge .. | .bltu ..
  | .bgeu .. | .fence .. | .ecall | .ebreak => none

/-- An access of `n` bytes asks for bytes beyond its aligned word (42_memory_access.md R184). -/
def Crossing (ea : Word) (n : Nat) : Prop := 4 < ea.toNat % 4 + n

/-- The instruction is a CSR access, one of the six CSR instructions (10_state.md R33). -/
def isCsrAccess (i : Instr) : Bool := (csrOf i).isSome

/-- The destination register of the instruction's encoding (10_state.md R23). -/
def destRd : Instr → Option Reg
  | .lui rd _ | .auipc rd _ | .jal rd _ => some rd
  | .addi rd _ _ | .slti rd _ _ | .sltiu rd _ _ | .xori rd _ _ | .ori rd _ _ | .andi rd _ _
  | .slli rd _ _ | .srli rd _ _ | .srai rd _ _ | .add rd _ _ | .sub rd _ _ | .sll rd _ _
  | .slt rd _ _ | .sltu rd _ _ | .xor rd _ _ | .srl rd _ _ | .sra rd _ _ | .or rd _ _
  | .and rd _ _ | .lb rd _ _ | .lh rd _ _ | .lw rd _ _ | .lbu rd _ _ | .lhu rd _ _
  | .jalr rd _ _ | .csrrw rd _ _ | .csrrs rd _ _ | .csrrc rd _ _ | .csrrwi rd _ _
  | .csrrsi rd _ _ | .csrrci rd _ _ => some rd
  | .sb .. | .sh .. | .sw .. | .beq .. | .bne .. | .blt .. | .bge .. | .bltu .. | .bgeu ..
  | .fence .. | .ecall | .ebreak => none

/-- The instruction with `q` for the destination register of its encoding; itself where it has none. -/
def withRd (q : Reg) : Instr → Instr
  | .lui _ imm => .lui q imm
  | .auipc _ imm => .auipc q imm
  | .jal _ off => .jal q off
  | .addi _ a b => .addi q a b
  | .slti _ a b => .slti q a b
  | .sltiu _ a b => .sltiu q a b
  | .xori _ a b => .xori q a b
  | .ori _ a b => .ori q a b
  | .andi _ a b => .andi q a b
  | .slli _ a b => .slli q a b
  | .srli _ a b => .srli q a b
  | .srai _ a b => .srai q a b
  | .add _ a b => .add q a b
  | .sub _ a b => .sub q a b
  | .sll _ a b => .sll q a b
  | .slt _ a b => .slt q a b
  | .sltu _ a b => .sltu q a b
  | .xor _ a b => .xor q a b
  | .srl _ a b => .srl q a b
  | .sra _ a b => .sra q a b
  | .or _ a b => .or q a b
  | .and _ a b => .and q a b
  | .lb _ a b => .lb q a b
  | .lh _ a b => .lh q a b
  | .lw _ a b => .lw q a b
  | .lbu _ a b => .lbu q a b
  | .lhu _ a b => .lhu q a b
  | .jalr _ a b => .jalr q a b
  | .csrrw _ a b => .csrrw q a b
  | .csrrs _ a b => .csrrs q a b
  | .csrrc _ a b => .csrrc q a b
  | .csrrwi _ a b => .csrrwi q a b
  | .csrrsi _ a b => .csrrsi q a b
  | .csrrci _ a b => .csrrci q a b
  | .sb rs1 rs2 imm => .sb rs1 rs2 imm
  | .sh rs1 rs2 imm => .sh rs1 rs2 imm
  | .sw rs1 rs2 imm => .sw rs1 rs2 imm
  | .beq rs1 rs2 off => .beq rs1 rs2 off
  | .bne rs1 rs2 off => .bne rs1 rs2 off
  | .blt rs1 rs2 off => .blt rs1 rs2 off
  | .bge rs1 rs2 off => .bge rs1 rs2 off
  | .bltu rs1 rs2 off => .bltu rs1 rs2 off
  | .bgeu rs1 rs2 off => .bgeu rs1 rs2 off
  | .fence fm pred succ rs1 rd => .fence fm pred succ rs1 rd
  | .ecall => .ecall
  | .ebreak => .ebreak

/-- CSRRC and CSRRCI, which have no write operation (44_csr_system.md R243, R246). -/
def IsCsrClear (i : Instr) : Prop := rowOf i = Row.csrrc ∨ rowOf i = Row.csrrci

/-- The instruction ends before it writes its `rd`: a load that no region answers, a crossing load under
`Illegal`, a CSR access to an address that is not backed (40_engine.md R117; log 19). `code` is the code the
step ends with. -/
def EndsBeforeRd (s : State) (i : Instr) (code : ExcCode) : Prop :=
  code = .dmemError
    ∨ (code = .illegalInst ∧ ¬ (IsCsrClear i ∧ ∃ a, csrOf i = some a ∧ a ∈ s.cfg.backedCsrs))

/-- The engine's outputs that no rule reads: counters, trace and console output, emptied
(10_state.md R40, 40_engine.md R124, R125, 45_syscalls.md R262). -/
def eraseOutputs (s : State) : State :=
  { s with cycles := 0#32, counts := ⟨0#32, 0#32, 0#32, 0#32⟩, trace := [], consoleOut := [] }

/-- The loader's images lie inside regions (70_reset_and_hazards.md R334). -/
def Launch.Fits (c : Config) (l : Launch) : Prop :=
  l.imemImage.length ≤ c.imem.size ∧ l.dmemImage.length ≤ c.dmem.size
    ∧ ∀ p ∈ l.vmImages, ∃ r ∈ c.regions, r.base ≤ p.1 ∧ p.1 + p.2.length ≤ r.base + r.size

end Sys2Proof.Machine
end

