-- ==== Sys2Proof/Certificates/Slice0/Obligations.lean ====
section
/-! DEFINITION. What is stated about the machine. Every statement holds for every configuration, every
launch input and every value of the draws, unless its hypotheses say otherwise; those hypotheses are met
by the witnesses of Sys2Proof/Tests/Slice0.lean. -/

open Sys2Proof Sys2Proof.Machine

/-! ## Encoding (30_encoding.md) -/

/-- Decoding the word, or the bytes, of an instruction that has an encoding gives it back (R82, R93). -/
def Obligations.DecodeOfEncode : Prop :=
  ∀ (i : Instr) (rest : List Byte), i.WellFormed →
    decode (encode i) = .ok i ∧ decodeBytes (bytesOfWord (encode i) ++ rest) = .ok (i, rest)

/-- A word that decodes stands for one well-formed instruction, whose encoding is that word: no bit is
dropped, the ignored fields of FENCE are kept (R90, R94; log 26). -/
def Obligations.EncodeOfDecode : Prop :=
  ∀ (w : Word) (i : Instr), decode w = .ok i → i.WellFormed ∧ encode i = w

/-- "No two rows can both match, because their fixed bits differ" (R90). -/
def Obligations.DecodeTableRowsAreDisjoint : Prop :=
  decodeTable.Pairwise (fun e f => ∀ w, ¬ (e.row.selects w = true ∧ f.row.selects w = true))

/-- A word of each format, written out from R82 and R92, decodes to the instruction it stands for. -/
def Obligations.SampleWordsDecode : Prop :=
  decode 0b00000000010100000000000010010011#32 = .ok (.addi 1 0 5)
    ∧ decode 0b01000000000100010101000110110011#32 = .ok (.sra 3 2 1)
    ∧ decode 0b11111110011100110010111000100011#32 = .ok (.sw 6 7 0xFFC)
    ∧ decode 0b11111110000000101001110011100011#32 = .ok (.bne 5 0 0x1FF8)
    ∧ decode 0b00010010001101000101001010110111#32 = .ok (.lui 5 0x12345)
    ∧ decode 0b11111111110111111111000011101111#32 = .ok (.jal 1 0x1FFFFC)
    ∧ decode 0b00110100000001001101001011110011#32 = .ok (.csrrwi 5 0x340 9)
    ∧ decode 0b00000000000000000000000001110011#32 = .ok .ecall

/-- Which words are instructions, by opcode, funct3 and funct7 (R92, R95); every other word is rejected
(R96): RVC, RV32M, AMO, FENCE.I, MRET, WFI, LD, SYSTEM with funct3 100 and the rest of R96's list. -/
def Obligations.DecodeAcceptsExactlyTheOpcodeMap : Prop :=
  ∀ w : Word,
    let op := w.toNat % 128
    let f3 := w.toNat / 2 ^ 12 % 8
    let f7 := w.toNat / 2 ^ 25
    (∃ i, decode w = .ok i) ↔
      op = 0x37 ∨ op = 0x17 ∨ op = 0x6F ∨ (op = 0x67 ∧ f3 = 0) ∨ (op = 0x63 ∧ f3 ≠ 2 ∧ f3 ≠ 3)
        ∨ (op = 0x03 ∧ f3 ≠ 3 ∧ f3 < 6) ∨ (op = 0x23 ∧ f3 < 3)
        ∨ (op = 0x13 ∧ (f3 = 1 → f7 = 0) ∧ (f3 = 5 → f7 = 0 ∨ f7 = 0x20))
        ∨ (op = 0x33 ∧ (f7 = 0 ∨ f7 = 0x20 ∧ (f3 = 0 ∨ f3 = 5)))
        ∨ (op = 0x0F ∧ f3 = 0) ∨ (op = 0x73 ∧ f3 ≠ 0 ∧ f3 ≠ 4)
        ∨ w = 0x00000073#32 ∨ w = 0x00100073#32

/-- The immediates as numbers, from the bits of the word (R83-R88). -/
def Obligations.ImmediatesAreAssembledFromTheWord : Prop :=
  ∀ w : Word,
    let bits := fun lo n => ((w.toNat / 2 ^ lo % 2 ^ n : Nat) : Int)
    (immI (fieldImmI w)).toInt = bits 20 11 - 2 ^ 11 * bits 31 1
      ∧ (immS (fieldImmS w)).toInt = bits 7 5 + 2 ^ 5 * bits 25 6 - 2 ^ 11 * bits 31 1
      ∧ (immB (fieldImmB w)).toInt
          = 2 * bits 8 4 + 2 ^ 5 * bits 25 6 + 2 ^ 11 * bits 7 1 - 2 ^ 12 * bits 31 1
      ∧ immU (fieldImmU w) = w &&& 0xFFFFF000#32
      ∧ (immJ (fieldImmJ w)).toInt
          = 2 * bits 21 10 + 2 ^ 11 * bits 20 1 + 2 ^ 12 * bits 12 8 - 2 ^ 20 * bits 31 1
      ∧ ((zimm (fieldZimm w)).toNat : Int) = bits 15 5

/-- The meanings written per instruction agree with the class handlers driven by the decode record and the
word (40_engine.md R115; R89, R93). -/
def Obligations.MeaningsAgreeWithTheClassHandlers : Prop :=
  ∀ (i : Instr) (s : State), i.WellFormed → exec i s = handle (rowOf i) (encode i) s

/-! ## The step (40_engine.md) -/

/-- When the bytes at an aligned, reachable pc decode to `i` and `i` is no FENCE word that `FENCE_MATCH`
leaves out, a step is the execution of `i`, the counters (modulo 2^32, log 31) and the trace
record added (R110-R119, R124, R125). -/
def Obligations.StepRunsTheDecodedInstruction : Prop :=
  ∀ (s : State) (i : Instr), s.live → s.pc.toNat % 4 = 0 →
    Reaches (if s.vmFetch then s.cfg.vmRegions else [s.cfg.imem, s.cfg.bootrom]) s.pc →
    decodeBytes [s.mem.read s.pc.toNat, s.mem.read (s.pc.toNat + 1), s.mem.read (s.pc.toNat + 2),
      s.mem.read (s.pc.toNat + 3)] = .ok (i, []) →
    (rowOf i = Row.fence → fenceMatches s.cfg (encode i) = true) →
    step s = mapNext (fun t =>
      { t with
        cycles := t.cycles + 1#32
        counts := t.counts.bump i.cls
        trace := t.trace ++ [⟨s.pc, encode i, t.wb.map (·.rd), t.wb.map (·.value), t.pc⟩]
        wb := none }) (exec i s)

/-- IMEM_ERROR: an aligned fetch reads the word at pc from the fetch chain, and where no region of the chain
holds pc the step raises IMEM_ERROR and nothing else changes (R111). -/
def Obligations.FetchReadsTheChainOrRaisesImemError : Prop :=
  ∀ s : State, s.live → s.pc.toNat % 4 = 0 →
    let chain := if s.vmFetch then s.cfg.vmRegions else [s.cfg.imem, s.cfg.bootrom]
    (Reaches chain s.pc → fetch s = .word (s.mem.readWord s.pc.toNat))
      ∧ (¬ Reaches chain s.pc → step s = .next { s with status := .imemError })

/-- A fetch at a pc that is no multiple of 4, under each value of `MISALIGNED_FETCH` (R112). The refusal mark
as a next state is the model's form (log 7). -/
def Obligations.MisalignedFetchFollowsItsParameter : Prop :=
  ∀ s : State, s.live → s.pc.toNat % 4 ≠ 0 →
    let chain := if s.vmFetch then s.cfg.vmRegions else [s.cfg.imem, s.cfg.bootrom]
    let w := s.mem.readWord (4 * (s.pc.toNat / 4))
    (s.cfg.misalignedFetch = .refuse → step s = .next { s with refused := true })
      ∧ (s.cfg.misalignedFetch = .imemError → step s = .next { s with status := .imemError })
      ∧ (s.cfg.misalignedFetch = .enclosingWord →
          (¬ Reaches chain s.pc → step s = .next { s with status := .imemError })
            ∧ (Reaches chain s.pc → ∀ i, instrAt s.cfg w = some i →
                step s = mapNext (retire s.pc w i.cls) (exec i s)))

/-- A word that matches no row raises ILLEGAL_INST and changes nothing else (R114). -/
def Obligations.UnmappedWordIsIllegal : Prop :=
  ∀ (s : State) (w : Word), s.live → fetch s = .word w → (∀ e ∈ decodeTable, e.row.selects w = false) →
    step s = .next { s with status := .illegalInst }

/-- A halted engine and a refused state take no step; a machine that runs is turned away by neither (R110,
R122; 10_state.md R42). -/
def Obligations.OnlyALiveMachineSteps : Prop :=
  ∀ s : State,
    (s.status ≠ .noException → step s = .fault .halted)
      ∧ (s.status = .noException → s.refused = true → step s = .refused .refusedState)
      ∧ (s.live → step s ≠ .fault .halted ∧ ∀ r, step s ≠ .refused r)

/-- The counters: a step that reaches dispatch adds 1 to `cycles` and to its class, a step that ends at fetch
or decode adds nothing (R124). The counters are 32-bit words that wrap, which the model reads from R11 (log 31). -/
def Obligations.CountersCountDispatchedSteps : Prop :=
  ∀ s t : State, step s = .next t →
    match fetch s with
    | .word w =>
      match instrAt s.cfg w with
      | some i =>
        t.cycles = s.cycles + 1#32
          ∧ t.counts.alu = s.counts.alu + (if i.cls = .alu then 1#32 else 0#32)
          ∧ t.counts.mem = s.counts.mem + (if i.cls = .mem then 1#32 else 0#32)
          ∧ t.counts.ctrl = s.counts.ctrl + (if i.cls = .ctrl then 1#32 else 0#32)
          ∧ t.counts.csr = s.counts.csr + (if i.cls = .csr then 1#32 else 0#32)
      | none => t.cycles = s.cycles ∧ t.counts = s.counts
    | _ => t.cycles = s.cycles ∧ t.counts = s.counts

/-- The trace: a dispatched step appends one record with its address, its word, rd and the value written, and
the pc after it (R125). rd is the encoding's destination where the instruction has one and wrote it, and absent
otherwise: it is absent for a load or CSR access that ends before its write, there for CSRRC and CSRRCI on a
backed CSR, and absent for ECALL, whose a0 the bridge writes (the model's reading, log 19). The value is the
one computed, for rd = 0 too: the value that the same instruction leaves in any other destination. -/
def Obligations.DispatchedStepsEmitOneTraceRecord : Prop :=
  ∀ (s t : State) (w : Word) (i : Instr), s.wb = none → fetch s = .word w → instrAt s.cfg w = some i →
    step s = .next t →
    ∃ (rd : Option Reg) (v : Option Word), t.trace = s.trace ++ [⟨s.pc, w, rd, v, t.pc⟩]
      ∧ t.wb = none ∧ (rd = none ↔ v = none)
      ∧ (EndsBeforeRd s i t.status → rd = none)
      ∧ (¬ EndsBeforeRd s i t.status → rd = destRd i)
      ∧ (rd ≠ none → ∀ q : Reg, q ≠ 0 → ∃ u, exec (withRd q i) s = .next u ∧ v = some (u.readReg q))

/-! ## Registers (10_state.md) -/

/-- x0 reads 0 and a write of it is dropped; any other register reads what was written, and no other
register changes (R21). -/
def Obligations.RegisterZeroIsHardwired : Prop :=
  ∀ (s : State) (r : Reg) (v : Word),
    s.setReg 0 v = s ∧ s.readReg 0 = 0#32
      ∧ ∀ q, (s.setReg r v).readReg q = if q = r ∧ q ≠ 0 then v else s.readReg q

/-- The registers an instruction may change: its `rd`, or a0 in ECALL's brk, read and write (R23; the write
syscall's a0 is a draw, 45_syscalls.md R271). -/
def Obligations.OnlyTheDestinationRegisterChanges : Prop :=
  ∀ (i : Instr) (s t : State), exec i s = .next t → ∀ r, t.readReg r ≠ s.readReg r →
    destRd i = some r
      ∨ (i = .ecall ∧ r = 10 ∧ (s.readReg 17 = s.cfg.sysNum.brk ∨ s.readReg 17 = s.cfg.sysNum.read
          ∨ s.readReg 17 = s.cfg.sysNum.write))

/-! ## Arithmetic and logic (41_alu.md) -/

/-- The ALU functions on the unsigned and signed readings of their operands (R141-R149). -/
def Obligations.AluComputesTheSpecFunctions : Prop :=
  ∀ a b : Word,
    let sh := b.toNat % 32
    (alu .add a b).toNat = (a.toNat + b.toNat) % 2 ^ 32
      ∧ ((alu .sub a b).toNat : Int) = ((a.toNat : Int) - b.toNat) % 2 ^ 32
      ∧ (alu .sll a b).toNat = a.toNat * 2 ^ sh % 2 ^ 32
      ∧ (alu .srl a b).toNat = a.toNat / 2 ^ sh
      ∧ ((alu .sra a b).toNat : Int) = a.toInt / 2 ^ sh % 2 ^ 32
      ∧ (alu .slt a b).toNat = (if a.toInt < b.toInt then 1 else 0)
      ∧ (alu .sltu a b).toNat = (if a.toNat < b.toNat then 1 else 0)
      ∧ (∀ k, (alu .and a b).getLsbD k = (a.getLsbD k && b.getLsbD k))
      ∧ (∀ k, (alu .or a b).getLsbD k = (a.getLsbD k || b.getLsbD k))
      ∧ (∀ k, (alu .xor a b).getLsbD k = (a.getLsbD k != b.getLsbD k))

/-- LUI and AUIPC: result, pc + 4, nothing else (R150, R151). The result of LUI is the word's upper 20 bits. -/
def Obligations.UpperImmediateInstructions : Prop :=
  ∀ (rd : Reg) (imm : BitVec 20) (s : State),
    (∃ t, exec (.lui rd imm) s = .next t ∧ WritesRd s t rd (encode (.lui rd imm) &&& 0xFFFFF000#32))
      ∧ (∃ t, exec (.auipc rd imm) s = .next t
          ∧ WritesRd s t rd (s.pc + (encode (.auipc rd imm) &&& 0xFFFFF000#32)))

/-- ADDI, SLTI, SLTIU, XORI, ORI and ANDI: result in rd from the old rs1 and the sign-extended immediate,
pc + 4, nothing else (R152-R157). -/
def Obligations.RegisterImmediateInstructions : Prop :=
  ∀ (rd rs1 : Reg) (imm : BitVec 12) (s : State),
    let a := s.readReg rs1
    let b : Word := imm.signExtend 32
    (∃ t, exec (.addi rd rs1 imm) s = .next t ∧ WritesRd s t rd (a + b))
      ∧ (∃ t, exec (.slti rd rs1 imm) s = .next t
          ∧ WritesRd s t rd (if a.toInt < imm.toInt then 1#32 else 0#32))
      ∧ (∃ t, exec (.sltiu rd rs1 imm) s = .next t
          ∧ WritesRd s t rd (if a.toNat < b.toNat then 1#32 else 0#32))
      ∧ (∃ t, exec (.xori rd rs1 imm) s = .next t ∧ WritesRd s t rd (a ^^^ b))
      ∧ (∃ t, exec (.ori rd rs1 imm) s = .next t ∧ WritesRd s t rd (a ||| b))
      ∧ (∃ t, exec (.andi rd rs1 imm) s = .next t ∧ WritesRd s t rd (a &&& b))

/-- SLLI, SRLI and SRAI shift by shamt (R158-R160). -/
def Obligations.ImmediateShiftInstructions : Prop :=
  ∀ (rd rs1 : Reg) (shamt : BitVec 5) (s : State),
    let a := s.readReg rs1
    (∃ t, exec (.slli rd rs1 shamt) s = .next t
        ∧ WritesRd s t rd (BitVec.ofNat 32 (a.toNat * 2 ^ shamt.toNat)))
      ∧ (∃ t, exec (.srli rd rs1 shamt) s = .next t
          ∧ WritesRd s t rd (BitVec.ofNat 32 (a.toNat / 2 ^ shamt.toNat)))
      ∧ (∃ t, exec (.srai rd rs1 shamt) s = .next t
          ∧ WritesRd s t rd (BitVec.ofInt 32 (a.toInt / 2 ^ shamt.toNat)))

/-- The ten register-register instructions: result in rd from the old rs1 and rs2, pc + 4, nothing else
(R161-R170). -/
def Obligations.RegisterRegisterInstructions : Prop :=
  ∀ (rd rs1 rs2 : Reg) (s : State),
    let a := s.readReg rs1
    let b := s.readReg rs2
    let sh := b.toNat % 32
    (∃ t, exec (.add rd rs1 rs2) s = .next t ∧ WritesRd s t rd (a + b))
      ∧ (∃ t, exec (.sub rd rs1 rs2) s = .next t ∧ WritesRd s t rd (a - b))
      ∧ (∃ t, exec (.sll rd rs1 rs2) s = .next t
          ∧ WritesRd s t rd (BitVec.ofNat 32 (a.toNat * 2 ^ sh)))
      ∧ (∃ t, exec (.slt rd rs1 rs2) s = .next t
          ∧ WritesRd s t rd (if a.toInt < b.toInt then 1#32 else 0#32))
      ∧ (∃ t, exec (.sltu rd rs1 rs2) s = .next t
          ∧ WritesRd s t rd (if a.toNat < b.toNat then 1#32 else 0#32))
      ∧ (∃ t, exec (.xor rd rs1 rs2) s = .next t ∧ WritesRd s t rd (a ^^^ b))
      ∧ (∃ t, exec (.srl rd rs1 rs2) s = .next t
          ∧ WritesRd s t rd (BitVec.ofNat 32 (a.toNat / 2 ^ sh)))
      ∧ (∃ t, exec (.sra rd rs1 rs2) s = .next t
          ∧ WritesRd s t rd (BitVec.ofInt 32 (a.toInt / 2 ^ sh)))
      ∧ (∃ t, exec (.or rd rs1 rs2) s = .next t ∧ WritesRd s t rd (a ||| b))
      ∧ (∃ t, exec (.and rd rs1 rs2) s = .next t ∧ WritesRd s t rd (a &&& b))

/-! ## Loads and stores (42_memory_access.md) -/

/-- A load whose bytes lie in one aligned word, at an address of the load chain: the little-endian bytes at
EA, extended; pc + 4; nothing else (R181-R185). LB and LBU have every remainder, LH and LHU 0 to 2, LW 0. -/
def Obligations.LoadsWithinAWordAreExact : Prop :=
  ∀ (rd rs1 : Reg) (imm : BitVec 12) (s : State),
    let ea : Word := s.readReg rs1 + imm.signExtend 32
    let r := ea.toNat % 4
    let bytes := littleEndian s.mem ea.toNat
    Reaches ([s.cfg.dmem] ++ s.cfg.vmRegions ++ [s.cfg.bootrom, s.cfg.imem]) ea →
      (∃ t, exec (.lb rd rs1 imm) s = .next t
          ∧ WritesRd s t rd ((BitVec.ofNat 8 (bytes 1)).signExtend 32))
        ∧ (∃ t, exec (.lbu rd rs1 imm) s = .next t ∧ WritesRd s t rd (BitVec.ofNat 32 (bytes 1)))
        ∧ (r ≤ 2 → ∃ t, exec (.lh rd rs1 imm) s = .next t
            ∧ WritesRd s t rd ((BitVec.ofNat 16 (bytes 2)).signExtend 32))
        ∧ (r ≤ 2 → ∃ t, exec (.lhu rd rs1 imm) s = .next t
            ∧ WritesRd s t rd (BitVec.ofNat 32 (bytes 2)))
        ∧ (r = 0 → ∃ t, exec (.lw rd rs1 imm) s = .next t
            ∧ WritesRd s t rd (BitVec.ofNat 32 (bytes 4)))

/-- Crossing loads under each value of `CROSSING_LOAD`: the bytes up to the end of the word, zero-extended, or
ILLEGAL_INST with nothing changed (R186). -/
def Obligations.CrossingLoadsFollowTheirParameter : Prop :=
  ∀ (rd rs1 : Reg) (imm : BitVec 12) (s : State),
    let ea : Word := s.readReg rs1 + imm.signExtend 32
    let r := ea.toNat % 4
    let rest := BitVec.ofNat 32 (littleEndian s.mem ea.toNat (4 - r))
    Reaches ([s.cfg.dmem] ++ s.cfg.vmRegions ++ [s.cfg.bootrom, s.cfg.imem]) ea →
      (s.cfg.crossingLoad = .truncate →
        (r = 3 → ∃ t, exec (.lh rd rs1 imm) s = .next t ∧ WritesRd s t rd rest)
          ∧ (r = 3 → ∃ t, exec (.lhu rd rs1 imm) s = .next t ∧ WritesRd s t rd rest)
          ∧ (r ≠ 0 → ∃ t, exec (.lw rd rs1 imm) s = .next t ∧ WritesRd s t rd rest))
      ∧ (s.cfg.crossingLoad = .illegal →
        (r = 3 → exec (.lh rd rs1 imm) s = .next { s with status := .illegalInst })
          ∧ (r = 3 → exec (.lhu rd rs1 imm) s = .next { s with status := .illegalInst })
          ∧ (r ≠ 0 → exec (.lw rd rs1 imm) s = .next { s with status := .illegalInst }))

/-- A load or store that no region of its chain answers raises DMEM_ERROR and changes nothing else (R303). -/
def Obligations.ExhaustedChainRaisesDmemError : Prop :=
  ∀ (i : Instr) (s : State) (ea : Word) (n : Nat),
    (loadAccess s i = some (ea, n) →
        ¬ Reaches ([s.cfg.dmem] ++ s.cfg.vmRegions ++ [s.cfg.bootrom, s.cfg.imem]) ea →
        exec i s = .next { s with status := .dmemError })
      ∧ (storeAccess s i = some (ea, n) →
        ¬ Reaches ([s.cfg.dmem] ++ s.cfg.vmRegions ++ [s.cfg.imem]) ea →
        exec i s = .next { s with status := .dmemError })

/-- A store whose bytes lie in one aligned word, at an address of the store chain: exactly those bytes become
the low bytes of rs2; pc + 4; nothing else (R192, R193). SB has every remainder, SH 0 to 2, SW 0. -/
def Obligations.StoresWithinAWordWriteExactlyTheirBytes : Prop :=
  ∀ (rs1 rs2 : Reg) (imm : BitVec 12) (s : State),
    let ea : Word := s.readReg rs1 + imm.signExtend 32
    let r := ea.toNat % 4
    Reaches ([s.cfg.dmem] ++ s.cfg.vmRegions ++ [s.cfg.imem]) ea →
      (∃ t, exec (.sb rs1 rs2 imm) s = .next t ∧ StoresBytes s t ea 1 (s.readReg rs2))
        ∧ (r ≤ 2 → ∃ t, exec (.sh rs1 rs2 imm) s = .next t ∧ StoresBytes s t ea 2 (s.readReg rs2))
        ∧ (r = 0 → ∃ t, exec (.sw rs1 rs2 imm) s = .next t ∧ StoresBytes s t ea 4 (s.readReg rs2))

/-- Crossing stores under each value of `CROSSING_STORE`: only the bytes up to the end of the word are
written, or ILLEGAL_INST with nothing changed (R194). -/
def Obligations.CrossingStoresFollowTheirParameter : Prop :=
  ∀ (rs1 rs2 : Reg) (imm : BitVec 12) (s : State),
    let ea : Word := s.readReg rs1 + imm.signExtend 32
    let r := ea.toNat % 4
    Reaches ([s.cfg.dmem] ++ s.cfg.vmRegions ++ [s.cfg.imem]) ea →
      (s.cfg.crossingStore = .truncate →
        (r = 3 → ∃ t, exec (.sh rs1 rs2 imm) s = .next t ∧ StoresBytes s t ea 1 (s.readReg rs2))
          ∧ (r ≠ 0 → ∃ t, exec (.sw rs1 rs2 imm) s = .next t
              ∧ StoresBytes s t ea (4 - r) (s.readReg rs2)))
      ∧ (s.cfg.crossingStore = .illegal →
        (r = 3 → exec (.sh rs1 rs2 imm) s = .next { s with status := .illegalInst })
          ∧ (r ≠ 0 → exec (.sw rs1 rs2 imm) s = .next { s with status := .illegalInst }))

/-- Memory changes only inside the bytes a store names, within its aligned word, and in ECALL's read
(20_memory.md R60, R64). -/
def Obligations.OnlyStoresAndTheReadSyscallChangeMemory : Prop :=
  ∀ (i : Instr) (s t : State), exec i s = .next t → ∀ a : Nat, t.mem.read a ≠ s.mem.read a →
    (∃ ea n, storeAccess s i = some (ea, n) ∧ ea.toNat ≤ a ∧ a < ea.toNat + n
        ∧ a < 4 * (ea.toNat / 4) + 4)
      ∨ (i = .ecall ∧ s.readReg 17 = s.cfg.sysNum.read ∧ s.consoleIn ≠ [])

/-- A store to the next instruction's address: the next step runs the stored word (20_memory.md R70,
70_reset_and_hazards.md R340). -/
def Obligations.StoredWordIsTheNextInstruction : Prop :=
  ∀ (s : State) (rs1 rs2 : Reg) (imm : BitVec 12) (j : Instr),
    let fetchable := if s.vmFetch then s.cfg.vmRegions else [s.cfg.imem, s.cfg.bootrom]
    s.live → s.pc.toNat % 4 = 0 → Reaches fetchable s.pc → Reaches fetchable (s.pc + 4#32) →
    decode (s.mem.readWord s.pc.toNat) = .ok (.sw rs1 rs2 imm) →
    s.readReg rs1 + imm.signExtend 32 = s.pc + 4#32 →
    Reaches ([s.cfg.dmem] ++ s.cfg.vmRegions ++ [s.cfg.imem]) (s.pc + 4#32) →
    instrAt s.cfg (s.readReg rs2) = some j →
    ∃ t, step s = .next t ∧ t.pc = s.pc + 4#32 ∧ fetch t = .word (s.readReg rs2)
      ∧ step t = mapNext (retire t.pc (s.readReg rs2) j.cls) (exec j t)

/-- The boot ROM is read-only, unless `VM_REGIONS` lists it: no step changes a byte of it (20_memory.md R56,
R66). -/
def Obligations.BootRomIsReadOnlyOutsideVmRegions : Prop :=
  ∀ s t : State, s.cfg.WellFormed → s.cfg.bootrom ∉ s.cfg.vmRegions → step s = .next t →
    ∀ a : Nat, s.cfg.bootrom.base ≤ a → a < s.cfg.bootrom.base + s.cfg.bootrom.size →
      t.mem.read a = s.mem.read a

/-! ## Control transfer (43_control.md) -/

/-- JAL and JALR: the link, the target from the old rs1, and COMPLETION, the link still written, when the
target is the instruction's own address (R210-R212). -/
def Obligations.JumpsLinkAndGo : Prop :=
  ∀ (rd rs1 : Reg) (off : BitVec 21) (imm : BitVec 12) (s : State),
    (∃ t, exec (.jal rd off) s = .next t ∧ RegsUpdated s t rd (s.pc + 4#32)
        ∧ t.wb = some ⟨rd, s.pc + 4#32⟩ ∧ Jumps s t (s.pc + off.signExtend 32))
      ∧ (∃ t, exec (.jalr rd rs1 imm) s = .next t ∧ RegsUpdated s t rd (s.pc + 4#32)
        ∧ t.wb = some ⟨rd, s.pc + 4#32⟩
        ∧ Jumps s t ((s.readReg rs1 + imm.signExtend 32) &&& 0xFFFFFFFE#32))

/-- The six branches: to pc + immB where the condition holds, else to pc + 4; no register is written;
COMPLETION exactly when taken with offset 0 (R213-R219). -/
def Obligations.BranchesGoWhereTheirConditionSays : Prop :=
  ∀ (rs1 rs2 : Reg) (off : BitVec 13) (s : State),
    let a := s.readReg rs1
    let b := s.readReg rs2
    (∃ t, exec (.beq rs1 rs2 off) s = .next t ∧ Branches s t (decide (a = b)) off)
      ∧ (∃ t, exec (.bne rs1 rs2 off) s = .next t ∧ Branches s t (decide (a ≠ b)) off)
      ∧ (∃ t, exec (.blt rs1 rs2 off) s = .next t ∧ Branches s t (decide (a.toInt < b.toInt)) off)
      ∧ (∃ t, exec (.bge rs1 rs2 off) s = .next t ∧ Branches s t (decide (b.toInt ≤ a.toInt)) off)
      ∧ (∃ t, exec (.bltu rs1 rs2 off) s = .next t ∧ Branches s t (decide (a.toNat < b.toNat)) off)
      ∧ (∃ t, exec (.bgeu rs1 rs2 off) s = .next t ∧ Branches s t (decide (b.toNat ≤ a.toNat)) off)

/-- A CTRL instruction ends with COMPLETION exactly when it goes to its own address, and otherwise with NONE
(R220). -/
def Obligations.ControlCompletesOnlyOnItself : Prop :=
  ∀ (i : Instr) (s : State), i.cls = .ctrl → s.status = .noException →
    ∃ t, exec i s = .next t ∧ (t.pc = s.pc ∧ t.status = .completion
      ∨ t.pc ≠ s.pc ∧ t.status = .noException)

/-! ## CSR and system (44_csr_system.md) -/

/-- CSRRW, CSRRS, CSRRWI and CSRRSI on a backed CSR: rd gets the old value, the CSR the operand, read before rd
is written, or the old value with the operand's bits set; pc + 4; nothing else (R234-R242, R244, R245). -/
def Obligations.CsrWriteAndSetInstructions : Prop :=
  ∀ (rd rs1 : Reg) (a : CsrAddr) (z : BitVec 5) (s : State), a ∈ s.cfg.backedCsrs →
    (∃ t, exec (.csrrw rd a rs1) s = .next t ∧ WritesCsr s t rd a (s.readReg rs1))
      ∧ (∃ t, exec (.csrrs rd a rs1) s = .next t
          ∧ WritesCsr s t rd a (s.readCsr a ||| s.readReg rs1))
      ∧ (∃ t, exec (.csrrwi rd a z) s = .next t ∧ WritesCsr s t rd a (BitVec.ofNat 32 z.toNat))
      ∧ (∃ t, exec (.csrrsi rd a z) s = .next t
          ∧ WritesCsr s t rd a (s.readCsr a ||| BitVec.ofNat 32 z.toNat))

/-- CSRRC and CSRRCI on a backed CSR write rd, then raise ILLEGAL_INST; pc and every CSR are unchanged (R243,
R246; 90_conflicts.md C4, which resolves the rd write; log 20). -/
def Obligations.CsrClearInstructionsReadAndRaise : Prop :=
  ∀ (rd rs1 : Reg) (a : CsrAddr) (z : BitVec 5) (s : State) (i : Instr), a ∈ s.cfg.backedCsrs →
    i = .csrrc rd a rs1 ∨ i = .csrrci rd a z →
    ∃ t, exec i s = .next t ∧ RegsUpdated s t rd (s.readCsr a) ∧ t.wb = some ⟨rd, s.readCsr a⟩
      ∧ t.status = .illegalInst ∧ t.pc = s.pc ∧ SameCsrs s t ∧ SameStores s t

/-- A CSR instruction whose address, the top 12 bits of the word, is not backed raises ILLEGAL_INST and changes
no register, CSR or pc (R236). -/
def Obligations.UnbackedCsrIsIllegal : Prop :=
  ∀ (i : Instr) (s : State) (a : CsrAddr), csrOf i = some a →
    a.toNat = (encode i).toNat / 2 ^ 20
      ∧ (a ∉ s.cfg.backedCsrs → exec i s = .next { s with status := .illegalInst })

/-- FENCE, whatever its ignored fields, advances pc and ends the run with FENCE; nothing else changes (R230). -/
def Obligations.FenceEndsTheRun : Prop :=
  (∀ w : Word, w &&& 0x0000707F#32 = 0x0000000F#32 ↔
      ∃ fm pred succ rs1 rd, decode w = .ok (.fence fm pred succ rs1 rd))
    ∧ ∀ (fm pred succ : BitVec 4) (rs1 rd : Reg) (s : State),
      exec (.fence fm pred succ rs1 rd) s = .next { s with pc := s.pc + 4#32, status := .fence }

/-- EBREAK is exactly 0x00100073; it advances pc and ends the run with OS_ERROR (R232). -/
def Obligations.EbreakEndsTheRunWithOsError : Prop :=
  (∀ w : Word, decode w = .ok .ebreak ↔ w = 0x00100073#32)
    ∧ ∀ s : State, exec .ebreak s = .next { s with pc := s.pc + 4#32, status := .osError }

/-- The CSR file is neither read nor written by an instruction that is no CSR access, or by fetch and decode
(10_state.md R33): another CSR file changes nothing in what they do, and comes out as it went in. -/
def Obligations.OnlyCsrInstructionsTouchTheCsrFile : Prop :=
  ∀ (s : State) (c : Table Word),
    fetch { s with csrs := c } = fetch s
      ∧ ∀ i, isCsrAccess i = false →
        exec i { s with csrs := c } = mapNext (fun t => { t with csrs := c }) (exec i s)

/-- No instruction reads or writes `vm_fetch` (10_state.md R37). -/
def Obligations.NoInstructionTouchesTheFetchMode : Prop :=
  ∀ (i : Instr) (s : State) (b : Bool),
    exec i { s with vmFetch := b } = mapNext (fun t => { t with vmFetch := b }) (exec i s)

/-! ## The syscall bridge (45_syscalls.md) -/

/-- An ECALL whose a7 is no allowlisted number: OS_ERROR, pc + 4, nothing else (R266). -/
def Obligations.UnknownSyscallIsOsError : Prop :=
  ∀ s : State, s.readReg 17 ∉ s.cfg.sysNum.all →
    exec .ecall s = .next { s with pc := s.pc + 4#32, status := .osError }

/-- fstat, close and lseek succeed and change nothing but pc (R267-R269). -/
def Obligations.FstatCloseAndLseekDoNothing : Prop :=
  ∀ s : State, s.cfg.sysNum.all.Nodup →
    s.readReg 17 = s.cfg.sysNum.fstat ∨ s.readReg 17 = s.cfg.sysNum.close
      ∨ s.readReg 17 = s.cfg.sysNum.lseek →
    exec .ecall s = .next { s with pc := s.pc + 4#32 }

/-- exit ends the run with COMPLETION, pc + 4, nothing else (R274). -/
def Obligations.ExitCompletesTheRun : Prop :=
  ∀ s : State, s.cfg.sysNum.all.Nodup → s.readReg 17 = s.cfg.sysNum.exit →
    exec .ecall s = .next { s with pc := s.pc + 4#32, status := .completion }

/-- brk: a0 becomes `HEAP_START` when it was not 0, else some value; the entry of the key register's old value
becomes some value; pc + 4; nothing else (R270). Nothing is said of the two free values (log 14). -/
def Obligations.BrkRewritesA0AndOneEntry : Prop :=
  ∀ s : State, s.cfg.sysNum.all.Nodup → s.readReg 17 = s.cfg.sysNum.brk →
    ∃ (t : State) (v w : Word), exec .ecall s = .next t
      ∧ RegsUpdated s t 10 (if s.readReg 10 ≠ 0#32 then s.cfg.heapStart else v)
      ∧ (∀ k, t.readBrk k = if k = s.readReg s.cfg.brkKeyReg then w else s.readBrk k)
      ∧ t.pc = s.pc + 4#32 ∧ t.status = s.status ∧ t.wb = s.wb ∧ SameCsrs s t ∧ SameMemory s t
      ∧ SameEngine s t ∧ t.consoleIn = s.consoleIn ∧ t.consoleOut = s.consoleOut

/-- write, when every byte of the buffer lies in `VM_REGIONS`: a0 becomes some value; the bytes of the buffer
reach the console in order, unless a word read is the sentinel, when some bytes do (R271, R272); pc + 4;
nothing else. -/
def Obligations.WriteEmitsTheBuffer : Prop :=
  ∀ s : State, s.cfg.sysNum.all.Nodup → s.readReg 17 = s.cfg.sysNum.write →
    let at' := fun k : Nat => (s.readReg 11 + BitVec.ofNat 32 k : Word)
    let count := (s.readReg 12).toNat
    (∀ k < count, Reaches s.cfg.vmRegions (at' k)) →
    ∃ (t : State) (v : Word) (out : List Byte), exec .ecall s = .next t
      ∧ RegsUpdated s t 10 v ∧ t.consoleOut = s.consoleOut ++ out
      ∧ ((∀ k < count, s.mem.readWord (4 * ((at' k).toNat / 4)) ≠ s.cfg.writeSentinel) →
          out = (List.range count).map (fun k => s.mem.read (at' k).toNat))
      ∧ t.pc = s.pc + 4#32 ∧ t.status = s.status ∧ t.wb = s.wb ∧ SameCsrs s t ∧ SameMemory s t
      ∧ SameBrk s t ∧ SameEngine s t ∧ t.consoleIn = s.consoleIn

/-- read, when a line is supplied and every byte it stores lies in `VM_REGIONS`: the line, formed by
`READ_LINE_FORMAT`, is stored from a1 on, no other byte changes, a0 becomes its first byte or some value for an
empty line; the line is used up; pc + 4 (R273). The order in which the line is formed and its newline byte are
the model's choice (logs 16, 32). Lines that would wrap around the whole address space are left out. -/
def Obligations.ReadStoresOneLine : Prop :=
  ∀ (s : State) (line : List Byte) (lines : List (List Byte)), s.cfg.sysNum.all.Nodup →
    s.readReg 17 = s.cfg.sysNum.read → s.consoleIn = line :: lines →
    let f := s.cfg.readLineFormat
    let full := if f.keepNewline then line ++ [0x0A#8] else line
    let l := if f.enforceCount then full.take (s.readReg 12).toNat else full
    let stored := l ++ f.terminator.toList
    stored.length ≤ 2 ^ 32 →
    (∀ k < stored.length, Reaches s.cfg.vmRegions (s.readReg 11 + BitVec.ofNat 32 k)) →
    ∃ (t : State) (v : Word), exec .ecall s = .next t
      ∧ RegsUpdated s t 10 (match l.head? with | some b => b.setWidth 32 | none => v)
      ∧ (∀ a : Word, t.mem.read a.toNat = stored.getD (a - s.readReg 11).toNat (s.mem.read a.toNat))
      ∧ (∀ a : Nat, 2 ^ 32 ≤ a → t.mem.read a = s.mem.read a)
      ∧ t.consoleIn = lines ∧ t.consoleOut = s.consoleOut
      ∧ t.pc = s.pc + 4#32 ∧ t.status = s.status ∧ t.wb = s.wb ∧ SameCsrs s t ∧ SameBrk s t
      ∧ SameEngine s t

/-- The read syscall without a line is the only thing that keeps an instruction from a next state; it waits
(R263, 70_reset_and_hazards.md R341). -/
def Obligations.OnlyTheReadSyscallWaits : Prop :=
  ∀ (i : Instr) (s : State), s.cfg.sysNum.all.Nodup →
    let waits := i = .ecall ∧ s.readReg 17 = s.cfg.sysNum.read ∧ s.consoleIn = []
    (waits → exec i s = .fault .consoleInputWait) ∧ (¬ waits → ∃ t, exec i s = .next t)

/-- A write or read that meets an address outside `VM_REGIONS`, under each value of `SYSCALL_MEM_FAIL` and of
`READ_LINE_FORMAT`: the refusal mark, or OS_ERROR; pc + 4; nothing else (R265). That nothing else happens, and
the value `error`, are the model's choice (log 12), as are the order in which the line is formed (log 16) and
its newline byte (log 32). -/
def Obligations.UnreachedSyscallBufferFollowsItsParameter : Prop :=
  ∀ s : State, s.cfg.sysNum.all.Nodup →
    (s.readReg 17 = s.cfg.sysNum.write
        ∧ ∃ k < (s.readReg 12).toNat, ¬ Reaches s.cfg.vmRegions (s.readReg 11 + BitVec.ofNat 32 k))
      ∨ (s.readReg 17 = s.cfg.sysNum.read ∧ ∃ line lines, s.consoleIn = line :: lines ∧
        let f := s.cfg.readLineFormat
        let full := if f.keepNewline then line ++ [0x0A#8] else line
        let l := if f.enforceCount then full.take (s.readReg 12).toNat else full
        ∃ k < (l ++ f.terminator.toList).length,
          ¬ Reaches s.cfg.vmRegions (s.readReg 11 + BitVec.ofNat 32 k)) →
    (s.cfg.syscallMemFail = .refuse →
        exec .ecall s = .next { s with pc := s.pc + 4#32, refused := true })
      ∧ (s.cfg.syscallMemFail = .error →
        exec .ecall s = .next { s with pc := s.pc + 4#32, status := .osError })

/-- The break table is no memory: no instruction but ECALL, and no fetch, reads or writes it (20_memory.md
R58). -/
def Obligations.OnlyTheBridgeTouchesTheBreakTable : Prop :=
  ∀ (s : State) (b : Table Word),
    fetch { s with brkTable := b } = fetch s
      ∧ ∀ i, i ≠ .ecall →
        exec i { s with brkTable := b } = mapNext (fun t => { t with brkTable := b }) (exec i s)

/-! ## Exceptions (60_exceptions.md) -/

/-- A step that ends with IMEM_ERROR, ILLEGAL_INST or DMEM_ERROR leaves registers, CSRs, memory and pc as they
were, but for the rd of CSRRC and CSRRCI (40_engine.md R117). -/
def Obligations.FailingStepsHaveNoEffect : Prop :=
  ∀ s t : State, step s = .next t →
    t.status = .imemError ∨ t.status = .illegalInst ∨ t.status = .dmemError →
    t.pc = s.pc ∧ SameCsrs s t ∧ SameMemory s t ∧ SameBrk s t ∧ SameConsole s t
      ∧ t.vmFetch = s.vmFetch ∧ t.refused = s.refused
      ∧ (SameRegs s t ∨ ∃ w i rd a, fetch s = .word w ∧ decode w = .ok i ∧ IsCsrClear i
          ∧ destRd i = some rd ∧ csrOf i = some a ∧ t.status = .illegalInst
          ∧ RegsUpdated s t rd (s.readCsr a))

/-- The causes of ILLEGAL_INST, exhaustively: an unmapped word, one of them a FENCE-row word that a narrower
`FENCE_MATCH` leaves out (92_eei_decisions.md D11; log 10); an unbacked CSR; CSRRC and CSRRCI; a crossing
access under `Illegal` that its chain answers (R304). -/
def Obligations.IllegalInstructionCauses : Prop :=
  ∀ (s : State) (w : Word), s.live → fetch s = .word w →
    ((∃ t, step s = .next t ∧ t.status = .illegalInst) ↔
      (∀ e ∈ decodeTable, e.row.selects w = false)
        ∨ (Row.fence.selects w = true ∧ w &&& s.cfg.fenceMatch.mask ≠ s.cfg.fenceMatch.value)
        ∨ ∃ i, decode w = .ok i ∧
        ((∃ a, csrOf i = some a ∧ a ∉ s.cfg.backedCsrs) ∨ IsCsrClear i
          ∨ (∃ ea n, loadAccess s i = some (ea, n) ∧ Crossing ea n ∧ s.cfg.crossingLoad = .illegal
              ∧ Reaches ([s.cfg.dmem] ++ s.cfg.vmRegions ++ [s.cfg.bootrom, s.cfg.imem]) ea)
          ∨ (∃ ea n, storeAccess s i = some (ea, n) ∧ Crossing ea n ∧ s.cfg.crossingStore = .illegal
              ∧ Reaches ([s.cfg.dmem] ++ s.cfg.vmRegions ++ [s.cfg.imem]) ea)))

/-- The causes of COMPLETION, FENCE and OS_ERROR (R305). OS_ERROR of a failing syscall buffer under
`SYSCALL_MEM_FAIL = error` is the model's (log 12), so the default `Refuse` is assumed for that clause. -/
def Obligations.BenignCodesAndOsErrorCauses : Prop :=
  ∀ (i : Instr) (s t : State), s.cfg.sysNum.all.Nodup → s.status = .noException → exec i s = .next t →
    (t.status = .completion ↔
        (i.cls = .ctrl ∧ t.pc = s.pc) ∨ (i = .ecall ∧ s.readReg 17 = s.cfg.sysNum.exit))
      ∧ (t.status = .fence ↔ rowOf i = Row.fence)
      ∧ (s.cfg.syscallMemFail = .refuse →
        (t.status = .osError ↔ i = .ebreak ∨ (i = .ecall ∧ s.readReg 17 ∉ s.cfg.sysNum.all)))
      ∧ t.status ≠ .imemError

/-! ## Whole machine -/

/-- Every step keeps the invariant: the parameters' conditions, x0's cell, an even pc, canonical memory inside
the regions, CSRs only where backed, counters and trace in step modulo 2^32 (log 31). -/
def Obligations.StepKeepsTheInvariant : Prop :=
  ∀ s t : State, s.Inv → step s = .next t → t.Inv

/-- The invariant holds after reset. -/
def Obligations.ResetMeetsTheInvariant : Prop := State.reset.Inv

/-- The invariant holds of every machine constructed from well-formed parameters and a launch input that fits
its regions (70_reset_and_hazards.md R330, 20_memory.md R52), and a host `run` at an even address keeps it
(R331). -/
def Obligations.LaunchMeetsTheInvariant : Prop :=
  (∀ (c : Config) (l : Launch), c.WellFormed → l.Fits c → (construct c l).Inv)
    ∧ ∀ (s : State) (startPc : Word) (vm : Bool), s.Inv → startPc.getLsbD 0 = false →
      (hostRun startPc vm s).Inv

/-- What construction leaves: x0 zero, the other registers the loader's, the backed CSRs at `CSR_RESET`, the boot
ROM's and the loader's bytes in place, every break entry 0, status NONE, counters 0, no refusal mark (R330). pc
and vm_fetch are the model's choice (log 2). -/
def Obligations.ConstructionSetsTheLaunchValues : Prop :=
  ∀ (c : Config) (l : Launch), c.WellFormed → l.Fits c → l.vmImages = [] →
    let s := construct c l
    (∀ r : Reg, s.readReg r = if r = 0 then 0#32 else l.regs[r.val])
      ∧ (∀ e ∈ c.csrReset, ∀ a : CsrAddr, a.toNat = e.1 → s.readCsr a = e.2)
      ∧ (∀ a : CsrAddr, (∀ e ∈ c.csrReset, e.1 ≠ a.toNat) → s.readCsr a = 0#32)
      ∧ (∀ (k : Nat) (h : k < c.bootromImage.length), s.mem.read (c.bootrom.base + k) = c.bootromImage[k])
      ∧ (∀ (k : Nat) (h : k < l.imemImage.length), s.mem.read (c.imem.base + k) = l.imemImage[k])
      ∧ (∀ (k : Nat) (h : k < l.dmemImage.length), s.mem.read (c.dmem.base + k) = l.dmemImage[k])
      ∧ (∀ k, s.readBrk k = 0#32) ∧ s.status = .noException ∧ s.refused = false
      ∧ s.cycles = 0#32 ∧ s.counts = ⟨0#32, 0#32, 0#32, 0#32⟩

/-- A step changes neither the parameters nor the fetch mode; the console output and the trace only grow, and at
most one console line is used up (10_state.md R37, 45_syscalls.md R262, R263). -/
def Obligations.StepKeepsTheModeAndOnlyAddsOutput : Prop :=
  ∀ s t : State, step s = .next t →
    t.cfg = s.cfg ∧ t.vmFetch = s.vmFetch ∧ s.consoleOut <+: t.consoleOut ∧ s.trace <+: t.trace
      ∧ (t.consoleIn = s.consoleIn ∨ ∃ line, s.consoleIn = line :: t.consoleIn)

/-- No rule reads the counters, the trace or the console output (10_state.md R40, 40_engine.md R124, R125,
45_syscalls.md R262): states that differ only there step alike. -/
def Obligations.OutputsDoNotInfluenceTheMachine : Prop :=
  ∀ s s' : State, eraseOutputs s = eraseOutputs s' →
    mapNext eraseOutputs (step s) = mapNext eraseOutputs (step s')

/-- How a run goes (40_engine.md R120, R122, R123; 10_state.md R42; 70_reset_and_hazards.md R341). `run` sets pc,
vm_fetch and status, and the loop then takes steps while status is NONE: it goes on from the next state of
each step, ends at once at a code that is not NONE, stops at the refusal mark and at a step that waits for a
line, and is cut off at its bound. A run ends in the number of steps it needs, a longer bound changes nothing,
and a run cut off goes on where it stood. -/
def Obligations.RunsCompose : Prop :=
  ∀ (n m : Nat) (s : State),
    (∀ (startPc : Word) (vm : Bool),
        run n startPc vm s = runLoop n { s with pc := startPc, vmFetch := vm, status := .noException })
      ∧ (s.status ≠ .noException → runLoop n s = .ended s)
      ∧ (s.status = .noException → s.refused = true → runLoop n s = .refused s)
      ∧ (s.live → runLoop 0 s = .running s
        ∧ (∀ t, step s = .next t → runLoop (n + 1) s = runLoop n t)
        ∧ (step s = .fault .consoleInputWait → runLoop (n + 1) s = .waiting s)
        ∧ ((∃ t, step s = .next t) ∨ step s = .fault .consoleInputWait))
      ∧ match runLoop n s with
        | .running t => runLoop (n + m) s = runLoop m t
        | e => runLoop (n + m) s = e

/-- What a run leaves: `ended` has a code that is not NONE, `refused` the mark, `waiting` a step that waits for a
line; and every one of them, run from a state with the invariant, still has it. -/
def Obligations.RunsEndAsTheSpecSays : Prop :=
  ∀ (n : Nat) (s : State), s.Inv →
    match runLoop n s with
    | .ended t => t.status ≠ .noException ∧ t.Inv
    | .refused t => t.refused = true ∧ t.status = .noException ∧ t.Inv
    | .waiting t => t.live ∧ step t = .fault .consoleInputWait ∧ t.Inv
    | .running t => t.live ∧ t.Inv

/-- The two-phase boot: the user phase runs exactly when the boot phase ended with FENCE, from `RESET_PC` through
`VM_REGIONS`, over the state the boot phase left; a boot phase that ends with another code, waits for a line,
stops at the refusal mark or is cut off leaves the launch where it stands (70_reset_and_hazards.md R331,
R336). -/
def Obligations.TwoPhaseBootHandsOverTheState : Prop :=
  ∀ (n : Nat) (s : State),
    match runLoop n { s with pc := s.cfg.resetPc, vmFetch := false, status := .noException } with
    | .ended t =>
      (t.status = .fence → twoPhaseBoot n s
          = runLoop n { t with pc := s.cfg.resetPc, vmFetch := true, status := .noException })
        ∧ (t.status ≠ .fence → twoPhaseBoot n s = .ended t)
    | .waiting t => twoPhaseBoot n s = .waiting t
    | .refused t => twoPhaseBoot n s = .refused t
    | .running t => twoPhaseBoot n s = .running t
end

