-- ==== Sys2Proof/Laws/Alu.lean ====
section
/-! SUPPORT. The ALU's parts as numbers: the shift amount, the shifts, the comparisons (spec 41_alu.md
R141-R148). -/

namespace Sys2Proof.Machine

theorem shiftAmount_eq (b : Word) : shiftAmount b = b.toNat % 32 := by
  simp [shiftAmount, BitVec.extractLsb'_toNat]

/-- The immediate of a shift instruction shifts by shamt, whatever its funct7 bits are (R158-R160). -/
theorem shiftAmount_immI (f : BitVec 7) (z : BitVec 5) : shiftAmount (immI (f ++ z)) = z.toNat := by
  unfold shiftAmount immI
  congr 1
  apply BitVec.eq_of_getLsbD_eq; intro i hi
  rw [BitVec.getLsbD_extractLsb', BitVec.getLsbD_signExtend, BitVec.getLsbD_append]
  simp [hi, show i < 32 by omega, show i < 12 by omega]

/-- R144. -/
theorem shiftLeft_eq_ofNat (a : Word) (n : Nat) : a <<< n = BitVec.ofNat 32 (a.toNat * 2 ^ n) := by
  apply BitVec.eq_of_toNat_eq; simp [BitVec.toNat_shiftLeft, Nat.shiftLeft_eq]

/-- R145. -/
theorem ushiftRight_eq_ofNat (a : Word) (n : Nat) : a >>> n = BitVec.ofNat 32 (a.toNat / 2 ^ n) := by
  apply BitVec.eq_of_toNat_eq
  simp only [BitVec.toNat_ushiftRight, Nat.shiftRight_eq_div_pow, BitVec.toNat_ofNat]
  exact (Nat.mod_eq_of_lt (lt_of_le_of_lt (Nat.div_le_self _ _) a.isLt)).symm

/-- R146. -/
theorem sshiftRight_eq_ofInt (a : Word) (n : Nat) : a.sshiftRight n = BitVec.ofInt 32 (a.toInt / 2 ^ n) := by
  apply BitVec.eq_of_toInt_eq
  rw [BitVec.toInt_sshiftRight, BitVec.toInt_ofInt, Int.shiftRight_eq_div_pow]
  have h1 := BitVec.toInt_lt (x := a)
  have h2 := BitVec.le_toInt (x := a)
  have hp : (0 : Int) < 2 ^ n := by positivity
  have hhi : a.toInt / 2 ^ n ≤ 2147483647 := by
    rcases le_or_gt 0 a.toInt with h | h
    · exact le_trans (Int.ediv_le_self _ h) (by simp at h1; omega)
    · have := Int.ediv_neg_of_neg_of_pos h hp; omega
  have hlo : -2147483648 ≤ a.toInt / 2 ^ n := by
    rw [Int.le_ediv_iff_mul_le hp]
    have : (1 : Int) ≤ 2 ^ n := hp
    simp at h2; nlinarith
  rw [show ((2 ^ n : Nat) : Int) = (2 : Int) ^ n by push_cast; rfl]
  exact (Int.bmod_eq_of_le (by omega) (by omega)).symm

/-- R147. -/
theorem truthWord_signedLess (a b : Word) :
    truthWord (signedLess a b) = if a.toInt < b.toInt then 1#32 else 0#32 := by
  unfold truthWord signedLess
  by_cases h : a.toInt < b.toInt
  · rw [if_pos h, if_pos (by simpa using h)]
  · rw [if_neg h, if_neg (by simpa using h)]

/-- R148. -/
theorem truthWord_unsignedLess (a b : Word) :
    truthWord (unsignedLess a b) = if a.toNat < b.toNat then 1#32 else 0#32 := by
  unfold truthWord unsignedLess
  by_cases h : a.toNat < b.toNat
  · rw [if_pos h, if_pos (by simpa using h)]
  · rw [if_neg h, if_neg (by simpa using h)]

end Sys2Proof.Machine
end

