-- ==== Sys2Proof/Laws/Decode.lean ====
section
/-! SUPPORT. The formats (spec 30_encoding.md R82): which fixed bits a packed word has, and that each field
read from a packed word is the field packed. -/

namespace Sys2Proof

/-! ## A packed word selects its row (R90) -/

/-- A mask over a concatenation is the concatenation of the masks. -/
theorem and_append_eq {a b : Nat} {x m x' : BitVec a} {y n y' : BitVec b}
    (h1 : x &&& m = x') (h2 : y &&& n = y') : (x ++ y) &&& (m ++ n) = x' ++ y' := by
  rw [BitVec.and_append, h1, h2]

theorem and_ones7 (x : BitVec 7) : x &&& 0x7F#7 = x := BitVec.and_allOnes
theorem and_ones3 (x : BitVec 3) : x &&& 7#3 = x := BitVec.and_allOnes
theorem and_none {a : Nat} (x : BitVec a) : x &&& 0#a = 0#a := BitVec.and_zero

/-- A word selects a row when the word's fixed bits, cut out by the mask, are the match value. -/
theorem selects_of {r : Row} {w m v : Word} (hm : r.mask = m) (hv : r.value = v)
    (h : w &&& m = v) : r.selects w = true := by
  unfold Row.selects; rw [hm, hv, beq_iff_eq]; exact h

theorem selects_packR (r : Row) (hm : r.mask = 0xFE00707F#32)
    (hv : r.value = r.funct7 ++ 0#5 ++ 0#5 ++ r.funct3 ++ 0#5 ++ r.opcode)
    (rs2 : BitVec 5) (rs1 rd : Reg) : r.selects (packR r rs2 rs1 rd) = true :=
  selects_of (m := 0x7F#7 ++ 0#5 ++ 0#5 ++ 7#3 ++ 0#5 ++ 0x7F#7) hm hv
    (and_append_eq (and_append_eq (and_append_eq (and_append_eq (and_append_eq (and_ones7 _) (and_none _)) (and_none _)) (and_ones3 _)) (and_none _)) (and_ones7 _))

theorem selects_packI (r : Row) (hm : r.mask = 0x0000707F#32)
    (hv : r.value = 0#12 ++ 0#5 ++ r.funct3 ++ 0#5 ++ r.opcode)
    (imm : BitVec 12) (rs1 : BitVec 5) (rd : Reg) : r.selects (packI r imm rs1 rd) = true :=
  selects_of (m := 0#12 ++ 0#5 ++ 7#3 ++ 0#5 ++ 0x7F#7) hm hv
    (and_append_eq (and_append_eq (and_append_eq (and_append_eq (and_none _) (and_none _)) (and_ones3 _)) (and_none _)) (and_ones7 _))

theorem selects_packS (r : Row) (hm : r.mask = 0x0000707F#32)
    (hv : r.value = 0#7 ++ 0#5 ++ 0#5 ++ r.funct3 ++ 0#5 ++ r.opcode)
    (imm : BitVec 12) (rs2 rs1 : Reg) : r.selects (packS r imm rs2 rs1) = true :=
  selects_of (m := 0#7 ++ 0#5 ++ 0#5 ++ 7#3 ++ 0#5 ++ 0x7F#7) hm hv
    (and_append_eq (and_append_eq (and_append_eq (and_append_eq (and_append_eq (and_none _) (and_none _)) (and_none _)) (and_ones3 _)) (and_none _)) (and_ones7 _))

theorem selects_packB (r : Row) (hm : r.mask = 0x0000707F#32)
    (hv : r.value = 0#1 ++ 0#6 ++ 0#5 ++ 0#5 ++ r.funct3 ++ 0#4 ++ 0#1 ++ r.opcode)
    (off : BitVec 13) (rs2 rs1 : Reg) : r.selects (packB r off rs2 rs1) = true :=
  selects_of (m := 0#1 ++ 0#6 ++ 0#5 ++ 0#5 ++ 7#3 ++ 0#4 ++ 0#1 ++ 0x7F#7) hm hv
    (and_append_eq (and_append_eq (and_append_eq (and_append_eq (and_append_eq (and_append_eq (and_append_eq (and_none _) (and_none _)) (and_none _)) (and_none _)) (and_ones3 _)) (and_none _)) (and_none _)) (and_ones7 _))

theorem selects_packU (r : Row) (hm : r.mask = 0x0000007F#32)
    (hv : r.value = 0#20 ++ 0#5 ++ r.opcode)
    (imm : BitVec 20) (rd : Reg) : r.selects (packU r imm rd) = true :=
  selects_of (m := 0#20 ++ 0#5 ++ 0x7F#7) hm hv
    (and_append_eq (and_append_eq (and_none _) (and_none _)) (and_ones7 _))

theorem selects_packJ (r : Row) (hm : r.mask = 0x0000007F#32)
    (hv : r.value = 0#1 ++ 0#10 ++ 0#1 ++ 0#8 ++ 0#5 ++ r.opcode)
    (off : BitVec 21) (rd : Reg) : r.selects (packJ r off rd) = true :=
  selects_of (m := 0#1 ++ 0#10 ++ 0#1 ++ 0#8 ++ 0#5 ++ 0x7F#7) hm hv
    (and_append_eq (and_append_eq (and_append_eq (and_append_eq (and_append_eq (and_none _) (and_none _)) (and_none _)) (and_none _)) (and_none _)) (and_ones7 _))

/-! ## Fields of a packed word (R81-R88) -/

theorem toFin_regBits (r : Reg) : (regBits r).toFin = r := rfl

section
variable (r : Row) (rs2 : BitVec 5) (rs1 rd : Reg)

theorem rd_packR : fieldRd (packR r rs2 rs1 rd) = rd := by
  have h : (packR r rs2 rs1 rd).extractLsb' 7 5 = regBits rd := by
    apply BitVec.eq_of_getLsbD_eq; intro i hi
    simp only [packR, BitVec.getLsbD_append, BitVec.getLsbD_extractLsb']
    simp [hi, show ¬ 7 + i < 7 by omega]
  simp [fieldRd, h, toFin_regBits]

theorem rs1_packR : fieldRs1 (packR r rs2 rs1 rd) = rs1 := by
  have h : (packR r rs2 rs1 rd).extractLsb' 15 5 = regBits rs1 := by
    apply BitVec.eq_of_getLsbD_eq; intro i hi
    simp only [packR, BitVec.getLsbD_append, BitVec.getLsbD_extractLsb']
    simp [hi, show ¬ 15 + i < 7 by omega,
      show ¬ 15 + i - 7 < 5 by omega, show ¬ 15 + i - 7 - 5 < 3 by omega,
      show 15 + i - 7 - 5 - 3 = i by omega]
  simp [fieldRs1, h, toFin_regBits]

theorem shamt_packR : fieldShamt (packR r rs2 rs1 rd) = rs2 := by
  apply BitVec.eq_of_getLsbD_eq; intro i hi
  simp only [fieldShamt, packR, BitVec.getLsbD_append, BitVec.getLsbD_extractLsb']
  simp [hi, show ¬ 20 + i < 7 by omega, show ¬ 20 + i - 7 < 5 by omega, show ¬ 20 + i - 7 - 5 < 3 by omega,
    show ¬ 20 + i - 7 - 5 - 3 < 5 by omega, show 20 + i - 7 - 5 - 3 - 5 = i by omega]

theorem rs2_packR (q : Reg) : fieldRs2 (packR r (regBits q) rs1 rd) = q := by
  have h := shamt_packR r (regBits q) rs1 rd
  simp only [fieldShamt] at h
  simp [fieldRs2, h, toFin_regBits]

end

section
variable (r : Row) (imm : BitVec 12) (z : BitVec 5) (rd : Reg)

theorem rd_packI : fieldRd (packI r imm z rd) = rd := by
  have h : (packI r imm z rd).extractLsb' 7 5 = regBits rd := by
    apply BitVec.eq_of_getLsbD_eq; intro i hi
    simp only [packI, BitVec.getLsbD_append, BitVec.getLsbD_extractLsb']
    simp [hi, show ¬ 7 + i < 7 by omega]
  simp [fieldRd, h, toFin_regBits]

theorem zimm_packI : fieldZimm (packI r imm z rd) = z := by
  apply BitVec.eq_of_getLsbD_eq; intro i hi
  simp only [fieldZimm, packI, BitVec.getLsbD_append, BitVec.getLsbD_extractLsb']
  simp [hi, show ¬ 15 + i < 7 by omega, show ¬ 15 + i - 7 < 5 by omega, show ¬ 15 + i - 7 - 5 < 3 by omega,
    show 15 + i - 7 - 5 - 3 = i by omega]

theorem rs1_packI (q : Reg) : fieldRs1 (packI r imm (regBits q) rd) = q := by
  have h := zimm_packI r imm (regBits q) rd
  simp only [fieldZimm] at h
  simp [fieldRs1, h, toFin_regBits]

theorem immI_packI : fieldImmI (packI r imm z rd) = imm := by
  apply BitVec.eq_of_getLsbD_eq; intro i hi
  simp only [fieldImmI, packI, BitVec.getLsbD_append, BitVec.getLsbD_extractLsb']
  simp [hi, show ¬ 20 + i < 7 by omega, show ¬ 20 + i - 7 < 5 by omega, show ¬ 20 + i - 7 - 5 < 3 by omega,
    show ¬ 20 + i - 7 - 5 - 3 < 5 by omega, show 20 + i - 7 - 5 - 3 - 5 = i by omega]

theorem csr_packI : fieldCsr (packI r imm z rd) = imm := immI_packI r imm z rd

end

section
variable (r : Row) (imm : BitVec 12) (rs2 rs1 : Reg)

theorem rs1_packS : fieldRs1 (packS r imm rs2 rs1) = rs1 := by
  have h : (packS r imm rs2 rs1).extractLsb' 15 5 = regBits rs1 := by
    apply BitVec.eq_of_getLsbD_eq; intro i hi
    simp only [packS, BitVec.getLsbD_append, BitVec.getLsbD_extractLsb']
    simp [hi, show ¬ 15 + i < 7 by omega, show ¬ 15 + i - 7 < 5 by omega,
      show ¬ 15 + i - 7 - 5 < 3 by omega, show 15 + i - 7 - 5 - 3 = i by omega]
  simp [fieldRs1, h, toFin_regBits]

theorem rs2_packS : fieldRs2 (packS r imm rs2 rs1) = rs2 := by
  have h : (packS r imm rs2 rs1).extractLsb' 20 5 = regBits rs2 := by
    apply BitVec.eq_of_getLsbD_eq; intro i hi
    simp only [packS, BitVec.getLsbD_append, BitVec.getLsbD_extractLsb']
    simp [hi, show ¬ 20 + i < 7 by omega, show ¬ 20 + i - 7 < 5 by omega,
      show ¬ 20 + i - 7 - 5 < 3 by omega, show ¬ 20 + i - 7 - 5 - 3 < 5 by omega,
      show 20 + i - 7 - 5 - 3 - 5 = i by omega]
  simp [fieldRs2, h, toFin_regBits]

theorem immS_packS : fieldImmS (packS r imm rs2 rs1) = imm := by
  apply BitVec.eq_of_getLsbD_eq; intro i hi
  simp only [fieldImmS, packS, BitVec.getLsbD_append, BitVec.getLsbD_extractLsb']
  interval_cases i <;> simp

end

section
variable (r : Row) (off : BitVec 13) (rs2 rs1 : Reg)

theorem rs1_packB : fieldRs1 (packB r off rs2 rs1) = rs1 := by
  have h : (packB r off rs2 rs1).extractLsb' 15 5 = regBits rs1 := by
    apply BitVec.eq_of_getLsbD_eq; intro i hi
    simp only [packB, BitVec.getLsbD_append, BitVec.getLsbD_extractLsb']
    interval_cases i <;> simp
  simp [fieldRs1, h, toFin_regBits]

theorem rs2_packB : fieldRs2 (packB r off rs2 rs1) = rs2 := by
  have h : (packB r off rs2 rs1).extractLsb' 20 5 = regBits rs2 := by
    apply BitVec.eq_of_getLsbD_eq; intro i hi
    simp only [packB, BitVec.getLsbD_append, BitVec.getLsbD_extractLsb']
    interval_cases i <;> simp
  simp [fieldRs2, h, toFin_regBits]

/-- An even offset comes back whole (R85). -/
theorem immB_packB (h : evenB off = true) : fieldImmB (packB r off rs2 rs1) = off := by
  have h0 : off[0] = false := by simpa [evenB, ← BitVec.getLsbD_eq_getElem] using h
  apply BitVec.eq_of_getLsbD_eq; intro i hi
  simp only [fieldImmB, packB, BitVec.getLsbD_append, BitVec.getLsbD_extractLsb']
  interval_cases i <;> simp [h0]

end

theorem rd_packU (r : Row) (imm : BitVec 20) (rd : Reg) : fieldRd (packU r imm rd) = rd := by
  have h : (packU r imm rd).extractLsb' 7 5 = regBits rd := by
    apply BitVec.eq_of_getLsbD_eq; intro i hi
    simp only [packU, BitVec.getLsbD_append, BitVec.getLsbD_extractLsb']
    interval_cases i <;> simp
  simp [fieldRd, h, toFin_regBits]

theorem immU_packU (r : Row) (imm : BitVec 20) (rd : Reg) : fieldImmU (packU r imm rd) = imm := by
  apply BitVec.eq_of_getLsbD_eq; intro i hi
  simp only [fieldImmU, packU, BitVec.getLsbD_append, BitVec.getLsbD_extractLsb']
  interval_cases i <;> simp

theorem rd_packJ (r : Row) (off : BitVec 21) (rd : Reg) : fieldRd (packJ r off rd) = rd := by
  have h : (packJ r off rd).extractLsb' 7 5 = regBits rd := by
    apply BitVec.eq_of_getLsbD_eq; intro i hi
    simp only [packJ, BitVec.getLsbD_append, BitVec.getLsbD_extractLsb']
    interval_cases i <;> simp
  simp [fieldRd, h, toFin_regBits]

/-- An even offset comes back whole (R87). -/
theorem immJ_packJ (r : Row) (off : BitVec 21) (rd : Reg) (h : evenJ off = true) :
    fieldImmJ (packJ r off rd) = off := by
  have h0 : off[0] = false := by simpa [evenJ, ← BitVec.getLsbD_eq_getElem] using h
  apply BitVec.eq_of_getLsbD_eq; intro i hi
  simp only [fieldImmJ, packJ, BitVec.getLsbD_append, BitVec.getLsbD_extractLsb']
  interval_cases i <;> simp [h0]

/-! ## The offsets a word gives are even (R85, R87) -/

theorem even_fieldImmB (w : Word) : evenB (fieldImmB w) = true := by
  simp only [evenB, fieldImmB, BitVec.getLsbD_append]
  simp

theorem even_fieldImmJ (w : Word) : evenJ (fieldImmJ w) = true := by
  simp only [evenJ, fieldImmJ, BitVec.getLsbD_append]
  simp

/-- A row that is found is a row of the table and selects the word (R90). -/
theorem lookupRow_some {w : Word} {e : Entry} (h : lookupRow w = some e) :
    e ∈ decodeTable ∧ e.row.selects w = true :=
  ⟨List.mem_of_find?_eq_some h, List.find?_some (p := fun e : Entry => e.row.selects w) h⟩

end Sys2Proof
end

