-- ==== Sys2Proof/Laws/State.lean ====
section
/-! SUPPORT. One lemma per field per update of the state, and what the register, CSR and break-table
accessors read after an update. -/

namespace Sys2Proof.Machine

/-! ### setReg -/

@[simp] theorem setReg_cfg (s : State) (r : Reg) (v : Word) : (s.setReg r v).cfg = s.cfg := by unfold State.setReg; split <;> rfl
@[simp] theorem setReg_pc (s : State) (r : Reg) (v : Word) : (s.setReg r v).pc = s.pc := by unfold State.setReg; split <;> rfl
@[simp] theorem setReg_csrs (s : State) (r : Reg) (v : Word) : (s.setReg r v).csrs = s.csrs := by unfold State.setReg; split <;> rfl
@[simp] theorem setReg_mem (s : State) (r : Reg) (v : Word) : (s.setReg r v).mem = s.mem := by unfold State.setReg; split <;> rfl
@[simp] theorem setReg_vmFetch (s : State) (r : Reg) (v : Word) : (s.setReg r v).vmFetch = s.vmFetch := by unfold State.setReg; split <;> rfl
@[simp] theorem setReg_brkTable (s : State) (r : Reg) (v : Word) : (s.setReg r v).brkTable = s.brkTable := by unfold State.setReg; split <;> rfl
@[simp] theorem setReg_status (s : State) (r : Reg) (v : Word) : (s.setReg r v).status = s.status := by unfold State.setReg; split <;> rfl
@[simp] theorem setReg_refused (s : State) (r : Reg) (v : Word) : (s.setReg r v).refused = s.refused := by unfold State.setReg; split <;> rfl
@[simp] theorem setReg_cycles (s : State) (r : Reg) (v : Word) : (s.setReg r v).cycles = s.cycles := by unfold State.setReg; split <;> rfl
@[simp] theorem setReg_counts (s : State) (r : Reg) (v : Word) : (s.setReg r v).counts = s.counts := by unfold State.setReg; split <;> rfl
@[simp] theorem setReg_consoleIn (s : State) (r : Reg) (v : Word) : (s.setReg r v).consoleIn = s.consoleIn := by unfold State.setReg; split <;> rfl
@[simp] theorem setReg_consoleOut (s : State) (r : Reg) (v : Word) : (s.setReg r v).consoleOut = s.consoleOut := by unfold State.setReg; split <;> rfl
@[simp] theorem setReg_trace (s : State) (r : Reg) (v : Word) : (s.setReg r v).trace = s.trace := by unfold State.setReg; split <;> rfl
@[simp] theorem setReg_wb (s : State) (r : Reg) (v : Word) : (s.setReg r v).wb = s.wb := by unfold State.setReg; split <;> rfl
@[simp] theorem setReg_draws (s : State) (r : Reg) (v : Word) : (s.setReg r v).draws = s.draws := by unfold State.setReg; split <;> rfl

/-! ### writeRd -/

@[simp] theorem writeRd_cfg (s : State) (rd : Reg) (v : Word) : (s.writeRd rd v).cfg = s.cfg := by unfold State.writeRd State.setReg; split <;> rfl
@[simp] theorem writeRd_regs (s : State) (rd : Reg) (v : Word) : (s.writeRd rd v).regs = (s.setReg rd v).regs := rfl
@[simp] theorem writeRd_pc (s : State) (rd : Reg) (v : Word) : (s.writeRd rd v).pc = s.pc := by unfold State.writeRd State.setReg; split <;> rfl
@[simp] theorem writeRd_csrs (s : State) (rd : Reg) (v : Word) : (s.writeRd rd v).csrs = s.csrs := by unfold State.writeRd State.setReg; split <;> rfl
@[simp] theorem writeRd_mem (s : State) (rd : Reg) (v : Word) : (s.writeRd rd v).mem = s.mem := by unfold State.writeRd State.setReg; split <;> rfl
@[simp] theorem writeRd_vmFetch (s : State) (rd : Reg) (v : Word) : (s.writeRd rd v).vmFetch = s.vmFetch := by unfold State.writeRd State.setReg; split <;> rfl
@[simp] theorem writeRd_brkTable (s : State) (rd : Reg) (v : Word) : (s.writeRd rd v).brkTable = s.brkTable := by unfold State.writeRd State.setReg; split <;> rfl
@[simp] theorem writeRd_status (s : State) (rd : Reg) (v : Word) : (s.writeRd rd v).status = s.status := by unfold State.writeRd State.setReg; split <;> rfl
@[simp] theorem writeRd_refused (s : State) (rd : Reg) (v : Word) : (s.writeRd rd v).refused = s.refused := by unfold State.writeRd State.setReg; split <;> rfl
@[simp] theorem writeRd_cycles (s : State) (rd : Reg) (v : Word) : (s.writeRd rd v).cycles = s.cycles := by unfold State.writeRd State.setReg; split <;> rfl
@[simp] theorem writeRd_counts (s : State) (rd : Reg) (v : Word) : (s.writeRd rd v).counts = s.counts := by unfold State.writeRd State.setReg; split <;> rfl
@[simp] theorem writeRd_consoleIn (s : State) (rd : Reg) (v : Word) : (s.writeRd rd v).consoleIn = s.consoleIn := by unfold State.writeRd State.setReg; split <;> rfl
@[simp] theorem writeRd_consoleOut (s : State) (rd : Reg) (v : Word) : (s.writeRd rd v).consoleOut = s.consoleOut := by unfold State.writeRd State.setReg; split <;> rfl
@[simp] theorem writeRd_trace (s : State) (rd : Reg) (v : Word) : (s.writeRd rd v).trace = s.trace := by unfold State.writeRd State.setReg; split <;> rfl
@[simp] theorem writeRd_wb (s : State) (rd : Reg) (v : Word) : (s.writeRd rd v).wb = some ⟨rd, v⟩ := rfl
@[simp] theorem writeRd_draws (s : State) (rd : Reg) (v : Word) : (s.writeRd rd v).draws = s.draws := by unfold State.writeRd State.setReg; split <;> rfl

/-! ### setPc -/

@[simp] theorem setPc_cfg (s : State) (t : Word) : (s.setPc t).cfg = s.cfg := rfl
@[simp] theorem setPc_regs (s : State) (t : Word) : (s.setPc t).regs = s.regs := rfl
@[simp] theorem setPc_pc (s : State) (t : Word) : (s.setPc t).pc = t := rfl
@[simp] theorem setPc_csrs (s : State) (t : Word) : (s.setPc t).csrs = s.csrs := rfl
@[simp] theorem setPc_mem (s : State) (t : Word) : (s.setPc t).mem = s.mem := rfl
@[simp] theorem setPc_vmFetch (s : State) (t : Word) : (s.setPc t).vmFetch = s.vmFetch := rfl
@[simp] theorem setPc_brkTable (s : State) (t : Word) : (s.setPc t).brkTable = s.brkTable := rfl
@[simp] theorem setPc_status (s : State) (t : Word) : (s.setPc t).status = s.status := rfl
@[simp] theorem setPc_refused (s : State) (t : Word) : (s.setPc t).refused = s.refused := rfl
@[simp] theorem setPc_cycles (s : State) (t : Word) : (s.setPc t).cycles = s.cycles := rfl
@[simp] theorem setPc_counts (s : State) (t : Word) : (s.setPc t).counts = s.counts := rfl
@[simp] theorem setPc_consoleIn (s : State) (t : Word) : (s.setPc t).consoleIn = s.consoleIn := rfl
@[simp] theorem setPc_consoleOut (s : State) (t : Word) : (s.setPc t).consoleOut = s.consoleOut := rfl
@[simp] theorem setPc_trace (s : State) (t : Word) : (s.setPc t).trace = s.trace := rfl
@[simp] theorem setPc_wb (s : State) (t : Word) : (s.setPc t).wb = s.wb := rfl
@[simp] theorem setPc_draws (s : State) (t : Word) : (s.setPc t).draws = s.draws := rfl

/-! ### advance -/

@[simp] theorem advance_cfg (s : State) : s.advance.cfg = s.cfg := rfl
@[simp] theorem advance_regs (s : State) : s.advance.regs = s.regs := rfl
@[simp] theorem advance_pc (s : State) : s.advance.pc = s.pc + 4#32 := rfl
@[simp] theorem advance_csrs (s : State) : s.advance.csrs = s.csrs := rfl
@[simp] theorem advance_mem (s : State) : s.advance.mem = s.mem := rfl
@[simp] theorem advance_vmFetch (s : State) : s.advance.vmFetch = s.vmFetch := rfl
@[simp] theorem advance_brkTable (s : State) : s.advance.brkTable = s.brkTable := rfl
@[simp] theorem advance_status (s : State) : s.advance.status = s.status := rfl
@[simp] theorem advance_refused (s : State) : s.advance.refused = s.refused := rfl
@[simp] theorem advance_cycles (s : State) : s.advance.cycles = s.cycles := rfl
@[simp] theorem advance_counts (s : State) : s.advance.counts = s.counts := rfl
@[simp] theorem advance_consoleIn (s : State) : s.advance.consoleIn = s.consoleIn := rfl
@[simp] theorem advance_consoleOut (s : State) : s.advance.consoleOut = s.consoleOut := rfl
@[simp] theorem advance_trace (s : State) : s.advance.trace = s.trace := rfl
@[simp] theorem advance_wb (s : State) : s.advance.wb = s.wb := rfl
@[simp] theorem advance_draws (s : State) : s.advance.draws = s.draws := rfl

/-! ### writeCsr -/

@[simp] theorem writeCsr_cfg (s : State) (a : CsrAddr) (v : Word) : (s.writeCsr a v).cfg = s.cfg := rfl
@[simp] theorem writeCsr_regs (s : State) (a : CsrAddr) (v : Word) : (s.writeCsr a v).regs = s.regs := rfl
@[simp] theorem writeCsr_pc (s : State) (a : CsrAddr) (v : Word) : (s.writeCsr a v).pc = s.pc := rfl
@[simp] theorem writeCsr_csrs (s : State) (a : CsrAddr) (v : Word) : (s.writeCsr a v).csrs = Table.put 0#32 s.csrs a.toNat v := rfl
@[simp] theorem writeCsr_mem (s : State) (a : CsrAddr) (v : Word) : (s.writeCsr a v).mem = s.mem := rfl
@[simp] theorem writeCsr_vmFetch (s : State) (a : CsrAddr) (v : Word) : (s.writeCsr a v).vmFetch = s.vmFetch := rfl
@[simp] theorem writeCsr_brkTable (s : State) (a : CsrAddr) (v : Word) : (s.writeCsr a v).brkTable = s.brkTable := rfl
@[simp] theorem writeCsr_status (s : State) (a : CsrAddr) (v : Word) : (s.writeCsr a v).status = s.status := rfl
@[simp] theorem writeCsr_refused (s : State) (a : CsrAddr) (v : Word) : (s.writeCsr a v).refused = s.refused := rfl
@[simp] theorem writeCsr_cycles (s : State) (a : CsrAddr) (v : Word) : (s.writeCsr a v).cycles = s.cycles := rfl
@[simp] theorem writeCsr_counts (s : State) (a : CsrAddr) (v : Word) : (s.writeCsr a v).counts = s.counts := rfl
@[simp] theorem writeCsr_consoleIn (s : State) (a : CsrAddr) (v : Word) : (s.writeCsr a v).consoleIn = s.consoleIn := rfl
@[simp] theorem writeCsr_consoleOut (s : State) (a : CsrAddr) (v : Word) : (s.writeCsr a v).consoleOut = s.consoleOut := rfl
@[simp] theorem writeCsr_trace (s : State) (a : CsrAddr) (v : Word) : (s.writeCsr a v).trace = s.trace := rfl
@[simp] theorem writeCsr_wb (s : State) (a : CsrAddr) (v : Word) : (s.writeCsr a v).wb = s.wb := rfl
@[simp] theorem writeCsr_draws (s : State) (a : CsrAddr) (v : Word) : (s.writeCsr a v).draws = s.draws := rfl

/-! ### setMem -/

@[simp] theorem setMem_cfg (s : State) (m : Memory) : (s.setMem m).cfg = s.cfg := rfl
@[simp] theorem setMem_regs (s : State) (m : Memory) : (s.setMem m).regs = s.regs := rfl
@[simp] theorem setMem_pc (s : State) (m : Memory) : (s.setMem m).pc = s.pc := rfl
@[simp] theorem setMem_csrs (s : State) (m : Memory) : (s.setMem m).csrs = s.csrs := rfl
@[simp] theorem setMem_mem (s : State) (m : Memory) : (s.setMem m).mem = m := rfl
@[simp] theorem setMem_vmFetch (s : State) (m : Memory) : (s.setMem m).vmFetch = s.vmFetch := rfl
@[simp] theorem setMem_brkTable (s : State) (m : Memory) : (s.setMem m).brkTable = s.brkTable := rfl
@[simp] theorem setMem_status (s : State) (m : Memory) : (s.setMem m).status = s.status := rfl
@[simp] theorem setMem_refused (s : State) (m : Memory) : (s.setMem m).refused = s.refused := rfl
@[simp] theorem setMem_cycles (s : State) (m : Memory) : (s.setMem m).cycles = s.cycles := rfl
@[simp] theorem setMem_counts (s : State) (m : Memory) : (s.setMem m).counts = s.counts := rfl
@[simp] theorem setMem_consoleIn (s : State) (m : Memory) : (s.setMem m).consoleIn = s.consoleIn := rfl
@[simp] theorem setMem_consoleOut (s : State) (m : Memory) : (s.setMem m).consoleOut = s.consoleOut := rfl
@[simp] theorem setMem_trace (s : State) (m : Memory) : (s.setMem m).trace = s.trace := rfl
@[simp] theorem setMem_wb (s : State) (m : Memory) : (s.setMem m).wb = s.wb := rfl
@[simp] theorem setMem_draws (s : State) (m : Memory) : (s.setMem m).draws = s.draws := rfl

/-! ### writeBrk -/

@[simp] theorem writeBrk_cfg (s : State) (k v : Word) : (s.writeBrk k v).cfg = s.cfg := rfl
@[simp] theorem writeBrk_regs (s : State) (k v : Word) : (s.writeBrk k v).regs = s.regs := rfl
@[simp] theorem writeBrk_pc (s : State) (k v : Word) : (s.writeBrk k v).pc = s.pc := rfl
@[simp] theorem writeBrk_csrs (s : State) (k v : Word) : (s.writeBrk k v).csrs = s.csrs := rfl
@[simp] theorem writeBrk_mem (s : State) (k v : Word) : (s.writeBrk k v).mem = s.mem := rfl
@[simp] theorem writeBrk_vmFetch (s : State) (k v : Word) : (s.writeBrk k v).vmFetch = s.vmFetch := rfl
@[simp] theorem writeBrk_brkTable (s : State) (k v : Word) : (s.writeBrk k v).brkTable = Table.put 0#32 s.brkTable k.toNat v := rfl
@[simp] theorem writeBrk_status (s : State) (k v : Word) : (s.writeBrk k v).status = s.status := rfl
@[simp] theorem writeBrk_refused (s : State) (k v : Word) : (s.writeBrk k v).refused = s.refused := rfl
@[simp] theorem writeBrk_cycles (s : State) (k v : Word) : (s.writeBrk k v).cycles = s.cycles := rfl
@[simp] theorem writeBrk_counts (s : State) (k v : Word) : (s.writeBrk k v).counts = s.counts := rfl
@[simp] theorem writeBrk_consoleIn (s : State) (k v : Word) : (s.writeBrk k v).consoleIn = s.consoleIn := rfl
@[simp] theorem writeBrk_consoleOut (s : State) (k v : Word) : (s.writeBrk k v).consoleOut = s.consoleOut := rfl
@[simp] theorem writeBrk_trace (s : State) (k v : Word) : (s.writeBrk k v).trace = s.trace := rfl
@[simp] theorem writeBrk_wb (s : State) (k v : Word) : (s.writeBrk k v).wb = s.wb := rfl
@[simp] theorem writeBrk_draws (s : State) (k v : Word) : (s.writeBrk k v).draws = s.draws := rfl

/-! ### emit -/

@[simp] theorem emit_cfg (s : State) (bs : List Byte) : (s.emit bs).cfg = s.cfg := rfl
@[simp] theorem emit_regs (s : State) (bs : List Byte) : (s.emit bs).regs = s.regs := rfl
@[simp] theorem emit_pc (s : State) (bs : List Byte) : (s.emit bs).pc = s.pc := rfl
@[simp] theorem emit_csrs (s : State) (bs : List Byte) : (s.emit bs).csrs = s.csrs := rfl
@[simp] theorem emit_mem (s : State) (bs : List Byte) : (s.emit bs).mem = s.mem := rfl
@[simp] theorem emit_vmFetch (s : State) (bs : List Byte) : (s.emit bs).vmFetch = s.vmFetch := rfl
@[simp] theorem emit_brkTable (s : State) (bs : List Byte) : (s.emit bs).brkTable = s.brkTable := rfl
@[simp] theorem emit_status (s : State) (bs : List Byte) : (s.emit bs).status = s.status := rfl
@[simp] theorem emit_refused (s : State) (bs : List Byte) : (s.emit bs).refused = s.refused := rfl
@[simp] theorem emit_cycles (s : State) (bs : List Byte) : (s.emit bs).cycles = s.cycles := rfl
@[simp] theorem emit_counts (s : State) (bs : List Byte) : (s.emit bs).counts = s.counts := rfl
@[simp] theorem emit_consoleIn (s : State) (bs : List Byte) : (s.emit bs).consoleIn = s.consoleIn := rfl
@[simp] theorem emit_consoleOut (s : State) (bs : List Byte) : (s.emit bs).consoleOut = s.consoleOut ++ bs := rfl
@[simp] theorem emit_trace (s : State) (bs : List Byte) : (s.emit bs).trace = s.trace := rfl
@[simp] theorem emit_wb (s : State) (bs : List Byte) : (s.emit bs).wb = s.wb := rfl
@[simp] theorem emit_draws (s : State) (bs : List Byte) : (s.emit bs).draws = s.draws := rfl

/-! ### dropLine -/

@[simp] theorem dropLine_cfg (s : State) : s.dropLine.cfg = s.cfg := rfl
@[simp] theorem dropLine_regs (s : State) : s.dropLine.regs = s.regs := rfl
@[simp] theorem dropLine_pc (s : State) : s.dropLine.pc = s.pc := rfl
@[simp] theorem dropLine_csrs (s : State) : s.dropLine.csrs = s.csrs := rfl
@[simp] theorem dropLine_mem (s : State) : s.dropLine.mem = s.mem := rfl
@[simp] theorem dropLine_vmFetch (s : State) : s.dropLine.vmFetch = s.vmFetch := rfl
@[simp] theorem dropLine_brkTable (s : State) : s.dropLine.brkTable = s.brkTable := rfl
@[simp] theorem dropLine_status (s : State) : s.dropLine.status = s.status := rfl
@[simp] theorem dropLine_refused (s : State) : s.dropLine.refused = s.refused := rfl
@[simp] theorem dropLine_cycles (s : State) : s.dropLine.cycles = s.cycles := rfl
@[simp] theorem dropLine_counts (s : State) : s.dropLine.counts = s.counts := rfl
@[simp] theorem dropLine_consoleIn (s : State) : s.dropLine.consoleIn = s.consoleIn.tail := rfl
@[simp] theorem dropLine_consoleOut (s : State) : s.dropLine.consoleOut = s.consoleOut := rfl
@[simp] theorem dropLine_trace (s : State) : s.dropLine.trace = s.trace := rfl
@[simp] theorem dropLine_wb (s : State) : s.dropLine.wb = s.wb := rfl
@[simp] theorem dropLine_draws (s : State) : s.dropLine.draws = s.draws := rfl

/-! ### countDraw -/

@[simp] theorem countDraw_cfg (s : State) : s.countDraw.cfg = s.cfg := rfl
@[simp] theorem countDraw_regs (s : State) : s.countDraw.regs = s.regs := rfl
@[simp] theorem countDraw_pc (s : State) : s.countDraw.pc = s.pc := rfl
@[simp] theorem countDraw_csrs (s : State) : s.countDraw.csrs = s.csrs := rfl
@[simp] theorem countDraw_mem (s : State) : s.countDraw.mem = s.mem := rfl
@[simp] theorem countDraw_vmFetch (s : State) : s.countDraw.vmFetch = s.vmFetch := rfl
@[simp] theorem countDraw_brkTable (s : State) : s.countDraw.brkTable = s.brkTable := rfl
@[simp] theorem countDraw_status (s : State) : s.countDraw.status = s.status := rfl
@[simp] theorem countDraw_refused (s : State) : s.countDraw.refused = s.refused := rfl
@[simp] theorem countDraw_cycles (s : State) : s.countDraw.cycles = s.cycles := rfl
@[simp] theorem countDraw_counts (s : State) : s.countDraw.counts = s.counts := rfl
@[simp] theorem countDraw_consoleIn (s : State) : s.countDraw.consoleIn = s.consoleIn := rfl
@[simp] theorem countDraw_consoleOut (s : State) : s.countDraw.consoleOut = s.consoleOut := rfl
@[simp] theorem countDraw_trace (s : State) : s.countDraw.trace = s.trace := rfl
@[simp] theorem countDraw_wb (s : State) : s.countDraw.wb = s.wb := rfl
@[simp] theorem countDraw_draws (s : State) : s.countDraw.draws = s.draws + 1 := rfl

/-! ### raise -/

@[simp] theorem raise_cfg (s : State) (c : ExcCode) : (raise c s).cfg = s.cfg := rfl
@[simp] theorem raise_regs (s : State) (c : ExcCode) : (raise c s).regs = s.regs := rfl
@[simp] theorem raise_pc (s : State) (c : ExcCode) : (raise c s).pc = s.pc := rfl
@[simp] theorem raise_csrs (s : State) (c : ExcCode) : (raise c s).csrs = s.csrs := rfl
@[simp] theorem raise_mem (s : State) (c : ExcCode) : (raise c s).mem = s.mem := rfl
@[simp] theorem raise_vmFetch (s : State) (c : ExcCode) : (raise c s).vmFetch = s.vmFetch := rfl
@[simp] theorem raise_brkTable (s : State) (c : ExcCode) : (raise c s).brkTable = s.brkTable := rfl
@[simp] theorem raise_status (s : State) (c : ExcCode) : (raise c s).status = c := rfl
@[simp] theorem raise_refused (s : State) (c : ExcCode) : (raise c s).refused = s.refused := rfl
@[simp] theorem raise_cycles (s : State) (c : ExcCode) : (raise c s).cycles = s.cycles := rfl
@[simp] theorem raise_counts (s : State) (c : ExcCode) : (raise c s).counts = s.counts := rfl
@[simp] theorem raise_consoleIn (s : State) (c : ExcCode) : (raise c s).consoleIn = s.consoleIn := rfl
@[simp] theorem raise_consoleOut (s : State) (c : ExcCode) : (raise c s).consoleOut = s.consoleOut := rfl
@[simp] theorem raise_trace (s : State) (c : ExcCode) : (raise c s).trace = s.trace := rfl
@[simp] theorem raise_wb (s : State) (c : ExcCode) : (raise c s).wb = s.wb := rfl
@[simp] theorem raise_draws (s : State) (c : ExcCode) : (raise c s).draws = s.draws := rfl

/-! ### markRefused -/

@[simp] theorem markRefused_cfg (s : State) : (markRefused s).cfg = s.cfg := rfl
@[simp] theorem markRefused_regs (s : State) : (markRefused s).regs = s.regs := rfl
@[simp] theorem markRefused_pc (s : State) : (markRefused s).pc = s.pc := rfl
@[simp] theorem markRefused_csrs (s : State) : (markRefused s).csrs = s.csrs := rfl
@[simp] theorem markRefused_mem (s : State) : (markRefused s).mem = s.mem := rfl
@[simp] theorem markRefused_vmFetch (s : State) : (markRefused s).vmFetch = s.vmFetch := rfl
@[simp] theorem markRefused_brkTable (s : State) : (markRefused s).brkTable = s.brkTable := rfl
@[simp] theorem markRefused_status (s : State) : (markRefused s).status = s.status := rfl
@[simp] theorem markRefused_refused (s : State) : (markRefused s).refused = true := rfl
@[simp] theorem markRefused_cycles (s : State) : (markRefused s).cycles = s.cycles := rfl
@[simp] theorem markRefused_counts (s : State) : (markRefused s).counts = s.counts := rfl
@[simp] theorem markRefused_consoleIn (s : State) : (markRefused s).consoleIn = s.consoleIn := rfl
@[simp] theorem markRefused_consoleOut (s : State) : (markRefused s).consoleOut = s.consoleOut := rfl
@[simp] theorem markRefused_trace (s : State) : (markRefused s).trace = s.trace := rfl
@[simp] theorem markRefused_wb (s : State) : (markRefused s).wb = s.wb := rfl
@[simp] theorem markRefused_draws (s : State) : (markRefused s).draws = s.draws := rfl

/-! ### hostRun -/

@[simp] theorem hostRun_cfg (s : State) (a : Word) (vm : Bool) : (hostRun a vm s).cfg = s.cfg := rfl
@[simp] theorem hostRun_regs (s : State) (a : Word) (vm : Bool) : (hostRun a vm s).regs = s.regs := rfl
@[simp] theorem hostRun_pc (s : State) (a : Word) (vm : Bool) : (hostRun a vm s).pc = a := rfl
@[simp] theorem hostRun_csrs (s : State) (a : Word) (vm : Bool) : (hostRun a vm s).csrs = s.csrs := rfl
@[simp] theorem hostRun_mem (s : State) (a : Word) (vm : Bool) : (hostRun a vm s).mem = s.mem := rfl
@[simp] theorem hostRun_vmFetch (s : State) (a : Word) (vm : Bool) : (hostRun a vm s).vmFetch = vm := rfl
@[simp] theorem hostRun_brkTable (s : State) (a : Word) (vm : Bool) : (hostRun a vm s).brkTable = s.brkTable := rfl
@[simp] theorem hostRun_status (s : State) (a : Word) (vm : Bool) : (hostRun a vm s).status = .noException := rfl
@[simp] theorem hostRun_refused (s : State) (a : Word) (vm : Bool) : (hostRun a vm s).refused = s.refused := rfl
@[simp] theorem hostRun_cycles (s : State) (a : Word) (vm : Bool) : (hostRun a vm s).cycles = s.cycles := rfl
@[simp] theorem hostRun_counts (s : State) (a : Word) (vm : Bool) : (hostRun a vm s).counts = s.counts := rfl
@[simp] theorem hostRun_consoleIn (s : State) (a : Word) (vm : Bool) : (hostRun a vm s).consoleIn = s.consoleIn := rfl
@[simp] theorem hostRun_consoleOut (s : State) (a : Word) (vm : Bool) : (hostRun a vm s).consoleOut = s.consoleOut := rfl
@[simp] theorem hostRun_trace (s : State) (a : Word) (vm : Bool) : (hostRun a vm s).trace = s.trace := rfl
@[simp] theorem hostRun_wb (s : State) (a : Word) (vm : Bool) : (hostRun a vm s).wb = s.wb := rfl
@[simp] theorem hostRun_draws (s : State) (a : Word) (vm : Bool) : (hostRun a vm s).draws = s.draws := rfl

/-! ### retire -/

@[simp] theorem retire_cfg (p w : Word) (c : ExecClass) (t : State) : (retire p w c t).cfg = t.cfg := rfl
@[simp] theorem retire_regs (p w : Word) (c : ExecClass) (t : State) : (retire p w c t).regs = t.regs := rfl
@[simp] theorem retire_pc (p w : Word) (c : ExecClass) (t : State) : (retire p w c t).pc = t.pc := rfl
@[simp] theorem retire_csrs (p w : Word) (c : ExecClass) (t : State) : (retire p w c t).csrs = t.csrs := rfl
@[simp] theorem retire_mem (p w : Word) (c : ExecClass) (t : State) : (retire p w c t).mem = t.mem := rfl
@[simp] theorem retire_vmFetch (p w : Word) (c : ExecClass) (t : State) : (retire p w c t).vmFetch = t.vmFetch := rfl
@[simp] theorem retire_brkTable (p w : Word) (c : ExecClass) (t : State) : (retire p w c t).brkTable = t.brkTable := rfl
@[simp] theorem retire_status (p w : Word) (c : ExecClass) (t : State) : (retire p w c t).status = t.status := rfl
@[simp] theorem retire_refused (p w : Word) (c : ExecClass) (t : State) : (retire p w c t).refused = t.refused := rfl
@[simp] theorem retire_cycles (p w : Word) (c : ExecClass) (t : State) : (retire p w c t).cycles = t.cycles + 1#32 := rfl
@[simp] theorem retire_counts (p w : Word) (c : ExecClass) (t : State) : (retire p w c t).counts = t.counts.bump c := rfl
@[simp] theorem retire_consoleIn (p w : Word) (c : ExecClass) (t : State) : (retire p w c t).consoleIn = t.consoleIn := rfl
@[simp] theorem retire_consoleOut (p w : Word) (c : ExecClass) (t : State) : (retire p w c t).consoleOut = t.consoleOut := rfl
@[simp] theorem retire_trace (p w : Word) (c : ExecClass) (t : State) : (retire p w c t).trace = t.trace ++ [⟨p, w, t.wb.map (·.rd), t.wb.map (·.value), t.pc⟩] := rfl
@[simp] theorem retire_wb (p w : Word) (c : ExecClass) (t : State) : (retire p w c t).wb = none := rfl
@[simp] theorem retire_draws (p w : Word) (c : ExecClass) (t : State) : (retire p w c t).draws = t.draws := rfl

/-! ### The counters -/

/-- A dispatched step adds 1 to the sum of the class counters, modulo 2^32 (40_engine.md R124). -/
theorem bump_sum (n : ClassCounts) (c : ExecClass) :
    (n.bump c).alu + (n.bump c).mem + (n.bump c).ctrl + (n.bump c).csr
      = n.alu + n.mem + n.ctrl + n.csr + 1#32 := by
  cases c <;> simp only [ClassCounts.bump] <;> ac_rfl

/-! ### What the accessors read after an update -/

theorem readReg_zero (s : State) : s.readReg 0 = 0#32 := rfl

theorem readReg_setReg (s : State) (rd r : Reg) (v : Word) :
    (s.setReg rd v).readReg r = if r = rd ∧ r ≠ 0 then v else s.readReg r := by
  by_cases h0 : r = 0
  · subst h0; simp [readReg_zero]
  · by_cases hrd : rd = 0
    · subst hrd; simp [State.setReg, h0]
    · by_cases h : r = rd
      · subst h; simp [State.readReg, State.setReg, h0]
      · have : rd.val ≠ r.val := fun e => h (Fin.ext e.symm)
        simp [State.readReg, State.setReg, h0, hrd, h, this]

theorem readReg_writeRd (s : State) (rd r : Reg) (v : Word) :
    (s.writeRd rd v).readReg r = if r = rd ∧ r ≠ 0 then v else s.readReg r :=
  readReg_setReg s rd r v

theorem setReg_zero (s : State) (v : Word) : s.setReg 0 v = s := rfl

/-- The cell of x0 is never written (spec 10_state.md R21). -/
theorem setReg_zeroCell (s : State) (r : Reg) (v : Word) : (s.setReg r v).regs[0] = s.regs[0] := by
  by_cases h : r = 0
  · subst h; rfl
  · have : r.val ≠ 0 := fun e => h (Fin.ext e)
    simp [State.setReg, h, this]

@[simp] theorem readCsr_setReg (s : State) (r : Reg) (v : Word) (c : CsrAddr) : (s.setReg r v).readCsr c = s.readCsr c := by simp [State.readCsr]
@[simp] theorem readBrk_setReg (s : State) (r : Reg) (v : Word) (x : Word) : (s.setReg r v).readBrk x = s.readBrk x := by simp [State.readBrk]
@[simp] theorem readCsr_writeRd (s : State) (rd : Reg) (v : Word) (c : CsrAddr) : (s.writeRd rd v).readCsr c = s.readCsr c := by simp [State.readCsr]
@[simp] theorem readBrk_writeRd (s : State) (rd : Reg) (v : Word) (x : Word) : (s.writeRd rd v).readBrk x = s.readBrk x := by simp [State.readBrk]
@[simp] theorem readReg_setPc (s : State) (t : Word) (r : Reg) : (s.setPc t).readReg r = s.readReg r := rfl
@[simp] theorem readCsr_setPc (s : State) (t : Word) (c : CsrAddr) : (s.setPc t).readCsr c = s.readCsr c := rfl
@[simp] theorem readBrk_setPc (s : State) (t : Word) (x : Word) : (s.setPc t).readBrk x = s.readBrk x := rfl
@[simp] theorem readReg_advance (s : State) (r : Reg) : s.advance.readReg r = s.readReg r := rfl
@[simp] theorem readCsr_advance (s : State) (c : CsrAddr) : s.advance.readCsr c = s.readCsr c := rfl
@[simp] theorem readBrk_advance (s : State) (x : Word) : s.advance.readBrk x = s.readBrk x := rfl
@[simp] theorem readReg_writeCsr (s : State) (a : CsrAddr) (v : Word) (r : Reg) : (s.writeCsr a v).readReg r = s.readReg r := rfl
@[simp] theorem readBrk_writeCsr (s : State) (a : CsrAddr) (v : Word) (x : Word) : (s.writeCsr a v).readBrk x = s.readBrk x := rfl
@[simp] theorem readReg_setMem (s : State) (m : Memory) (r : Reg) : (s.setMem m).readReg r = s.readReg r := rfl
@[simp] theorem readCsr_setMem (s : State) (m : Memory) (c : CsrAddr) : (s.setMem m).readCsr c = s.readCsr c := rfl
@[simp] theorem readBrk_setMem (s : State) (m : Memory) (x : Word) : (s.setMem m).readBrk x = s.readBrk x := rfl
@[simp] theorem readReg_writeBrk (s : State) (k v : Word) (r : Reg) : (s.writeBrk k v).readReg r = s.readReg r := rfl
@[simp] theorem readCsr_writeBrk (s : State) (k v : Word) (c : CsrAddr) : (s.writeBrk k v).readCsr c = s.readCsr c := rfl
@[simp] theorem readReg_emit (s : State) (bs : List Byte) (r : Reg) : (s.emit bs).readReg r = s.readReg r := rfl
@[simp] theorem readCsr_emit (s : State) (bs : List Byte) (c : CsrAddr) : (s.emit bs).readCsr c = s.readCsr c := rfl
@[simp] theorem readBrk_emit (s : State) (bs : List Byte) (x : Word) : (s.emit bs).readBrk x = s.readBrk x := rfl
@[simp] theorem readReg_dropLine (s : State) (r : Reg) : s.dropLine.readReg r = s.readReg r := rfl
@[simp] theorem readCsr_dropLine (s : State) (c : CsrAddr) : s.dropLine.readCsr c = s.readCsr c := rfl
@[simp] theorem readBrk_dropLine (s : State) (x : Word) : s.dropLine.readBrk x = s.readBrk x := rfl
@[simp] theorem readReg_countDraw (s : State) (r : Reg) : s.countDraw.readReg r = s.readReg r := rfl
@[simp] theorem readCsr_countDraw (s : State) (c : CsrAddr) : s.countDraw.readCsr c = s.readCsr c := rfl
@[simp] theorem readBrk_countDraw (s : State) (x : Word) : s.countDraw.readBrk x = s.readBrk x := rfl
@[simp] theorem readReg_raise (s : State) (c : ExcCode) (r : Reg) : (raise c s).readReg r = s.readReg r := rfl
@[simp] theorem readCsr_raise (s : State) (c : ExcCode) (x : CsrAddr) : (raise c s).readCsr x = s.readCsr x := rfl
@[simp] theorem readBrk_raise (s : State) (c : ExcCode) (x : Word) : (raise c s).readBrk x = s.readBrk x := rfl
@[simp] theorem readReg_markRefused (s : State) (r : Reg) : (markRefused s).readReg r = s.readReg r := rfl
@[simp] theorem readCsr_markRefused (s : State) (c : CsrAddr) : (markRefused s).readCsr c = s.readCsr c := rfl
@[simp] theorem readBrk_markRefused (s : State) (x : Word) : (markRefused s).readBrk x = s.readBrk x := rfl
@[simp] theorem readReg_hostRun (s : State) (a : Word) (vm : Bool) (r : Reg) : (hostRun a vm s).readReg r = s.readReg r := rfl
@[simp] theorem readCsr_hostRun (s : State) (a : Word) (vm : Bool) (c : CsrAddr) : (hostRun a vm s).readCsr c = s.readCsr c := rfl
@[simp] theorem readBrk_hostRun (s : State) (a : Word) (vm : Bool) (x : Word) : (hostRun a vm s).readBrk x = s.readBrk x := rfl
@[simp] theorem readReg_retire (p w : Word) (c : ExecClass) (t : State) (x : Reg) : (retire p w c t).readReg x = t.readReg x := rfl
@[simp] theorem readCsr_retire (p w : Word) (c : ExecClass) (t : State) (x : CsrAddr) : (retire p w c t).readCsr x = t.readCsr x := rfl
@[simp] theorem readBrk_retire (p w : Word) (c : ExecClass) (t : State) (x : Word) : (retire p w c t).readBrk x = t.readBrk x := rfl

end Sys2Proof.Machine
end

