-- ==== Sys2Proof/Laws/Table.lean ====
section
/-! SUPPORT. Tables: read over write, and the canonical form (log 25). -/

namespace Sys2Proof.Machine

section
variable {α : Type} (d : α)

theorem Table.get_cons (k a : Nat) (v : α) (m : Table α) :
    Table.get d ((k, v) :: m) a = if a < k then d else if k = a then v else Table.get d m a := rfl

/-- Dropping entries below a key that is read changes nothing for it. -/
theorem Table.get_dropWhile (m : Table α) (a b : Nat) (h : a < b) :
    Table.get d (m.dropWhile (fun c => decide (c.1 ≤ a))) b = Table.get d m b := by
  induction m with
  | nil => rfl
  | cons c m ih =>
    obtain ⟨k, v⟩ := c
    by_cases hk : k ≤ a
    · rw [List.dropWhile_cons_of_pos (by simpa using hk), ih, Table.get_cons,
        if_neg (by omega), if_neg (by omega)]
    · rw [List.dropWhile_cons_of_neg (by simpa using hk)]

/-- After dropping the entries up to a key, every key up to it is unlisted. -/
theorem Table.get_dropWhile_le (m : Table α) (a b : Nat) (h : b ≤ a) :
    Table.get d (m.dropWhile (fun c => decide (c.1 ≤ a))) b = d := by
  induction m with
  | nil => rfl
  | cons c m ih =>
    obtain ⟨k, v⟩ := c
    by_cases hk : k ≤ a
    · rw [List.dropWhile_cons_of_pos (by simpa using hk), ih]
    · rw [List.dropWhile_cons_of_neg (by simpa using hk), Table.get_cons, if_pos (by omega)]

variable [DecidableEq α]

/-- What a key reads as when an entry for `a` is put before a table whose keys up to `a` are unlisted. -/
theorem Table.get_entry_append (m : Table α) (a b : Nat) (v : α)
    (h : ∀ b ≤ a, Table.get d m b = d) :
    Table.get d (Table.entry d a v ++ m) b = if b = a then v else Table.get d m b := by
  unfold Table.entry
  split
  · next hv =>
    subst hv
    by_cases hb : b = a
    · subst hb; simp [h b]
    · simp [hb]
  · simp only [List.singleton_append, Table.get_cons]
    by_cases hb : b = a
    · simp [hb]
    · by_cases hlt : b < a
      · simp [hlt, hb, h b (by omega)]
      · simp [hlt, hb, Ne.symm hb]

/-- A read after a write: the key written reads the value, every other key reads as before. -/
theorem Table.get_put (m : Table α) (a b : Nat) (v : α) :
    Table.get d (Table.put d m a v) b = if b = a then v else Table.get d m b := by
  induction m with
  | nil =>
    have := Table.get_entry_append d [] a b v (fun _ _ => rfl)
    simpa [Table.put] using this
  | cons c m ih =>
    obtain ⟨k, w⟩ := c
    unfold Table.put
    split
    · next hk =>
      rw [Table.get_cons, ih, Table.get_cons]
      by_cases hb : b = a
      · subst hb; simp [show ¬ b < k by omega, show k ≠ b by omega]
      · simp [hb]
    · next hk =>
      split
      · next hka =>
        subst hka
        rw [Table.get_entry_append d _ k b v (fun b hb => Table.get_dropWhile_le d m k b hb)]
        by_cases hb : b = k
        · simp [hb]
        · rw [if_neg hb, if_neg hb, Table.get_cons]
          by_cases hlt : b < k
          · rw [Table.get_dropWhile_le d m k b (by omega), if_pos hlt]
          · rw [Table.get_dropWhile d m k b (by omega), if_neg hlt, if_neg (Ne.symm hb)]
      · next hka =>
        exact Table.get_entry_append d _ a b v
          (fun b hb => by rw [Table.get_cons, if_pos (by omega)])

/-- Every entry after a write is the one written or an old one. -/
theorem Table.mem_put {m : Table α} {a : Nat} {v : α} {c : Nat × α}
    (h : c ∈ Table.put d m a v) : c = (a, v) ∨ c ∈ m := by
  have entry : ∀ {c : Nat × α}, c ∈ Table.entry d a v → c = (a, v) := by
    intro c hc
    unfold Table.entry at hc
    split at hc <;> simp_all
  induction m with
  | nil => exact .inl (entry h)
  | cons e m ih =>
    obtain ⟨k, w⟩ := e
    unfold Table.put at h
    split at h
    · rcases List.mem_cons.1 h with h | h
      · exact .inr (by simp [h])
      · rcases ih h with h | h
        · exact .inl h
        · exact .inr (List.mem_cons_of_mem _ h)
    · split at h
      · rcases List.mem_append.1 h with h | h
        · exact .inl (entry h)
        · exact .inr (List.mem_cons_of_mem _ ((List.dropWhile_sublist _).subset h))
      · rcases List.mem_append.1 h with h | h
        · exact .inl (entry h)
        · exact .inr h

/-- A write keeps the canonical form. -/
theorem Table.put_wf {m : Table α} (h : Table.Wf d m) (a : Nat) (v : α) :
    Table.Wf d (Table.put d m a v) := by
  refine ⟨?_, ?_⟩
  · have entryBefore : ∀ l : Table α, l.Pairwise (fun x y => x.1 < y.1) → (∀ c ∈ l, a < c.1) →
        (Table.entry d a v ++ l).Pairwise (fun x y => x.1 < y.1) := by
      intro l hl hlow
      unfold Table.entry
      split
      · simpa using hl
      · exact List.pairwise_cons.2 ⟨fun c hc => hlow c hc, hl⟩
    have hp := h.1
    clear h
    induction m with
    | nil => simpa [Table.put] using entryBefore [] List.Pairwise.nil (by simp)
    | cons e m ih =>
      obtain ⟨k, w⟩ := e
      obtain ⟨hk, hm⟩ := List.pairwise_cons.1 hp
      unfold Table.put
      split
      · next hlt =>
        refine List.pairwise_cons.2 ⟨fun c hc => ?_, ih hm⟩
        rcases Table.mem_put d hc with rfl | hc
        · exact hlt
        · exact hk c hc
      · split
        · next hka =>
          subst hka
          refine entryBefore _ (hm.sublist (List.dropWhile_sublist _)) (fun c hc => ?_)
          exact hk c ((List.dropWhile_sublist _).subset hc)
        · next hlt hne =>
          refine entryBefore _ hp (fun c hc => ?_)
          rcases List.mem_cons.1 hc with rfl | hc
          · simp only; omega
          · have := hk c hc; simp only at this; omega
  · by_cases hv : v = d
    · subst hv
      have hne := h.2
      clear h
      induction m with
      | nil => simp [Table.put, Table.entry]
      | cons e m ih =>
        obtain ⟨k, w⟩ := e
        unfold Table.put
        have hm : ∀ c ∈ m, c.2 ≠ v := fun c hc => hne c (List.mem_cons_of_mem _ hc)
        split
        · intro c hc
          rcases List.mem_cons.1 hc with rfl | hc
          · exact hne _ (by simp)
          · exact ih hm c hc
        · split
          · intro c hc
            simp only [Table.entry, if_true, List.nil_append] at hc
            exact hm c ((List.dropWhile_sublist _).subset hc)
          · intro c hc
            simp only [Table.entry, if_true, List.nil_append] at hc
            exact hne c hc
    · intro c hc
      rcases Table.mem_put d hc with rfl | hc
      · exact hv
      · exact h.2 c hc

end

/-! ## Registers kept in tables -/

/-- A CSR reads the value written, every other CSR reads as before (spec 10_state.md R30). -/
theorem readCsr_writeCsr (s : State) (a b : CsrAddr) (v : Word) :
    (s.writeCsr a v).readCsr b = if b = a then v else s.readCsr b := by
  have h := Table.get_put 0#32 s.csrs a.toNat b.toNat v
  simpa [State.readCsr, State.writeCsr, BitVec.toNat_inj] using h

/-- An entry of the break table reads the value written, every other entry reads as before (10_state.md R38). -/
theorem readBrk_writeBrk (s : State) (a b : Word) (v : Word) :
    (s.writeBrk a v).readBrk b = if b = a then v else s.readBrk b := by
  have h := Table.get_put 0#32 s.brkTable a.toNat b.toNat v
  simpa [State.readBrk, State.writeBrk, BitVec.toNat_inj] using h

end Sys2Proof.Machine
end

