-- ==== Sys2Proof/Laws/Memory.lean ====
section
/-! SUPPORT. Memory: bytes and words after a write, the canonical form, addresses and lanes
(spec 20_memory.md, 42_memory_access.md). -/

namespace Sys2Proof.Machine

/-! ## Bytes and words -/

theorem read_write (m : Memory) (a b : Nat) (v : Byte) :
    (m.write a v).read b = if b = a then v else m.read b :=
  Table.get_put unlistedByte m a b v

theorem write_wf {m : Memory} (h : m.wf) (a : Nat) (v : Byte) : (m.write a v).wf :=
  Table.put_wf unlistedByte h a v

/-- A byte after a word write (20_memory.md R59, R60). -/
theorem read_writeWord (m : Memory) (w : Nat) (v : Word) (a : Nat) :
    (m.writeWord w v).read a = if w ≤ a ∧ a < w + 4 then byteOf v (a - w) else m.read a := by
  simp only [Memory.writeWord, read_write]
  by_cases h3 : a = w + 3
  · subst h3; simp
  by_cases h2 : a = w + 2
  · subst h2; simp
  by_cases h1 : a = w + 1
  · subst h1; simp
  by_cases h0 : a = w
  · subst h0; simp
  rw [if_neg h3, if_neg h2, if_neg h1, if_neg h0, if_neg (by omega)]

/-- Every memory operation keeps the canonical form. -/
theorem writeWord_wf {m : Memory} (h : m.wf) (w : Nat) (v : Word) : (m.writeWord w v).wf :=
  write_wf (write_wf (write_wf (write_wf h _ _) _ _) _ _) _ _

theorem load_wf {m : Memory} (h : m.wf) (a : Nat) (bs : List Byte) : (m.load a bs).wf := by
  induction bs generalizing m a with
  | nil => exact h
  | cons b bs ih => exact ih (write_wf h a b) (a + 1)

/-- Every listed byte after a word write is one of the four written or an old one. -/
theorem mem_writeWord {m : Memory} {w : Nat} {v : Word} {c : Host.Cell}
    (h : c ∈ m.writeWord w v) : (w ≤ c.1 ∧ c.1 < w + 4) ∨ c ∈ m := by
  simp only [Memory.writeWord, Memory.write] at h
  rcases Table.mem_put _ h with h | h
  · subst h; simp only; omega
  rcases Table.mem_put _ h with h | h
  · subst h; simp only; omega
  rcases Table.mem_put _ h with h | h
  · subst h; simp only; omega
  rcases Table.mem_put _ h with h | h
  · subst h; simp only; omega
  exact .inr h

/-- The bytes of a word, put together again. -/
theorem wordOfBytes_byteOf (v : Word) :
    wordOfBytes (byteOf v 0) (byteOf v 1) (byteOf v 2) (byteOf v 3) = v := by
  apply BitVec.eq_of_getLsbD_eq
  intro i hi
  simp only [wordOfBytes, byteOf, BitVec.getLsbD_append, BitVec.getLsbD_extractLsb']
  by_cases h1 : i < 8
  · simp [h1]
  by_cases h2 : i - 8 < 8
  · simp [h1, h2, show 8 + (i - 8) = i by omega]
  by_cases h3 : i - 8 - 8 < 8
  · simp [h1, h2, h3, show 16 + (i - 8 - 8) = i by omega]
  · simp [h1, h2, h3, show 24 + (i - 8 - 8 - 8) = i by omega, show i - 8 - 8 - 8 < 8 by omega]

/-- Byte `k` of the word of four bytes (20_memory.md R59). -/
theorem byteOf_wordOfBytes (b0 b1 b2 b3 : Byte) :
    byteOf (wordOfBytes b0 b1 b2 b3) 0 = b0 ∧ byteOf (wordOfBytes b0 b1 b2 b3) 1 = b1
      ∧ byteOf (wordOfBytes b0 b1 b2 b3) 2 = b2 ∧ byteOf (wordOfBytes b0 b1 b2 b3) 3 = b3 := by
  refine ⟨?_, ?_, ?_, ?_⟩ <;>
  · apply BitVec.eq_of_getLsbD_eq
    intro i hi
    simp only [wordOfBytes, byteOf, BitVec.getLsbD_append, BitVec.getLsbD_extractLsb']
    simp [hi, show ¬ 8 + i < 8 by omega, show ¬ 16 + i < 8 by omega, show ¬ 24 + i < 8 by omega,
      show ¬ 16 + i - 8 < 8 by omega, show ¬ 24 + i - 8 < 8 by omega,
      show ¬ 24 + i - 8 - 8 < 8 by omega, show 8 + i - 8 = i by omega,
      show 16 + i - 8 - 8 = i by omega, show 24 + i - 8 - 8 - 8 = i by omega]

/-- Byte `k` of the word at an address is the byte there (20_memory.md R59). -/
theorem byteOf_readWord (m : Memory) (w k : Nat) (hk : k < 4) :
    byteOf (m.readWord w) k = m.read (w + k) := by
  obtain ⟨h0, h1, h2, h3⟩ :=
    byteOf_wordOfBytes (m.read w) (m.read (w + 1)) (m.read (w + 2)) (m.read (w + 3))
  unfold Memory.readWord
  match k, hk with
  | 0, _ => exact h0
  | 1, _ => exact h1
  | 2, _ => exact h2
  | 3, _ => exact h3

/-- A word read after a word write at the same address (20_memory.md R53). -/
theorem readWord_writeWord (m : Memory) (w : Nat) (v : Word) :
    (m.writeWord w v).readWord w = v := by
  unfold Memory.readWord
  simp only [read_writeWord]
  simpa using wordOfBytes_byteOf v

/-! ## Addresses -/

theorem alignDown_eq_shift (a : Word) : alignDown a = (a >>> 2) <<< 2 := by
  apply BitVec.eq_of_getLsbD_eq
  intro i hi
  simp only [alignDown, BitVec.getLsbD_and, BitVec.getLsbD_shiftLeft, BitVec.getLsbD_ushiftRight]
  have : ∀ j < 32, (0xFFFFFFFC#32).getLsbD j = decide (2 ≤ j) := by decide
  rw [this i hi]
  by_cases h : 2 ≤ i
  · simp [h, hi, show ¬ i < 2 by omega, show 2 + (i - 2) = i by omega]
  · simp [h, show i < 2 by omega]

/-- The enclosing word's address (20_memory.md R61). -/
theorem toNat_alignDown (a : Word) : (alignDown a).toNat = 4 * (a.toNat / 4) := by
  rw [alignDown_eq_shift, BitVec.toNat_shiftLeft, BitVec.toNat_ushiftRight, Nat.shiftLeft_eq,
    Nat.shiftRight_eq_div_pow]
  have := a.isLt
  omega

/-- The remainder (20_memory.md R61). -/
theorem remainder_eq (a : Word) : remainder a = a.toNat % 4 := by
  simp [remainder, BitVec.extractLsb'_toNat]

theorem alignDown_add_remainder (a : Word) : (alignDown a).toNat + remainder a = a.toNat := by
  rw [toNat_alignDown, remainder_eq]; omega

theorem remainder_lt (a : Word) : remainder a < 4 := by rw [remainder_eq]; omega

theorem alignDown_of_remainder_zero {a : Word} (h : remainder a = 0) : alignDown a = a := by
  apply BitVec.eq_of_toNat_eq
  have := alignDown_add_remainder a
  omega

/-! ## Lanes -/

theorem getLsbD_laneMask (n i : Nat) : (laneMask n).getLsbD i = (decide (i < 32) && decide (i < 8 * n)) := by
  simp [laneMask, BitVec.getLsbD_ofNat, Nat.testBit_two_pow_sub_one]

/-- One bit of the store merge (42_memory_access.md R193). -/
theorem getLsbD_merge (old v : Word) (n r i : Nat) (hi : i < 32) :
    (merge old v n r).getLsbD i =
      if 8 * r ≤ i ∧ i < 8 * r + 8 * n then v.getLsbD (i - 8 * r) else old.getLsbD i := by
  have hr : i - 8 * r < 32 := by omega
  simp only [merge, BitVec.getLsbD_or, BitVec.getLsbD_and, BitVec.getLsbD_not,
    BitVec.getLsbD_shiftLeft, getLsbD_laneMask, hi, hr]
  by_cases h1 : i < 8 * r
  · simp [h1]
  · by_cases h2 : i - 8 * r < 8 * n
    · have : 8 * r ≤ i ∧ i < 8 * r + 8 * n := by omega
      simp [h1, h2, this]
    · have : ¬ (8 * r ≤ i ∧ i < 8 * r + 8 * n) := by omega
      simp [h1, h2, this]

/-- The bytes of the store merge: the lanes `r` to `r + n - 1` come from the value, the others are kept
(42_memory_access.md R193, R194). -/
theorem byteOf_merge (old v : Word) (n r k : Nat) (hk : k < 4) :
    byteOf (merge old v n r) k = if r ≤ k ∧ k < r + n then byteOf v (k - r) else byteOf old k := by
  apply BitVec.eq_of_getLsbD_eq
  intro i hi
  simp only [byteOf, BitVec.getLsbD_extractLsb', hi]
  rw [getLsbD_merge _ _ _ _ _ (by omega)]
  by_cases h : r ≤ k ∧ k < r + n
  · rw [if_pos (by omega), if_pos h]
    simp [hi, show 8 * k + i - 8 * r = 8 * (k - r) + i by omega]
  · rw [if_neg (by omega), if_neg h]
    simp [hi]

/-- One bit of the lane shift (42_memory_access.md R183). -/
theorem getLsbD_laneShift (w : Word) (r i : Nat) :
    (laneShift w r).getLsbD i = w.getLsbD (8 * r + i) := by
  simp [laneShift, BitVec.getLsbD_ushiftRight]

/-- The low byte of the lane shift is byte `r` of the word (42_memory_access.md R183). -/
theorem laneShift_byte (w : Word) (r : Nat) : (laneShift w r).extractLsb' 0 8 = byteOf w r := by
  apply BitVec.eq_of_getLsbD_eq
  intro i hi
  simp [byteOf, getLsbD_laneShift, hi]

/-! ## Chains -/

theorem inRegion_iff (r : Region) (a : Word) :
    inRegion r a = true ↔ r.base ≤ a.toNat ∧ a.toNat < r.base + r.size := by
  simp [inRegion]

theorem reaches_iff (chain : List Region) (a : Word) :
    reaches chain a = true ↔ ∃ r ∈ chain, r.base ≤ a.toNat ∧ a.toNat < r.base + r.size := by
  simp [reaches, inRegion]

/-- `RegionRead` (20_memory.md R55). -/
theorem regionRead_eq_some {chain : List Region} {m : Memory} {a w : Word} :
    regionRead chain m a = some w ↔ reaches chain a = true ∧ m.readWord a.toNat = w := by
  unfold regionRead; split <;> simp_all

theorem regionRead_eq_none {chain : List Region} {m : Memory} {a : Word} :
    regionRead chain m a = none ↔ reaches chain a = false := by
  unfold regionRead; split <;> simp_all

/-- `RegionWrite` (20_memory.md R55). -/
theorem regionWrite_eq_some {chain : List Region} {m m' : Memory} {a w : Word} :
    regionWrite chain m a w = some m' ↔ reaches chain a = true ∧ m.writeWord a.toNat w = m' := by
  unfold regionWrite; split <;> simp_all

theorem regionWrite_eq_none {chain : List Region} {m : Memory} {a w : Word} :
    regionWrite chain m a w = none ↔ reaches chain a = false := by
  unfold regionWrite; split <;> simp_all

end Sys2Proof.Machine
end

