-- ==== Sys2Proof/Laws/Ops.lean ====
section
/-! SUPPORT. What each shared operation can do, said once: the class handlers, the syscall bridge and the
step. Proofs about instructions cite these and do not unfold the operations. -/

namespace Sys2Proof.Machine

/-! ## Loads (spec 42_memory_access.md R182-R186) -/

section
variable (width : Width) (rd : Reg) (ea : Word) (s : State)

theorem loadAt_unreached (h : reaches (loadChain s.cfg) (alignDown ea) = false) :
    loadAt width rd ea s = .next (raise .dmemError s) := by
  unfold loadAt; rw [regionRead_eq_none.2 h]

theorem loadAt_illegal (h : reaches (loadChain s.cfg) (alignDown ea) = true)
    (hc : crosses width (remainder ea) = true) (hp : s.cfg.crossingLoad = .illegal) :
    loadAt width rd ea s = .next (raise .illegalInst s) := by
  unfold loadAt; rw [regionRead_eq_some.2 ⟨h, rfl⟩]; simp [hc, hp]

/-- The value a load reads from the word that encloses its address. -/
def loadedValue (width : Width) (ea : Word) (m : Memory) : Word :=
  extractLane width (laneShift (m.readWord (alignDown ea).toNat) (remainder ea))

theorem loadAt_done (h : reaches (loadChain s.cfg) (alignDown ea) = true)
    (hc : crosses width (remainder ea) = false ∨ s.cfg.crossingLoad = .truncate) :
    loadAt width rd ea s = .next (s.writeRd rd (loadedValue width ea s.mem)).advance := by
  unfold loadAt loadedValue; rw [regionRead_eq_some.2 ⟨h, rfl⟩]
  rcases hc with hc | hc <;> simp [hc]

/-- Everything a load can do: it always answers a next state. -/
theorem loadAt_cases :
    loadAt width rd ea s = .next (raise .dmemError s) ∨
    loadAt width rd ea s = .next (raise .illegalInst s) ∨
    loadAt width rd ea s = .next (s.writeRd rd (loadedValue width ea s.mem)).advance := by
  cases h : reaches (loadChain s.cfg) (alignDown ea)
  · exact .inl (loadAt_unreached width rd ea s h)
  · cases hc : crosses width (remainder ea)
    · exact .inr (.inr (loadAt_done width rd ea s h (.inl hc)))
    · cases hp : s.cfg.crossingLoad
      · exact .inr (.inr (loadAt_done width rd ea s h (.inr hp)))
      · exact .inr (.inl (loadAt_illegal width rd ea s h hc hp))

end

/-! ## Stores (R192-R194) -/

section
variable (width : Width) (v ea : Word) (s : State)

theorem storeAt_unreached (h : reaches (storeChain s.cfg) (alignDown ea) = false) :
    storeAt width v ea s = .next (raise .dmemError s) := by
  unfold storeAt; rw [regionRead_eq_none.2 h]

theorem storeAt_illegal (h : reaches (storeChain s.cfg) (alignDown ea) = true)
    (hc : crosses width (remainder ea) = true) (hp : s.cfg.crossingStore = .illegal) :
    storeAt width v ea s = .next (raise .illegalInst s) := by
  unfold storeAt; rw [regionRead_eq_some.2 ⟨h, rfl⟩]; simp [hc, hp]

/-- Memory after a store at `ea`. -/
def storedMemory (width : Width) (v ea : Word) (m : Memory) : Memory :=
  m.writeWord (alignDown ea).toNat
    (merge (m.readWord (alignDown ea).toNat) v (widthBytes width) (remainder ea))

theorem storeAt_done (h : reaches (storeChain s.cfg) (alignDown ea) = true)
    (hc : crosses width (remainder ea) = false ∨ s.cfg.crossingStore = .truncate) :
    storeAt width v ea s = .next (s.setMem (storedMemory width v ea s.mem)).advance := by
  unfold storeAt storedMemory; rw [regionRead_eq_some.2 ⟨h, rfl⟩]
  simp only [regionWrite_eq_some.2 ⟨h, rfl⟩]
  rcases hc with hc | hc <;> simp [hc]

/-- Everything a store can do: it always answers a next state. -/
theorem storeAt_cases :
    storeAt width v ea s = .next (raise .dmemError s) ∨
    storeAt width v ea s = .next (raise .illegalInst s) ∨
    reaches (storeChain s.cfg) (alignDown ea) = true ∧
      storeAt width v ea s = .next (s.setMem (storedMemory width v ea s.mem)).advance := by
  cases h : reaches (storeChain s.cfg) (alignDown ea)
  · exact .inl (storeAt_unreached width v ea s h)
  · cases hc : crosses width (remainder ea)
    · exact .inr (.inr ⟨rfl, storeAt_done width v ea s h (.inl hc)⟩)
    · cases hp : s.cfg.crossingStore
      · exact .inr (.inr ⟨rfl, storeAt_done width v ea s h (.inr hp)⟩)
      · exact .inr (.inl (storeAt_illegal width v ea s h hc hp))

/-- Every byte of memory after a store (R193, R194; 20_memory.md R60): the bytes at the address, inside its
aligned word, come from the value; every other byte is as before. -/
theorem read_storedMemory (m : Memory) (a : Nat) :
    (storedMemory width v ea m).read a =
      if ea.toNat ≤ a ∧ a < ea.toNat + widthBytes width ∧ a < (alignDown ea).toNat + 4
      then byteOf v (a - ea.toNat) else m.read a := by
  have hr := alignDown_add_remainder ea
  unfold storedMemory
  rw [read_writeWord]
  by_cases hin : (alignDown ea).toNat ≤ a ∧ a < (alignDown ea).toNat + 4
  · rw [if_pos hin, byteOf_merge _ _ _ _ _ (by omega), byteOf_readWord _ _ _ (by omega)]
    by_cases hl : ea.toNat ≤ a ∧ a < ea.toNat + widthBytes width
    · rw [if_pos (by omega), if_pos (by omega)]
      congr 1
      omega
    · rw [if_neg (by omega), if_neg (by omega)]
      congr 1
      omega
  · rw [if_neg hin, if_neg (by omega)]

end

/-! ## Control transfer (43_control.md R210) -/

section
variable (link : Option Reg) (target : Word) (s : State)

theorem transfer_self (h : target = s.pc) :
    transfer link target s = .next (raise .completion (linkTo link s)) := by
  unfold transfer; rw [if_pos h]

theorem transfer_away (h : target ≠ s.pc) :
    transfer link target s = .next ((linkTo link s).setPc target) := by
  unfold transfer; rw [if_neg h]

@[simp] theorem linkTo_none : linkTo none s = s := rfl
@[simp] theorem linkTo_some (rd : Reg) : linkTo (some rd) s = s.writeRd rd (s.pc + 4#32) := rfl

end

/-! ## CSR access (44_csr_system.md R234) -/

section
variable (op : CsrOp) (rd : Reg) (a : CsrAddr) (opd : Word) (s : State)

theorem csrAccess_unbacked (h : csrBacked s.cfg a = false) :
    csrAccess op rd a opd s = .next (raise .illegalInst s) := by
  unfold csrAccess; simp [h]

theorem csrAccess_write (h : csrBacked s.cfg a = true) :
    csrAccess .write rd a opd s
      = .next ((s.writeRd rd (s.readCsr a)).writeCsr a opd).advance := by
  unfold csrAccess; simp [h]

theorem csrAccess_set (h : csrBacked s.cfg a = true) :
    csrAccess .set rd a opd s
      = .next ((s.writeRd rd (s.readCsr a)).writeCsr a (s.readCsr a ||| opd)).advance := by
  unfold csrAccess; simp [h]

theorem csrAccess_clear (h : csrBacked s.cfg a = true) :
    csrAccess .clear rd a opd s = .next (raise .illegalInst (s.writeRd rd (s.readCsr a))) := by
  unfold csrAccess; simp [h]

/-- Everything a CSR access can do: it always answers a next state. -/
theorem csrAccess_cases :
    csrAccess op rd a opd s = .next (raise .illegalInst s) ∨
    csrBacked s.cfg a = true ∧
      ((op ≠ .clear ∧ ∃ v, csrAccess op rd a opd s
          = .next ((s.writeRd rd (s.readCsr a)).writeCsr a v).advance) ∨
       (op = .clear ∧ csrAccess op rd a opd s
          = .next (raise .illegalInst (s.writeRd rd (s.readCsr a))))) := by
  cases h : csrBacked s.cfg a
  · exact .inl (csrAccess_unbacked op rd a opd s h)
  · refine .inr ⟨rfl, ?_⟩
    cases op
    · exact .inl ⟨by decide, _, csrAccess_write rd a opd s h⟩
    · exact .inl ⟨by decide, _, csrAccess_set rd a opd s h⟩
    · exact .inr ⟨rfl, csrAccess_clear rd a opd s h⟩

end

/-! ## The syscall bridge (45_syscalls.md) -/

/-- The bytes a write reads are memory's, in order, and every access finds a region (R271). -/
theorem gatherBytes_eq_some {c : Config} {m : Memory} {a : Word} {n : Nat} {l : List (Word × Byte)} :
    gatherBytes c m a n = some l ↔
      (∀ k < n, reaches (syscallChain c) (alignDown (a + BitVec.ofNat 32 k)) = true) ∧
      l = (List.range n).map (fun k =>
        (m.readWord (alignDown (a + BitVec.ofNat 32 k)).toNat, m.read (a + BitVec.ofNat 32 k).toNat)) := by
  induction n generalizing a l with
  | zero => constructor <;> intro h <;> simp_all [gatherBytes]
  | succ n ih =>
    have hbyte : (laneShift (m.readWord (alignDown a).toNat) (remainder a)).extractLsb' 0 8
        = m.read a.toNat := by
      rw [laneShift_byte, byteOf_readWord _ _ _ (remainder_lt a), alignDown_add_remainder]
    have hnext : ∀ k : Nat, a + 1#32 + BitVec.ofNat 32 k = a + BitVec.ofNat 32 (k + 1) := by
      intro k
      apply BitVec.eq_of_toNat_eq
      simp only [BitVec.toNat_add, BitVec.toNat_ofNat]
      omega
    have hall : (∀ k < n + 1, reaches (syscallChain c) (alignDown (a + BitVec.ofNat 32 k)) = true) ↔
        reaches (syscallChain c) (alignDown a) = true ∧
        ∀ k < n, reaches (syscallChain c) (alignDown (a + 1#32 + BitVec.ofNat 32 k)) = true := by
      constructor
      · intro h
        refine ⟨by simpa using h 0 (by omega), fun k hk => ?_⟩
        rw [hnext]; exact h (k + 1) (by omega)
      · rintro ⟨h0, h⟩ k hk
        cases k with
        | zero => simpa using h0
        | succ k => rw [← hnext]; exact h k (by omega)
    rw [hall, List.range_succ_eq_map]
    unfold gatherBytes
    cases hr : reaches (syscallChain c) (alignDown a)
    · simp [regionRead_eq_none.2 hr]
    · rw [regionRead_eq_some.2 ⟨hr, rfl⟩]
      cases hg : gatherBytes c m (a + 1#32) n with
      | none =>
        have : ¬ ∀ k < n, reaches (syscallChain c) (alignDown (a + 1#32 + BitVec.ofNat 32 k)) = true := by
          intro h
          have := ih.2 ⟨h, rfl⟩
          simp [hg] at this
        simp [this]
      | some rest =>
        obtain ⟨h1, h2⟩ := ih.1 hg
        simp only [hnext] at h2
        simp only [hbyte, Option.some.injEq, List.map_cons, List.map_map, h2, true_and,
          Function.comp_def, Nat.succ_eq_add_one, BitVec.add_zero]
        constructor
        · rintro rfl; exact ⟨h1, rfl⟩
        · rintro ⟨-, rfl⟩; rfl

/-- What `scatterBytes` leaves in memory is bytes of memory written one after another (R273). -/
theorem scatterBytes_induct {c : Config} {P : Memory → Prop}
    (hstep : ∀ (m : Memory) (a : Word) (b : Byte), P m → reaches (syscallChain c) (alignDown a) = true →
      P (m.writeWord (alignDown a).toNat
        (merge (m.readWord (alignDown a).toNat) (BitVec.setWidth 32 b) 1 (remainder a))))
    {m m' : Memory} {a : Word} {bs : List Byte} (h : scatterBytes c m a bs = some m') (hm : P m) :
    P m' := by
  induction bs generalizing m a with
  | nil => simp only [scatterBytes, Option.some.injEq] at h; exact h ▸ hm
  | cons b bs ih =>
    unfold scatterBytes at h
    cases hr : reaches (syscallChain c) (alignDown a)
    · simp [regionRead_eq_none.2 hr] at h
    · rw [regionRead_eq_some.2 ⟨hr, rfl⟩] at h
      simp only [regionWrite_eq_some.2 ⟨hr, rfl⟩] at h
      exact ih h (hstep m a b hm hr)

/-- One byte stored through its aligned word (R265). -/
theorem read_storeByte (m : Memory) (a : Word) (b : Byte) (x : Nat) :
    (m.writeWord (alignDown a).toNat
      (merge (m.readWord (alignDown a).toNat) (BitVec.setWidth 32 b) 1 (remainder a))).read x
      = if x = a.toNat then b else m.read x := by
  have h := read_storedMemory .byte (BitVec.setWidth 32 b) a m x
  have hd := alignDown_add_remainder a
  have hr := remainder_lt a
  have hw : widthBytes .byte = 1 := rfl
  refine Eq.trans h ?_
  by_cases hx : x = a.toNat
  · rw [if_pos (by omega), if_pos hx, hx]
    apply BitVec.eq_of_getLsbD_eq; intro i hi
    simp [byteOf, hi, show i < 32 by omega]
  · rw [if_neg (by omega), if_neg hx]

/-- The bytes a read stores, when every one of them finds its region (R273). -/
theorem scatterBytes_reached {c : Config} {m : Memory} {a : Word} {bs : List Byte}
    (h : ∀ k < bs.length, reaches (syscallChain c) (alignDown (a + BitVec.ofNat 32 k)) = true)
    (hlen : bs.length ≤ 2 ^ 32) :
    ∃ m', scatterBytes c m a bs = some m'
      ∧ (∀ x : Word, m'.read x.toNat = bs.getD (x - a).toNat (m.read x.toNat))
      ∧ ∀ x : Nat, 2 ^ 32 ≤ x → m'.read x = m.read x := by
  induction bs generalizing m a with
  | nil => exact ⟨m, rfl, fun x => by simp, fun _ _ => rfl⟩
  | cons b bs ih =>
    simp only [List.length_cons] at h hlen
    have h0 : reaches (syscallChain c) (alignDown a) = true := by simpa using h 0 (by omega)
    have hnext : ∀ k : Nat, a + 1#32 + BitVec.ofNat 32 k = a + BitVec.ofNat 32 (k + 1) := by
      intro k
      apply BitVec.eq_of_toNat_eq
      simp only [BitVec.toNat_add, BitVec.toNat_ofNat]
      omega
    obtain ⟨m', hm, hin, hout⟩ := ih (m := m.writeWord (alignDown a).toNat
        (merge (m.readWord (alignDown a).toNat) (BitVec.setWidth 32 b) 1 (remainder a))) (a := a + 1#32)
      (fun k hk => by rw [hnext]; exact h (k + 1) (by omega)) (by omega)
    refine ⟨m', ?_, fun x => ?_, fun x hx => ?_⟩
    · unfold scatterBytes
      rw [regionRead_eq_some.2 ⟨h0, rfl⟩]
      simp only [regionWrite_eq_some.2 ⟨h0, rfl⟩]
      exact hm
    · rw [hin, read_storeByte]
      have hsub : (x - (a + 1#32)).toNat = (2 ^ 32 - (a.toNat + 1) % 2 ^ 32 + x.toNat) % 2 ^ 32 := by
        simp [BitVec.toNat_sub, BitVec.toNat_add]
      have hsub' : (x - a).toNat = (2 ^ 32 - a.toNat + x.toNat) % 2 ^ 32 := by simp [BitVec.toNat_sub]
      have hxl := x.isLt
      have hal := a.isLt
      by_cases hx : x.toNat = a.toNat
      · have e0 : (x - a).toNat = 0 := by omega
        have e1 : (x - (a + 1#32)).toNat = 2 ^ 32 - 1 := by omega
        rw [e0, e1, if_pos hx, List.getD_eq_default _ _ (by omega)]
        rfl
      · have e1 : (x - a).toNat = (x - (a + 1#32)).toNat + 1 := by omega
        rw [e1, if_neg hx, List.getD_cons_succ]
    · rw [hout x hx, read_storeByte, if_neg (by have := a.isLt; omega)]

/-- A read that meets an address outside the chain finds no region for it (R265). -/
theorem scatterBytes_not_reached {c : Config} {m : Memory} {a : Word} {bs : List Byte}
    (h : ∃ k < bs.length, reaches (syscallChain c) (alignDown (a + BitVec.ofNat 32 k)) = false) :
    scatterBytes c m a bs = none := by
  induction bs generalizing m a with
  | nil => obtain ⟨k, hk, -⟩ := h; simp at hk
  | cons b bs ih =>
    obtain ⟨k, hk, hr⟩ := h
    unfold scatterBytes
    cases h0 : reaches (syscallChain c) (alignDown a)
    · rw [regionRead_eq_none.2 h0]
    · rw [regionRead_eq_some.2 ⟨h0, rfl⟩]
      simp only [regionWrite_eq_some.2 ⟨h0, rfl⟩]
      cases k with
      | zero => simp [h0] at hr
      | succ k =>
        refine ih ⟨k, by simpa using hk, ?_⟩
        rw [show a + 1#32 + BitVec.ofNat 32 k = a + BitVec.ofNat 32 (k + 1) by
          apply BitVec.eq_of_toNat_eq
          simp only [BitVec.toNat_add, BitVec.toNat_ofNat]
          omega]
        exact hr

/-- What ECALL answers when the bridge meets an address outside its chain (R265). -/
def ecallMemFail (s : State) : Result :=
  match s.cfg.syscallMemFail with
  | .refuse => .next (markRefused s.advance)
  | .error => .next (raise .osError s.advance)

/-- The bytes the read syscall stores for a line (R273). -/
def lineBytes (s : State) (line : List Byte) : List Byte :=
  formatLine s.cfg.readLineFormat (s.readReg regA2).toNat line ++ s.cfg.readLineFormat.terminator.toList

/-- Everything ECALL can do, by service (44_csr_system.md R231). -/
theorem execEcall_cases (s : State) :
    (serviceOf s.cfg.sysNum (s.readReg regA7) = none ∧ execEcall s = .next (raise .osError s.advance)) ∨
    ((serviceOf s.cfg.sysNum (s.readReg regA7) = some .fstat
        ∨ serviceOf s.cfg.sysNum (s.readReg regA7) = some .close
        ∨ serviceOf s.cfg.sysNum (s.readReg regA7) = some .lseek) ∧ execEcall s = .next s.advance) ∨
    (serviceOf s.cfg.sysNum (s.readReg regA7) = some .exit
      ∧ execEcall s = .next (raise .completion s.advance)) ∨
    (serviceOf s.cfg.sysNum (s.readReg regA7) = some .brk ∧ execEcall s = .next (sysBrk s.advance)) ∨
    (serviceOf s.cfg.sysNum (s.readReg regA7) = some .write ∧
      (gatherBytes s.cfg s.mem (s.readReg regA1) (s.readReg regA2).toNat = none
          ∧ execEcall s = ecallMemFail s ∨
        ∃ got, gatherBytes s.cfg s.mem (s.readReg regA1) (s.readReg regA2).toNat = some got
          ∧ execEcall s = .next ((s.advance.emit (emittedBytes s.cfg s.draws got)).setReg regA0
              (Config.freeWriteResult s.draws)).countDraw)) ∨
    (serviceOf s.cfg.sysNum (s.readReg regA7) = some .read ∧
      (s.consoleIn = [] ∧ execEcall s = .fault .consoleInputWait ∨
        ∃ line rest, s.consoleIn = line :: rest ∧
          (scatterBytes s.cfg s.mem (s.readReg regA1) (lineBytes s line) = none
              ∧ execEcall s = ecallMemFail s ∨
            ∃ m, scatterBytes s.cfg s.mem (s.readReg regA1) (lineBytes s line) = some m
              ∧ execEcall s = .next ((((s.advance).setMem m).dropLine).setReg regA0
                  (readResult s.draws (formatLine s.cfg.readLineFormat (s.readReg regA2).toNat
                    line))).countDraw))) := by
  have hfail : (match memFail s.advance with
      | .ok t => Host.Outcome.next t
      | .error t => .next (raise .osError t)
      | .exited t => .next (raise .completion t)
      | .refuse t => .next (markRefused t)
      | .wait => .fault .consoleInputWait) = ecallMemFail s := by
    unfold memFail ecallMemFail
    rw [show s.advance.cfg.syscallMemFail = s.cfg.syscallMemFail from rfl]
    cases s.cfg.syscallMemFail <;> rfl
  unfold execEcall bridge
  rw [show serviceOf s.advance.cfg.sysNum (s.advance.readReg regA7)
    = serviceOf s.cfg.sysNum (s.readReg regA7) from rfl]
  cases serviceOf s.cfg.sysNum (s.readReg regA7) with
  | none => exact .inl ⟨rfl, rfl⟩
  | some sv =>
    cases sv
    case fstat => exact .inr (.inl ⟨.inl rfl, rfl⟩)
    case close => exact .inr (.inl ⟨.inr (.inl rfl), rfl⟩)
    case lseek => exact .inr (.inl ⟨.inr (.inr rfl), rfl⟩)
    case exit => exact .inr (.inr (.inl ⟨rfl, rfl⟩))
    case brk => exact .inr (.inr (.inr (.inl ⟨rfl, rfl⟩)))
    case write =>
      refine .inr (.inr (.inr (.inr (.inl ⟨rfl, ?_⟩))))
      simp only [sysWrite, advance_cfg, advance_mem, readReg_advance]
      cases gatherBytes s.cfg s.mem (s.readReg regA1) (s.readReg regA2).toNat with
      | none => exact .inl ⟨rfl, hfail⟩
      | some got => exact .inr ⟨got, rfl, rfl⟩
    case read =>
      refine .inr (.inr (.inr (.inr (.inr ⟨rfl, ?_⟩))))
      simp only [sysRead, advance_cfg, advance_mem, readReg_advance, advance_consoleIn, lineBytes]
      cases s.consoleIn with
      | nil => exact .inl ⟨rfl, rfl⟩
      | cons line rest =>
        refine .inr ⟨line, rest, rfl, ?_⟩
        simp only
        cases scatterBytes s.cfg s.mem (s.readReg regA1)
            (formatLine s.cfg.readLineFormat (s.readReg regA2).toNat line
              ++ s.cfg.readLineFormat.terminator.toList) with
        | none => exact .inl ⟨rfl, hfail⟩
        | some m => exact .inr ⟨m, rfl, rfl⟩

/-- Which number asks for which service, when the seven numbers differ (R261). -/
theorem serviceOf_eq_some {n : SysNums} (h : n.all.Nodup) (a : Word) :
    (serviceOf n a = some .fstat ↔ a = n.fstat) ∧ (serviceOf n a = some .brk ↔ a = n.brk)
      ∧ (serviceOf n a = some .write ↔ a = n.write) ∧ (serviceOf n a = some .close ↔ a = n.close)
      ∧ (serviceOf n a = some .exit ↔ a = n.exit) ∧ (serviceOf n a = some .read ↔ a = n.read)
      ∧ (serviceOf n a = some .lseek ↔ a = n.lseek) := by
  simp only [SysNums.all, List.nodup_cons, List.mem_cons, List.not_mem_nil, or_false, not_or] at h
  unfold serviceOf
  by_cases h1 : a = n.fstat
  · simp_all
  by_cases h2 : a = n.brk
  · simp_all
  by_cases h3 : a = n.write
  · simp_all
  by_cases h4 : a = n.close
  · simp_all
  by_cases h5 : a = n.exit
  · simp_all
  by_cases h6 : a = n.read
  · simp_all
  by_cases h7 : a = n.lseek <;> simp_all

/-- A number off the allowlist asks for nothing (R266). -/
theorem serviceOf_eq_none {n : SysNums} {a : Word} : serviceOf n a = none ↔ a ∉ n.all := by
  unfold serviceOf SysNums.all
  split_ifs <;> simp_all

/-! ## The step (40_engine.md R119) -/

/-- The numeric form of the outcome of a step: what a next state of it is. -/
theorem step_next_cases {s t : State} (h : step s = .next t) :
    (s.status = .noException ∧ s.refused = false) ∧
    ((fetch s = .refuse ∧ t = markRefused s) ∨
     (fetch s = .imemError ∧ t = raise .imemError s) ∨
     ∃ w, fetch s = .word w ∧
      ((instrAt s.cfg w = none ∧ t = raise .illegalInst s) ∨
       ∃ i u, instrAt s.cfg w = some i ∧ exec i s = .next u ∧ t = retire s.pc w i.cls u)) := by
  unfold step stepWith at h
  split at h
  · cases h
  · next hs =>
    split at h
    · cases h
    · next hr =>
      refine ⟨⟨by simpa using hs, by simpa using hr⟩, ?_⟩
      cases hf : fetch s with
      | refuse =>
        rw [hf] at h; simp only [Host.Outcome.next.injEq] at h
        exact .inl ⟨rfl, h.symm⟩
      | imemError =>
        rw [hf] at h; simp only [Host.Outcome.next.injEq] at h
        exact .inr (.inl ⟨rfl, h.symm⟩)
      | word w =>
        rw [hf] at h; simp only at h
        refine .inr (.inr ⟨w, rfl, ?_⟩)
        cases hi : instrAt s.cfg w with
        | none =>
          rw [hi] at h; simp only [Host.Outcome.next.injEq] at h
          exact .inl ⟨rfl, h.symm⟩
        | some i =>
          rw [hi] at h; simp only at h
          cases he : exec i s with
          | next u =>
            rw [he] at h; simp only [mapNext, Host.Outcome.next.injEq] at h
            exact .inr ⟨i, u, rfl, he, h.symm⟩
          | fault r => rw [he] at h; simp [mapNext] at h
          | refused r => rw [he] at h; simp [mapNext] at h

/-- The configuration's decoder answers only what the decoder answers (30_encoding.md R94). -/
theorem instrAt_some {c : Config} {w : Word} {i : Instr} (h : instrAt c w = some i) :
    decode w = .ok i := by
  unfold instrAt at h
  cases hd : decode w with
  | error e => simp [hd] at h
  | ok j =>
    simp only [hd] at h
    split at h
    · cases h
    · simp only [Option.some.injEq] at h; rw [h]

end Sys2Proof.Machine
end

