-- ==== Sys2Proof/Laws/Frames.lean ====
section
/-! SUPPORT. The frames of Sys2Proof/Safety.lean met by the shared operations: what each class handler leaves,
said once. -/

namespace Sys2Proof.Machine

/-- The enclosing word's address lies in a region of the chain (spec 20_memory.md R55). -/
theorem reaches_alignDown (chain : List Region) (ea : Word) :
    reaches chain (alignDown ea) = true ↔ Reaches chain ea := by
  rw [reaches_iff]; simp [Reaches, toNat_alignDown]

theorem not_reaches_alignDown (chain : List Region) (ea : Word) :
    reaches chain (alignDown ea) = false ↔ ¬ Reaches chain ea := by
  rw [← reaches_alignDown]; simp

/-- An aligned address is its own enclosing word. -/
theorem alignDown_of_aligned {a : Word} (h : a.toNat % 4 = 0) : alignDown a = a :=
  alignDown_of_remainder_zero (by rw [remainder_eq]; exact h)

/-- A step of a live machine, with its two guards done (40_engine.md R119). -/
theorem step_of_live {s : State} (h : s.live) :
    step s = match fetch s with
      | .refuse => .next (markRefused s)
      | .imemError => .next (raise .imemError s)
      | .word w =>
        match instrAt s.cfg w with
        | none => .next (raise .illegalInst s)
        | some i => mapNext (retire s.pc w i.cls) (exec i s) := by
  unfold step stepWith
  rw [if_neg (by simp [h.1]), if_neg (by simp [h.2])] <;> rfl

/-- A fetch that finds a word (R111). -/
theorem fetchAt_of_reaches {s : State} {a : Word} (h : reaches (fetchChain s.cfg s.vmFetch) a = true) :
    fetchAt s a = .word (s.mem.readWord a.toNat) := by
  unfold fetchAt; rw [regionRead_eq_some.2 ⟨h, rfl⟩]

theorem fetchAt_of_not_reaches {s : State} {a : Word} (h : reaches (fetchChain s.cfg s.vmFetch) a = false) :
    fetchAt s a = .imemError := by
  unfold fetchAt; rw [regionRead_eq_none.2 h]

theorem fetch_of_aligned {s : State} (h : s.pc.toNat % 4 = 0) : fetch s = fetchAt s s.pc := by
  unfold fetch; rw [if_pos (by rw [remainder_eq]; exact h)]

theorem regsUpdated_writeRd (s : State) (rd : Reg) (v : Word) : RegsUpdated s (s.writeRd rd v) rd v :=
  fun _ => readReg_writeRd _ _ _ _

/-- ALU instructions and loads (41_alu.md R140, 42_memory_access.md R185). -/
theorem writesRd_writeRd_advance (s : State) (rd : Reg) (v : Word) :
    WritesRd s (s.writeRd rd v).advance rd v := by
  refine ⟨fun r => ?_, rfl, ?_, ?_, ?_, ?_, ?_, ?_, ?_⟩ <;>
    simp [SameCsrs, SameMemory, SameBrk, SameEngine, SameConsole, readReg_writeRd]

/-- CSR instructions that go on (44_csr_system.md R234). -/
theorem writesCsr_csrAccess (s : State) (rd : Reg) (a : CsrAddr) (v : Word) :
    WritesCsr s ((s.writeRd rd (s.readCsr a)).writeCsr a v).advance rd a v := by
  refine ⟨fun r => ?_, fun b => ?_, rfl, ?_, ?_, ?_, ?_, ?_, ?_⟩ <;>
    simp [SameMemory, SameBrk, SameEngine, SameConsole, readReg_writeRd, readCsr_writeCsr]

/-- Jumps and branches (43_control.md R210). -/
theorem transfer_jumps (link : Option Reg) (target : Word) (s : State) :
    ∃ t, transfer link target s = .next t ∧ Jumps s t target
      ∧ t.wb = (linkTo link s).wb ∧ (∀ r, t.readReg r = (linkTo link s).readReg r) := by
  by_cases h : target = s.pc
  · refine ⟨_, transfer_self link target s h, ⟨?_, ?_, ?_, ?_, ?_, ?_, ?_⟩, rfl, fun _ => rfl⟩ <;>
      cases link <;> simp [SameCsrs, SameMemory, SameBrk, SameEngine, SameConsole, h]
  · refine ⟨_, transfer_away link target s h, ⟨?_, ?_, ?_, ?_, ?_, ?_, ?_⟩, rfl, fun _ => rfl⟩ <;>
      cases link <;> simp [SameCsrs, SameMemory, SameBrk, SameEngine, SameConsole, h]

/-- A store that its chain answers, with the lanes its word holds (42_memory_access.md R193, R194). -/
theorem storesBytes_storedMemory (s : State) (width : Width) (v ea : Word) (n : Nat)
    (hn : n = min (widthBytes width) (4 - ea.toNat % 4)) :
    StoresBytes s (s.setMem (storedMemory width v ea s.mem)).advance ea n v := by
  refine ⟨fun a => ?_, fun _ => rfl, rfl, rfl, rfl, fun _ => rfl, fun _ => rfl, ⟨rfl, rfl, rfl, rfl, rfl, rfl⟩,
    rfl, rfl, rfl⟩
  have h := read_storedMemory width v ea s.mem a
  have hd := alignDown_add_remainder ea
  rw [remainder_eq] at hd
  simp only [advance_mem, setMem_mem, h]
  have e : (ea.toNat ≤ a ∧ a < ea.toNat + widthBytes width ∧ a < (alignDown ea).toNat + 4)
      ↔ (ea.toNat ≤ a ∧ a < ea.toNat + n) := by omega
  by_cases hc : ea.toNat ≤ a ∧ a < ea.toNat + n
  · rw [if_pos hc, if_pos (e.2 hc)]
  · rw [if_neg hc, if_neg (fun h => hc (e.1 h))]

/-! ## The bytes a load reads (20_memory.md R59, 42_memory_access.md R183) -/

theorem littleEndian_lt (m : Memory) (ea n : Nat) : littleEndian m ea n < 2 ^ (8 * n) := by
  induction n generalizing ea with
  | zero => simp [littleEndian]
  | succ n ih =>
    have h := ih (ea + 1)
    have hb := (m.read ea).isLt
    rw [littleEndian, show 8 * (n + 1) = 8 + 8 * n by ring, Nat.pow_add]
    simp only [Nat.reducePow] at hb ⊢
    omega

theorem testBit_littleEndian (m : Memory) (ea n j : Nat) :
    (littleEndian m ea n).testBit j = (decide (j < 8 * n) && (m.read (ea + j / 8)).getLsbD (j % 8)) := by
  induction n generalizing ea j with
  | zero => simp [littleEndian]
  | succ n ih =>
    have hb := (m.read ea).isLt
    rw [littleEndian, show (256 : Nat) = 2 ^ 8 by rfl, Nat.add_comm,
      Nat.testBit_two_pow_mul_add _ (by simpa using hb)]
    by_cases h : j < 8
    · rw [if_pos h]
      simp [Nat.div_eq_of_lt h, Nat.mod_eq_of_lt h, BitVec.getLsbD, show j < 8 * (n + 1) by omega]
    · rw [if_neg h, ih]
      have h1 : (j - 8) / 8 + 1 = j / 8 := by omega
      have h2 : (j - 8) % 8 = j % 8 := by omega
      rw [h2, show ea + 1 + (j - 8) / 8 = ea + j / 8 by omega]
      congr 1
      exact decide_eq_decide.2 (by omega)

/-- The bits of the shifted word are memory's bytes from the address on, zeros beyond the word (R183, R186). -/
theorem laneShift_readWord (m : Memory) (ea : Word) :
    laneShift (m.readWord (alignDown ea).toNat) (remainder ea)
      = BitVec.ofNat 32 (littleEndian m ea.toNat (4 - ea.toNat % 4)) := by
  apply BitVec.eq_of_getLsbD_eq; intro j hj
  have hd := alignDown_add_remainder ea
  have hr := remainder_lt ea
  have hre := remainder_eq ea
  rw [getLsbD_laneShift, BitVec.getLsbD_ofNat, testBit_littleEndian, ← hre]
  by_cases hin : 8 * remainder ea + j < 32
  · have hk : (8 * remainder ea + j) / 8 < 4 := by omega
    have hb := byteOf_readWord m (alignDown ea).toNat _ hk
    have : (m.readWord (alignDown ea).toNat).getLsbD (8 * remainder ea + j)
        = (byteOf (m.readWord (alignDown ea).toNat) ((8 * remainder ea + j) / 8)).getLsbD (j % 8) := by
      rw [byteOf, BitVec.getLsbD_extractLsb']
      simp only [show j % 8 < 8 by omega, decide_true, Bool.true_and]
      congr 1; omega
    rw [this, hb, show (alignDown ea).toNat + (8 * remainder ea + j) / 8 = ea.toNat + j / 8 by omega]
    simp [hj, show j < 8 * (4 - remainder ea) by omega]
  · rw [BitVec.getLsbD_of_ge _ _ (by omega)]
    simp [show ¬ j < 8 * (4 - remainder ea) by omega]

end Sys2Proof.Machine
end

