-- ==== Sys2Proof/Laws/Exec.lean ====
section
/-! SUPPORT. Everything `exec` can do, said once: which shared operation each instruction is. Whole-machine
statements cite this and the `_cases` lemmas of Sys2Proof/Laws/Ops.lean instead of splitting 46 arms. -/

namespace Sys2Proof.Machine

/-- Bit 0 of a sum of two even words is clear. -/
theorem even_add {a b : Word} (ha : a.getLsbD 0 = false) (hb : b.getLsbD 0 = false) :
    (a + b).getLsbD 0 = false := by
  simp only [BitVec.getLsbD, Nat.testBit_zero, decide_eq_false_iff_not, BitVec.toNat_add] at *
  omega

theorem even_immB {off : BitVec 13} (h : evenB off = true) : (immB off).getLsbD 0 = false := by
  have h0 : off[0] = false := by simpa [evenB, ← BitVec.getLsbD_eq_getElem] using h
  unfold immB; rw [BitVec.getLsbD_signExtend]; simp [h0]

theorem even_immJ {off : BitVec 21} (h : evenJ off = true) : (immJ off).getLsbD 0 = false := by
  have h0 : off[0] = false := by simpa [evenJ, ← BitVec.getLsbD_eq_getElem] using h
  unfold immJ; rw [BitVec.getLsbD_signExtend]; simp [h0]

theorem even_branchTarget {c : Cond} {rs1 rs2 : Reg} {off : BitVec 13} {s : State}
    (hoff : evenB off = true) (hpc : s.pc.getLsbD 0 = false) :
    (branchTarget c rs1 rs2 off s).getLsbD 0 = false := by
  unfold branchTarget
  split
  · exact even_add hpc (even_immB hoff)
  · exact even_add hpc (by decide)

/-- The operation an instruction is (40_engine.md R115). -/
theorem exec_shape (i : Instr) (s : State) :
    (i.cls = .alu ∧ ∃ rd v, destRd i = some rd ∧ exec i s = .next (s.writeRd rd v).advance) ∨
    (∃ width rd ea, i.cls = .mem ∧ loadAccess s i = some (ea, widthBytes width) ∧ destRd i = some rd
      ∧ exec i s = loadAt width rd ea s) ∨
    (∃ width v ea, i.cls = .mem ∧ storeAccess s i = some (ea, widthBytes width)
      ∧ exec i s = storeAt width v ea s) ∨
    (i.cls = .ctrl ∧ ∃ target, exec i s = transfer (destRd i) target s
      ∧ (i.WellFormed → s.pc.getLsbD 0 = false → target.getLsbD 0 = false)) ∨
    (∃ op rd a opd, i.cls = .csr ∧ csrOf i = some a ∧ destRd i = some rd ∧ (IsCsrClear i ↔ op = .clear)
      ∧ exec i s = csrAccess op rd a opd s) ∨
    (rowOf i = Row.fence ∧ exec i s = .next (raise .fence s.advance)) ∨
    (i = .ecall) ∨ (i = .ebreak) := by
  cases i
  case lui | auipc | addi | slti | sltiu | xori | ori | andi | slli | srli | srai | add | sub | sll | slt
      | sltu | xor | srl | sra | or | and => exact .inl ⟨rfl, _, _, rfl, rfl⟩
  case lb => exact .inr (.inl ⟨.byte, _, _, rfl, rfl, rfl, rfl⟩)
  case lbu => exact .inr (.inl ⟨.byteU, _, _, rfl, rfl, rfl, rfl⟩)
  case lh => exact .inr (.inl ⟨.half, _, _, rfl, rfl, rfl, rfl⟩)
  case lhu => exact .inr (.inl ⟨.halfU, _, _, rfl, rfl, rfl, rfl⟩)
  case lw => exact .inr (.inl ⟨.word, _, _, rfl, rfl, rfl, rfl⟩)
  case sb => exact .inr (.inr (.inl ⟨.byte, _, _, rfl, rfl, rfl⟩))
  case sh => exact .inr (.inr (.inl ⟨.half, _, _, rfl, rfl, rfl⟩))
  case sw => exact .inr (.inr (.inl ⟨.word, _, _, rfl, rfl, rfl⟩))
  case jal => exact .inr (.inr (.inr (.inl ⟨rfl, _, rfl, fun hw hp => even_add hp (even_immJ hw)⟩)))
  case jalr =>
    refine .inr (.inr (.inr (.inl ⟨rfl, _, rfl, fun _ _ => ?_⟩)))
    rw [BitVec.getLsbD_and]; simp
  case beq | bne | blt | bge | bltu | bgeu =>
    exact .inr (.inr (.inr (.inl ⟨rfl, _, rfl, fun hw hp => even_branchTarget hw hp⟩)))
  case fence => exact .inr (.inr (.inr (.inr (.inr (.inl ⟨rfl, rfl⟩)))))
  case ecall => simp
  case ebreak => simp
  case csrrw rd a rs1 =>
    exact .inr (.inr (.inr (.inr (.inl ⟨.write, rd, a, s.readReg rs1, rfl, rfl, rfl,
      show (Row.csrrw = Row.csrrc ∨ Row.csrrw = Row.csrrci) ↔ CsrOp.write = CsrOp.clear by decide, rfl⟩))))
  case csrrwi rd a z =>
    exact .inr (.inr (.inr (.inr (.inl ⟨.write, rd, a, zimm z, rfl, rfl, rfl,
      show (Row.csrrwi = Row.csrrc ∨ Row.csrrwi = Row.csrrci) ↔ CsrOp.write = CsrOp.clear by decide, rfl⟩))))
  case csrrs rd a rs1 =>
    exact .inr (.inr (.inr (.inr (.inl ⟨.set, rd, a, s.readReg rs1, rfl, rfl, rfl,
      show (Row.csrrs = Row.csrrc ∨ Row.csrrs = Row.csrrci) ↔ CsrOp.set = CsrOp.clear by decide, rfl⟩))))
  case csrrsi rd a z =>
    exact .inr (.inr (.inr (.inr (.inl ⟨.set, rd, a, zimm z, rfl, rfl, rfl,
      show (Row.csrrsi = Row.csrrc ∨ Row.csrrsi = Row.csrrci) ↔ CsrOp.set = CsrOp.clear by decide, rfl⟩))))
  case csrrc rd a rs1 =>
    exact .inr (.inr (.inr (.inr (.inl ⟨.clear, rd, a, s.readReg rs1, rfl, rfl, rfl,
      show (Row.csrrc = Row.csrrc ∨ Row.csrrc = Row.csrrci) ↔ CsrOp.clear = CsrOp.clear by decide, rfl⟩))))
  case csrrci rd a z =>
    exact .inr (.inr (.inr (.inr (.inl ⟨.clear, rd, a, zimm z, rfl, rfl, rfl,
      show (Row.csrrci = Row.csrrc ∨ Row.csrrci = Row.csrrci) ↔ CsrOp.clear = CsrOp.clear by decide, rfl⟩))))

/-- An instruction with its own destination is itself. -/
theorem withRd_self {i : Instr} {r : Reg} (h : destRd i = some r) : withRd r i = i := by
  cases i <;> first | (simp only [destRd, Option.some.injEq] at h; subst h; rfl) | rfl

/-- An instruction that has a destination is one shared operation, the same for every destination (40_engine.md
R115, R118). -/
theorem exec_withRd (i : Instr) (s : State) (h : destRd i ≠ none) :
    (∃ v, ∀ r, exec (withRd r i) s = .next (s.writeRd r v).advance) ∨
    (¬ IsCsrClear i ∧ ∃ width ea, ∀ r, exec (withRd r i) s = loadAt width r ea s) ∨
    (∃ target, ∀ r, exec (withRd r i) s = transfer (some r) target s) ∨
    (∃ op a opd, csrOf i = some a ∧ (IsCsrClear i ↔ op = .clear)
      ∧ ∀ r, exec (withRd r i) s = csrAccess op r a opd s) := by
  cases i
  case lui | auipc | addi | slti | sltiu | xori | ori | andi | slli | srli | srai | add | sub | sll | slt
      | sltu | xor | srl | sra | or | and => exact .inl ⟨_, fun _ => rfl⟩
  case lb | lh | lw | lbu | lhu =>
    exact .inr (.inl ⟨by simp only [IsCsrClear, rowOf]; decide, _, _, fun _ => rfl⟩)
  case jal | jalr => exact .inr (.inr (.inl ⟨_, fun _ => rfl⟩))
  case csrrw rd a rs1 =>
    exact .inr (.inr (.inr ⟨.write, a, s.readReg rs1, rfl,
      show (Row.csrrw = Row.csrrc ∨ Row.csrrw = Row.csrrci) ↔ CsrOp.write = CsrOp.clear by decide, fun _ => rfl⟩))
  case csrrwi rd a z =>
    exact .inr (.inr (.inr ⟨.write, a, zimm z, rfl,
      show (Row.csrrwi = Row.csrrc ∨ Row.csrrwi = Row.csrrci) ↔ CsrOp.write = CsrOp.clear by decide, fun _ => rfl⟩))
  case csrrs rd a rs1 =>
    exact .inr (.inr (.inr ⟨.set, a, s.readReg rs1, rfl,
      show (Row.csrrs = Row.csrrc ∨ Row.csrrs = Row.csrrci) ↔ CsrOp.set = CsrOp.clear by decide, fun _ => rfl⟩))
  case csrrsi rd a z =>
    exact .inr (.inr (.inr ⟨.set, a, zimm z, rfl,
      show (Row.csrrsi = Row.csrrc ∨ Row.csrrsi = Row.csrrci) ↔ CsrOp.set = CsrOp.clear by decide, fun _ => rfl⟩))
  case csrrc rd a rs1 =>
    exact .inr (.inr (.inr ⟨.clear, a, s.readReg rs1, rfl,
      show (Row.csrrc = Row.csrrc ∨ Row.csrrc = Row.csrrci) ↔ CsrOp.clear = CsrOp.clear by decide, fun _ => rfl⟩))
  case csrrci rd a z =>
    exact .inr (.inr (.inr ⟨.clear, a, zimm z, rfl,
      show (Row.csrrci = Row.csrrc ∨ Row.csrrci = Row.csrrci) ↔ CsrOp.clear = CsrOp.clear by decide, fun _ => rfl⟩))
  case sb | sh | sw | beq | bne | blt | bge | bltu | bgeu | fence | ecall | ebreak => exact absurd rfl h

/-- Every instruction reaches a next state, but for the wait of the read syscall (45_syscalls.md R263). -/
theorem exec_next_or_wait (i : Instr) (s : State) :
    (∃ t, exec i s = .next t) ∨ exec i s = .fault .consoleInputWait := by
  rcases exec_shape i s with ⟨-, _, _, -, e⟩ | ⟨w, rd, ea, -, -, -, e⟩ | ⟨w, v, ea, -, -, e⟩ | ⟨-, tg, e, -⟩
      | ⟨op, rd, a, opd, -, -, -, -, e⟩ | ⟨-, e⟩ | e | e
  · exact .inl ⟨_, e⟩
  · rcases loadAt_cases w rd ea s with h | h | h <;> exact .inl ⟨_, e.trans h⟩
  · rcases storeAt_cases w v ea s with h | h | ⟨-, h⟩ <;> exact .inl ⟨_, e.trans h⟩
  · obtain ⟨_, h, -⟩ := transfer_jumps (destRd i) tg s
    exact .inl ⟨_, e.trans h⟩
  · rcases csrAccess_cases op rd a opd s with h | ⟨-, ⟨-, _, h⟩ | ⟨-, h⟩⟩ <;> exact .inl ⟨_, e.trans h⟩
  · exact .inl ⟨_, e⟩
  · subst e
    change (∃ t, execEcall s = _) ∨ execEcall s = _
    unfold execEcall
    cases bridge s.advance <;> simp
  · subst e; exact .inl ⟨_, rfl⟩

/-- What the decoder answers has an encoding (30_encoding.md R85, R87). -/
theorem decode_wellFormed {w : Word} {i : Instr} (h : decode w = .ok i) : i.WellFormed := by
  have all : ∀ e ∈ decodeTable, (e.build w).WellFormed := by
    simp only [decodeTable, aluEntries, memEntries, ctrlEntries, csrEntries, List.cons_append,
      List.nil_append, List.forall_mem_cons]
    refine ⟨rfl, rfl, rfl, rfl, rfl, rfl, rfl, rfl, rfl, rfl, rfl, rfl, rfl, rfl, rfl, rfl, rfl, rfl, rfl,
      rfl, rfl, rfl, rfl, rfl, rfl, rfl, rfl, rfl, rfl, even_fieldImmJ w, rfl, even_fieldImmB w,
      even_fieldImmB w, even_fieldImmB w, even_fieldImmB w, even_fieldImmB w, even_fieldImmB w, ?_⟩
    exact ⟨rfl, rfl, rfl, rfl, rfl, rfl, rfl, rfl, rfl, by simp⟩
  unfold decode at h
  cases hl : lookupRow w with
  | none => rw [hl] at h; simp at h; split at h <;> simp at h
  | some e =>
    rw [hl] at h; simp at h
    obtain ⟨hm, -⟩ := lookupRow_some hl
    subst h
    exact all e hm

/-- The two outcomes of a failing syscall buffer are next states (45_syscalls.md R265). -/
theorem ecallMemFail_next {s t : State} (h : ecallMemFail s = .next t) :
    t = markRefused s.advance ∨ t = raise .osError s.advance := by
  unfold ecallMemFail at h
  split at h <;> cases h <;> simp

/-- What no instruction changes of the engine's own state, and how the console moves (10_state.md R37, R40, R41). -/
theorem exec_engine {s t : State} {i : Instr} (he : exec i s = .next t) :
    t.cfg = s.cfg ∧ t.vmFetch = s.vmFetch ∧ t.cycles = s.cycles ∧ t.counts = s.counts
      ∧ t.trace = s.trace ∧ s.consoleOut <+: t.consoleOut
      ∧ (t.consoleIn = s.consoleIn ∨ t.consoleIn = s.consoleIn.tail ∧ s.consoleIn ≠ []) := by
  rcases exec_shape i s with ⟨-, rd, v, -, e⟩ | ⟨w, rd, ea, -, -, -, e⟩ | ⟨w, v, ea, -, -, e⟩ | ⟨-, tg, e, -⟩
      | ⟨op, rd, a, opd, -, -, -, -, e⟩ | ⟨-, e⟩ | e | e
  · rw [e] at he; cases he; simp
  · rw [e] at he
    rcases loadAt_cases w rd ea s with e | e | e <;> rw [e] at he <;> cases he <;> simp
  · rw [e] at he
    rcases storeAt_cases w v ea s with e | e | ⟨hr, e⟩ <;> rw [e] at he <;> cases he <;> simp
  · rw [e] at he
    by_cases hh : tg = s.pc
    · rw [transfer_self _ _ _ hh] at he; cases he; cases destRd i <;> simp
    · rw [transfer_away _ _ _ hh] at he; cases he; cases destRd i <;> simp
  · rw [e] at he
    rcases csrAccess_cases op rd a opd s with e | ⟨hb, ⟨-, v, e⟩ | ⟨-, e⟩⟩ <;> rw [e] at he <;> cases he <;> simp
  · rw [e] at he; cases he; simp
  · subst e
    change execEcall s = _ at he
    rcases execEcall_cases s with ⟨-, e⟩ | ⟨-, e⟩ | ⟨-, e⟩ | ⟨-, e⟩ | ⟨-, ⟨-, e⟩ | ⟨o, -, e⟩⟩
        | ⟨-, ⟨-, e⟩ | ⟨l, ls, hl, ⟨-, e⟩ | ⟨m, hs, e⟩⟩⟩
    · rw [e] at he; cases he; simp
    · rw [e] at he; cases he; simp
    · rw [e] at he; cases he; simp
    · rw [e] at he; cases he; simp [sysBrk]
    · rcases ecallMemFail_next (e ▸ he) with rfl | rfl <;> simp
    · rw [e] at he; cases he; simp
    · rw [e] at he; cases he
    · rcases ecallMemFail_next (e ▸ he) with rfl | rfl <;> simp
    · rw [e] at he; cases he; simp [hl]
  · subst e; cases he; simp

end Sys2Proof.Machine
end

