-- ==== Sys2Proof/Laws/PerInstr.lean ====
section
/-! SUPPORT. Statements made per instruction, one lemma per constructor of `Instr`. -/

namespace Sys2Proof.Laws.EncodeSelectsRow

/-- The word of an instruction selects the instruction's own row of the decode table (30_encoding.md R90). -/
def Statement (i : Instr) : Prop := (rowOf i).selects (encode i) = true

theorem lui (rd : Reg) (imm : BitVec 20) : Statement (.lui rd imm) := selects_packU .lui (by decide) (by decide) ..
theorem auipc (rd : Reg) (imm : BitVec 20) : Statement (.auipc rd imm) := selects_packU .auipc (by decide) (by decide) ..
theorem addi (rd : Reg) (rs1 : Reg) (imm : BitVec 12) : Statement (.addi rd rs1 imm) := selects_packI .addi (by decide) (by decide) ..
theorem slti (rd : Reg) (rs1 : Reg) (imm : BitVec 12) : Statement (.slti rd rs1 imm) := selects_packI .slti (by decide) (by decide) ..
theorem sltiu (rd : Reg) (rs1 : Reg) (imm : BitVec 12) : Statement (.sltiu rd rs1 imm) := selects_packI .sltiu (by decide) (by decide) ..
theorem xori (rd : Reg) (rs1 : Reg) (imm : BitVec 12) : Statement (.xori rd rs1 imm) := selects_packI .xori (by decide) (by decide) ..
theorem ori (rd : Reg) (rs1 : Reg) (imm : BitVec 12) : Statement (.ori rd rs1 imm) := selects_packI .ori (by decide) (by decide) ..
theorem andi (rd : Reg) (rs1 : Reg) (imm : BitVec 12) : Statement (.andi rd rs1 imm) := selects_packI .andi (by decide) (by decide) ..
theorem slli (rd : Reg) (rs1 : Reg) (shamt : BitVec 5) : Statement (.slli rd rs1 shamt) := selects_packR .slli (by decide) (by decide) ..
theorem srli (rd : Reg) (rs1 : Reg) (shamt : BitVec 5) : Statement (.srli rd rs1 shamt) := selects_packR .srli (by decide) (by decide) ..
theorem srai (rd : Reg) (rs1 : Reg) (shamt : BitVec 5) : Statement (.srai rd rs1 shamt) := selects_packR .srai (by decide) (by decide) ..
theorem add (rd : Reg) (rs1 : Reg) (rs2 : Reg) : Statement (.add rd rs1 rs2) := selects_packR .add (by decide) (by decide) ..
theorem sub (rd : Reg) (rs1 : Reg) (rs2 : Reg) : Statement (.sub rd rs1 rs2) := selects_packR .sub (by decide) (by decide) ..
theorem sll (rd : Reg) (rs1 : Reg) (rs2 : Reg) : Statement (.sll rd rs1 rs2) := selects_packR .sll (by decide) (by decide) ..
theorem slt (rd : Reg) (rs1 : Reg) (rs2 : Reg) : Statement (.slt rd rs1 rs2) := selects_packR .slt (by decide) (by decide) ..
theorem sltu (rd : Reg) (rs1 : Reg) (rs2 : Reg) : Statement (.sltu rd rs1 rs2) := selects_packR .sltu (by decide) (by decide) ..
theorem xor (rd : Reg) (rs1 : Reg) (rs2 : Reg) : Statement (.xor rd rs1 rs2) := selects_packR .xor (by decide) (by decide) ..
theorem srl (rd : Reg) (rs1 : Reg) (rs2 : Reg) : Statement (.srl rd rs1 rs2) := selects_packR .srl (by decide) (by decide) ..
theorem sra (rd : Reg) (rs1 : Reg) (rs2 : Reg) : Statement (.sra rd rs1 rs2) := selects_packR .sra (by decide) (by decide) ..
theorem or (rd : Reg) (rs1 : Reg) (rs2 : Reg) : Statement (.or rd rs1 rs2) := selects_packR .or (by decide) (by decide) ..
theorem and (rd : Reg) (rs1 : Reg) (rs2 : Reg) : Statement (.and rd rs1 rs2) := selects_packR .and (by decide) (by decide) ..
theorem lb (rd : Reg) (rs1 : Reg) (imm : BitVec 12) : Statement (.lb rd rs1 imm) := selects_packI .lb (by decide) (by decide) ..
theorem lh (rd : Reg) (rs1 : Reg) (imm : BitVec 12) : Statement (.lh rd rs1 imm) := selects_packI .lh (by decide) (by decide) ..
theorem lw (rd : Reg) (rs1 : Reg) (imm : BitVec 12) : Statement (.lw rd rs1 imm) := selects_packI .lw (by decide) (by decide) ..
theorem lbu (rd : Reg) (rs1 : Reg) (imm : BitVec 12) : Statement (.lbu rd rs1 imm) := selects_packI .lbu (by decide) (by decide) ..
theorem lhu (rd : Reg) (rs1 : Reg) (imm : BitVec 12) : Statement (.lhu rd rs1 imm) := selects_packI .lhu (by decide) (by decide) ..
theorem sb (rs1 : Reg) (rs2 : Reg) (imm : BitVec 12) : Statement (.sb rs1 rs2 imm) := selects_packS .sb (by decide) (by decide) ..
theorem sh (rs1 : Reg) (rs2 : Reg) (imm : BitVec 12) : Statement (.sh rs1 rs2 imm) := selects_packS .sh (by decide) (by decide) ..
theorem sw (rs1 : Reg) (rs2 : Reg) (imm : BitVec 12) : Statement (.sw rs1 rs2 imm) := selects_packS .sw (by decide) (by decide) ..
theorem jal (rd : Reg) (off : BitVec 21) : Statement (.jal rd off) := selects_packJ .jal (by decide) (by decide) ..
theorem jalr (rd : Reg) (rs1 : Reg) (imm : BitVec 12) : Statement (.jalr rd rs1 imm) := selects_packI .jalr (by decide) (by decide) ..
theorem beq (rs1 : Reg) (rs2 : Reg) (off : BitVec 13) : Statement (.beq rs1 rs2 off) := selects_packB .beq (by decide) (by decide) ..
theorem bne (rs1 : Reg) (rs2 : Reg) (off : BitVec 13) : Statement (.bne rs1 rs2 off) := selects_packB .bne (by decide) (by decide) ..
theorem blt (rs1 : Reg) (rs2 : Reg) (off : BitVec 13) : Statement (.blt rs1 rs2 off) := selects_packB .blt (by decide) (by decide) ..
theorem bge (rs1 : Reg) (rs2 : Reg) (off : BitVec 13) : Statement (.bge rs1 rs2 off) := selects_packB .bge (by decide) (by decide) ..
theorem bltu (rs1 : Reg) (rs2 : Reg) (off : BitVec 13) : Statement (.bltu rs1 rs2 off) := selects_packB .bltu (by decide) (by decide) ..
theorem bgeu (rs1 : Reg) (rs2 : Reg) (off : BitVec 13) : Statement (.bgeu rs1 rs2 off) := selects_packB .bgeu (by decide) (by decide) ..
theorem fence (fm : BitVec 4) (pred : BitVec 4) (succ : BitVec 4) (rs1 : Reg) (rd : Reg) : Statement (.fence fm pred succ rs1 rd) := selects_packI .fence (by decide) (by decide) ..
theorem ecall : Statement (.ecall) := by unfold Statement; decide
theorem ebreak : Statement (.ebreak) := by unfold Statement; decide
theorem csrrw (rd : Reg) (csr : CsrAddr) (rs1 : Reg) : Statement (.csrrw rd csr rs1) := selects_packI .csrrw (by decide) (by decide) ..
theorem csrrs (rd : Reg) (csr : CsrAddr) (rs1 : Reg) : Statement (.csrrs rd csr rs1) := selects_packI .csrrs (by decide) (by decide) ..
theorem csrrc (rd : Reg) (csr : CsrAddr) (rs1 : Reg) : Statement (.csrrc rd csr rs1) := selects_packI .csrrc (by decide) (by decide) ..
theorem csrrwi (rd : Reg) (csr : CsrAddr) (zimm : BitVec 5) : Statement (.csrrwi rd csr zimm) := selects_packI .csrrwi (by decide) (by decide) ..
theorem csrrsi (rd : Reg) (csr : CsrAddr) (zimm : BitVec 5) : Statement (.csrrsi rd csr zimm) := selects_packI .csrrsi (by decide) (by decide) ..
theorem csrrci (rd : Reg) (csr : CsrAddr) (zimm : BitVec 5) : Statement (.csrrci rd csr zimm) := selects_packI .csrrci (by decide) (by decide) ..

end Sys2Proof.Laws.EncodeSelectsRow
end

