-- ==== Sys2Proof/Tests/Slice0.lean ====
section
/-! SUPPORT. Tests of the model against the spec's encodings and vectors, and for every statement with
hypotheses a witness that meets them. Expected results are those of 95_test_vectors.md, or of the rule
named beside the test. -/

namespace Sys2Proof.Tests

open Sys2Proof Sys2Proof.Machine

/-! ## Terms without an encoding (30_encoding.md R85, R87) -/

theorem test_refuses_odd_jal : (Instr.jal 1 3).wellFormed = false := by decide
theorem test_refuses_odd_beq : (Instr.beq 5 6 0x1001).wellFormed = false := by decide
theorem test_refuses_odd_bne : (Instr.bne 5 6 1).wellFormed = false := by decide
theorem test_refuses_odd_blt : (Instr.blt 5 6 0x1FFF).wellFormed = false := by decide
theorem test_refuses_odd_bge : (Instr.bge 5 6 9).wellFormed = false := by decide
theorem test_refuses_odd_bltu : (Instr.bltu 5 6 7).wellFormed = false := by decide
theorem test_refuses_odd_bgeu : (Instr.bgeu 5 6 5).wellFormed = false := by decide

/-! ## Decoding: one word at least per constructor, bit by bit -/

/-- From 30_encoding.md R82, R92, R93: upper and register-immediate. -/
theorem test_decode_upper_and_register_immediate :
    decode 0b11111111111111111111_00011_0110111#32 = .ok (.lui 3 0xFFFFF)
      ∧ decode 0b10000000000000000000_00011_0010111#32 = .ok (.auipc 3 0x80000)
      ∧ decode 0b111111111111_00001_000_00011_0010011#32 = .ok (.addi 3 1 0xFFF)
      ∧ decode 0b111111111111_00001_010_00011_0010011#32 = .ok (.slti 3 1 0xFFF)
      ∧ decode 0b000000000001_00001_011_00011_0010011#32 = .ok (.sltiu 3 1 0x001)
      ∧ decode 0b111111111111_00001_100_00011_0010011#32 = .ok (.xori 3 1 0xFFF)
      ∧ decode 0b100000000000_00001_110_00011_0010011#32 = .ok (.ori 3 1 0x800)
      ∧ decode 0b000011111111_00001_111_00011_0010011#32 = .ok (.andi 3 1 0x0FF)
      ∧ decode 0b0000000_11111_00001_001_00011_0010011#32 = .ok (.slli 3 1 31)
      ∧ decode 0b0000000_00100_00001_101_00011_0010011#32 = .ok (.srli 3 1 4)
      ∧ decode 0b0100000_00100_00001_101_00011_0010011#32 = .ok (.srai 3 1 4) := by
  decide

/-- From 30_encoding.md R82, R92, R93: register-register. -/
theorem test_decode_register_register :
    decode 0b0000000_00010_00001_000_00011_0110011#32 = .ok (.add 3 1 2)
      ∧ decode 0b0100000_00010_00001_000_00011_0110011#32 = .ok (.sub 3 1 2)
      ∧ decode 0b0000000_00010_00001_001_00011_0110011#32 = .ok (.sll 3 1 2)
      ∧ decode 0b0000000_00010_00001_010_00011_0110011#32 = .ok (.slt 3 1 2)
      ∧ decode 0b0000000_00010_00001_011_00011_0110011#32 = .ok (.sltu 3 1 2)
      ∧ decode 0b0000000_00010_00001_100_00011_0110011#32 = .ok (.xor 3 1 2)
      ∧ decode 0b0000000_00010_00001_101_00011_0110011#32 = .ok (.srl 3 1 2)
      ∧ decode 0b0100000_00010_00001_101_00011_0110011#32 = .ok (.sra 3 1 2)
      ∧ decode 0b0000000_00010_00001_110_00011_0110011#32 = .ok (.or 3 1 2)
      ∧ decode 0b0000000_00010_00001_111_00011_0110011#32 = .ok (.and 3 1 2) := by
  decide

/-- From 30_encoding.md R82, R92, R93: loads and stores. -/
theorem test_decode_loads_and_stores :
    decode 0b000000000001_00110_000_00101_0000011#32 = .ok (.lb 5 6 1)
      ∧ decode 0b000000000010_00110_001_00101_0000011#32 = .ok (.lh 5 6 2)
      ∧ decode 0b111111111100_00110_010_00101_0000011#32 = .ok (.lw 5 6 0xFFC)
      ∧ decode 0b000000000011_00110_100_00101_0000011#32 = .ok (.lbu 5 6 3)
      ∧ decode 0b000000000010_00110_101_00101_0000011#32 = .ok (.lhu 5 6 2)
      ∧ decode 0b0000000_00111_00110_000_00001_0100011#32 = .ok (.sb 6 7 1)
      ∧ decode 0b1111111_00111_00110_001_00010_0100011#32 = .ok (.sh 6 7 0xFE2)
      ∧ decode 0b0000000_00111_00110_010_10000_0100011#32 = .ok (.sw 6 7 16) := by
  decide

/-- From 30_encoding.md R82, R92, R93: control transfer. -/
theorem test_decode_control_transfer :
    decode 0b1_1111111110_1_11111111_00001_1101111#32 = .ok (.jal 1 0x1FFFFC)
      ∧ decode 0b0_0111100011_0_10101011_00001_1101111#32 = .ok (.jal 1 0x0AB3C6)
      ∧ decode 0b111111111100_00101_000_00000_1100111#32 = .ok (.jalr 0 5 0xFFC)
      ∧ decode 0b1_000000_00110_00101_000_0000_0_1100011#32 = .ok (.beq 5 6 0x1000)
      ∧ decode 0b1_111111_00000_00101_001_1100_1_1100011#32 = .ok (.bne 5 0 0x1FF8)
      ∧ decode 0b0_000000_00110_00101_100_0100_0_1100011#32 = .ok (.blt 5 6 8)
      ∧ decode 0b0_101010_00110_00101_101_1011_1_1100011#32 = .ok (.bge 5 6 0x0D56)
      ∧ decode 0b0_000000_00110_00101_110_0100_0_1100011#32 = .ok (.bltu 5 6 8)
      ∧ decode 0b1_111111_00000_00101_111_1100_1_1100011#32 = .ok (.bgeu 5 0 0x1FF8) := by
  decide

/-- From 30_encoding.md R82, R92, R93: csr and system. -/
theorem test_decode_csr_and_system :
    decode 0b1000_0011_0011_00000_000_00000_0001111#32 = .ok (.fence 8 3 3 0 0)
      ∧ decode 0b000000000000_00000_000_00000_1110011#32 = .ok (.ecall)
      ∧ decode 0b000000000001_00000_000_00000_1110011#32 = .ok (.ebreak)
      ∧ decode 0b001101000000_00110_001_00101_1110011#32 = .ok (.csrrw 5 0x340 6)
      ∧ decode 0b001101000000_00110_010_00101_1110011#32 = .ok (.csrrs 5 0x340 6)
      ∧ decode 0b001101000000_00110_011_00101_1110011#32 = .ok (.csrrc 5 0x340 6)
      ∧ decode 0b001101000000_01001_101_00101_1110011#32 = .ok (.csrrwi 5 0x340 9)
      ∧ decode 0b001101000000_00011_110_00101_1110011#32 = .ok (.csrrsi 5 0x340 3)
      ∧ decode 0b111100010100_11111_111_01010_1110011#32 = .ok (.csrrci 10 0xF14 31) := by
  decide
/-- Words that match no row (95_test_vectors.md section 8). -/
theorem test_decode_refuses_unmapped_words :
    ∀ w ∈ [0x00000000, 0xFFFFFFFF, 0x02208133, 0x0000100F, 0x30200073, 0x10500073, 0x00004073, 0x00002063,
      0x00003003, 0x00001067, 0x02009093, 0x00108073, 0x00000001, 0x40001013, 0x42005013],
      decodeTableWord 32 w = none := by
  decide

/-- A byte sequence shorter than a word, and the bytes after one (R80). -/
theorem test_decode_bytes :
    decodeBytes [0x93#8, 0x00#8, 0x50#8] = .error .truncated
      ∧ decodeBytes [0x93#8, 0x00#8, 0x50#8, 0x00#8, 0x73#8] = .ok (.addi 1 0 5, [0x73#8]) := by
  decide

/-! ## One step (95_test_vectors.md sections 2-7) -/

/-- The configuration of section 0 at pc = 0x80000000, with registers, memory words and CSRs. -/
def start (regs : List (Reg × Word)) (words : List (Nat × Word) := [])
    (csrs : List (CsrAddr × Word) := []) : State :=
  let s := regs.foldl (fun s p => s.setReg p.1 p.2) (State.reset.setPc 0x80000000#32)
  let s := words.foldl (fun s p => s.setMem (s.mem.writeWord p.1 p.2)) s
  csrs.foldl (fun s p => s.writeCsr p.1 p.2) s

/-- One step over the word `w` ends with this code and pc, and leaves these registers, words and CSRs. -/
def ends (s : State) (w : Nat) (code : ExcCode) (pc : Word) (regs : List (Reg × Word) := [])
    (words : List (Nat × Word) := []) (csrs : List (CsrAddr × Word) := []) : Bool :=
  match step (s.withFetchWord 32 w) with
  | .next t => decide (t.status = code) && t.pc == pc && regs.all (fun p => t.readReg p.1 == p.2)
      && words.all (fun p => t.mem.readWord p.1 == p.2) && csrs.all (fun p => t.readCsr p.1 == p.2)
  | _ => false

theorem test_lui : ends (start []) 0xFFFFF1B7 .noException 0x80000004#32 [(3, 0xFFFFF000#32)] := by decide
theorem test_auipc_wraps : ends (start []) 0x80000197 .noException 0x80000004#32 [(3, 0x0#32)] := by decide
theorem test_addi_negative :
    ends (start [(1, 0x0#32)])
      0xFFF08193 .noException 0x80000004#32 [(3, 0xFFFFFFFF#32)] := by decide
theorem test_slti_negative :
    ends (start [(1, 0xFFFFFFFE#32)])
      0xFFF0A193 .noException 0x80000004#32 [(3, 0x1#32)] := by decide
theorem test_sltiu_sign_extends :
    ends (start [(1, 0xFFFFFFFE#32)])
      0xFFF0B193 .noException 0x80000004#32 [(3, 0x1#32)] := by decide
theorem test_xori :
    ends (start [(1, 0x12345678#32)])
      0xFFF0C193 .noException 0x80000004#32 [(3, 0xEDCBA987#32)] := by decide
theorem test_ori_sign_extends :
    ends (start [(1, 0x1#32)])
      0x8000E193 .noException 0x80000004#32 [(3, 0xFFFFF801#32)] := by decide
theorem test_andi :
    ends (start [(1, 0xDEADBEEF#32)])
      0x0FF0F193 .noException 0x80000004#32 [(3, 0xEF#32)] := by decide
theorem test_slli :
    ends (start [(1, 0x3#32)])
      0x01F09193 .noException 0x80000004#32 [(3, 0x80000000#32)] := by decide
theorem test_srli :
    ends (start [(1, 0xF0000000#32)])
      0x0040D193 .noException 0x80000004#32 [(3, 0xF000000#32)] := by decide
theorem test_srai :
    ends (start [(1, 0xF0000000#32)])
      0x4040D193 .noException 0x80000004#32 [(3, 0xFF000000#32)] := by decide
theorem test_srai_by_zero :
    ends (start [(1, 0x80000000#32)])
      0x4000D193 .noException 0x80000004#32 [(3, 0x80000000#32)] := by decide
theorem test_add_wraps :
    ends (start [(1, 0xFFFFFFFF#32), (2, 0x1#32)])
      0x002081B3 .noException 0x80000004#32 [(3, 0x0#32)] := by decide
theorem test_add_to_x0 :
    ends (start [(1, 0x1#32), (2, 0x2#32)])
      0x00208033 .noException 0x80000004#32 [(0, 0x0#32)] := by decide
theorem test_add_reads_before_writing :
    ends (start [(5, 0x80000001#32)])
      0x005282B3 .noException 0x80000004#32 [(5, 0x2#32)] := by decide
theorem test_sub :
    ends (start [(1, 0x0#32), (2, 0x1#32)])
      0x402081B3 .noException 0x80000004#32 [(3, 0xFFFFFFFF#32)] := by decide
theorem test_sll_by_32 :
    ends (start [(1, 0x1#32), (2, 0x20#32)])
      0x002091B3 .noException 0x80000004#32 [(3, 0x1#32)] := by decide
theorem test_slt_signed :
    ends (start [(1, 0xFFFFFFFF#32), (2, 0x1#32)])
      0x0020A1B3 .noException 0x80000004#32 [(3, 0x1#32)] := by decide
theorem test_slt_smallest :
    ends (start [(1, 0x80000000#32), (2, 0x7FFFFFFF#32)])
      0x0020A1B3 .noException 0x80000004#32 [(3, 0x1#32)] := by decide
theorem test_sltu_unsigned :
    ends (start [(1, 0xFFFFFFFF#32), (2, 0x1#32)])
      0x0020B1B3 .noException 0x80000004#32 [(3, 0x0#32)] := by decide
theorem test_xor :
    ends (start [(1, 0xF0F0F0F0#32), (2, 0xFF00FF00#32)])
      0x0020C1B3 .noException 0x80000004#32 [(3, 0xFF00FF0#32)] := by decide
theorem test_srl :
    ends (start [(1, 0x80000000#32), (2, 0x1F#32)])
      0x0020D1B3 .noException 0x80000004#32 [(3, 0x1#32)] := by decide
theorem test_sra :
    ends (start [(1, 0x80000000#32), (2, 0x1F#32)])
      0x4020D1B3 .noException 0x80000004#32 [(3, 0xFFFFFFFF#32)] := by decide
theorem test_sra_low_five_bits :
    ends (start [(1, 0x80000000#32), (2, 0x21#32)])
      0x4020D1B3 .noException 0x80000004#32 [(3, 0xC0000000#32)] := by decide
theorem test_or :
    ends (start [(1, 0xF0F0F0F0#32), (2, 0xF0F0F0F#32)])
      0x0020E1B3 .noException 0x80000004#32 [(3, 0xFFFFFFFF#32)] := by decide
theorem test_and :
    ends (start [(1, 0xF0F0F0F0#32), (2, 0xFF00FF00#32)])
      0x0020F1B3 .noException 0x80000004#32 [(3, 0xF000F000#32)] := by decide
theorem test_lb_lane_3 :
    ends (start [(6, 0x80010000#32)] [(0x80010000, 0x8180FF7F#32)])
      0x00330283 .noException 0x80000004#32 [(5, 0xFFFFFF81#32)] := by decide
theorem test_lb_lane_0 :
    ends (start [(6, 0x80010000#32)] [(0x80010000, 0x8180FF7F#32)])
      0x00030283 .noException 0x80000004#32 [(5, 0x7F#32)] := by decide
theorem test_lbu_lane_1 :
    ends (start [(6, 0x80010000#32)] [(0x80010000, 0x8180FF7F#32)])
      0x00134283 .noException 0x80000004#32 [(5, 0xFF#32)] := by decide
theorem test_lh_lane_1 :
    ends (start [(6, 0x80010000#32)] [(0x80010000, 0x8180FF7F#32)])
      0x00131283 .noException 0x80000004#32 [(5, 0xFFFF80FF#32)] := by decide
theorem test_lh_lane_2 :
    ends (start [(6, 0x80010000#32)] [(0x80010000, 0x8180FF7F#32)])
      0x00231283 .noException 0x80000004#32 [(5, 0xFFFF8180#32)] := by decide
theorem test_lhu_lane_2 :
    ends (start [(6, 0x80010000#32)] [(0x80010000, 0x8180FF7F#32)])
      0x00235283 .noException 0x80000004#32 [(5, 0x8180#32)] := by decide
theorem test_lw_negative_offset :
    ends (start [(6, 0x80010004#32)] [(0x80010000, 0x8180FF7F#32)])
      0xFFC32283 .noException 0x80000004#32 [(5, 0x8180FF7F#32)] := by decide
theorem test_lh_crossing_truncated :
    ends (start [(6, 0x80010000#32)] [(0x80010000, 0x8180FF7F#32)])
      0x00331283 .noException 0x80000004#32 [(5, 0x81#32)] := by decide
theorem test_lw_crossing_truncated :
    ends (start [(6, 0x80010000#32)] [(0x80010000, 0x8180FF7F#32)])
      0x00132283 .noException 0x80000004#32 [(5, 0x8180FF#32)] := by decide
theorem test_sb_lane_1 :
    ends (start [(6, 0x80010000#32), (7, 0xAB#32)] [(0x80010000, 0x11223344#32)])
      0x007300A3 .noException 0x80000004#32 [] [(0x80010000, 0x1122AB44#32)] := by decide
theorem test_sb_drops_upper_bits :
    ends (start [(6, 0x80010000#32), (7, 0x123456AB#32)] [(0x80010000, 0x11223344#32)])
      0x00730123 .noException 0x80000004#32 [] [(0x80010000, 0x11AB3344#32)] := by decide
theorem test_sh_lane_1 :
    ends (start [(6, 0x80010000#32), (7, 0xBEEF#32)] [(0x80010000, 0x11223344#32)])
      0x007310A3 .noException 0x80000004#32 [] [(0x80010000, 0x11BEEF44#32)] := by decide
theorem test_sh_crossing_truncated :
    ends (start [(6, 0x80010000#32), (7, 0xCAFEBABE#32)] [(0x80010000, 0x11223344#32), (0x80010004, 0x55667788#32)])
      0x007311A3 .noException 0x80000004#32 [] [(0x80010000, 0xBE223344#32), (0x80010004, 0x55667788#32)] := by decide
theorem test_sw_crossing_truncated :
    ends (start [(6, 0x80010000#32), (7, 0xCAFEBABE#32)] [(0x80010000, 0x11223344#32), (0x80010004, 0x55667788#32)])
      0x007320A3 .noException 0x80000004#32 [] [(0x80010000, 0xFEBABE44#32), (0x80010004, 0x55667788#32)] := by decide
theorem test_sw_to_the_boot_rom :
    ends (start [(6, 0x1000#32), (7, 0x1#32)] [(0x1000, 0x297#32)])
      0x00732023 .dmemError 0x80000000#32 [] [(0x1000, 0x297#32)] := by decide
theorem test_jal_backwards :
    ends (start [])
      0xFFDFF0EF .noException 0x7FFFFFFC#32 [(1, 0x80000004#32)] := by decide
theorem test_jal_to_itself :
    ends (start [])
      0x000000EF .completion 0x80000000#32 [(1, 0x80000004#32)] := by decide
theorem test_jalr_clears_bit_0 :
    ends (start [(5, 0x80000101#32)])
      0x001280E7 .noException 0x80000102#32 [(1, 0x80000004#32)] := by decide
theorem test_jalr_reads_before_linking :
    ends (start [(1, 0x80000010#32)])
      0x000080E7 .noException 0x80000010#32 [(1, 0x80000004#32)] := by decide
theorem test_beq_taken_far_back : ends (start []) 0x80628063 .noException 0x7FFFF000#32 := by decide
theorem test_beq_on_itself : ends (start []) 0x00000063 .completion 0x80000000#32 := by decide
theorem test_bne_taken :
    ends (start [(5, 0x1#32), (6, 0x2#32)])
      0x00629463 .noException 0x80000008#32 := by decide
theorem test_bne_not_taken_offset_0 :
    ends (start [(5, 0x1#32)])
      0x00529063 .noException 0x80000004#32 := by decide
theorem test_blt_signed :
    ends (start [(5, 0xFFFFFFFF#32), (6, 0x1#32)])
      0x0062C463 .noException 0x80000008#32 := by decide
theorem test_blt_smallest :
    ends (start [(5, 0x80000000#32), (6, 0x7FFFFFFF#32)])
      0x0062C463 .noException 0x80000008#32 := by decide
theorem test_bge_signed :
    ends (start [(5, 0xFFFFFFFF#32), (6, 0x1#32)])
      0x0062D463 .noException 0x80000004#32 := by decide
theorem test_bge_equal_on_itself :
    ends (start [(5, 0x7#32)])
      0x0052D063 .completion 0x80000000#32 := by decide
theorem test_bltu_unsigned :
    ends (start [(5, 0xFFFFFFFF#32), (6, 0x1#32)])
      0x0062E463 .noException 0x80000004#32 := by decide
theorem test_bltu_taken :
    ends (start [(5, 0x1#32), (6, 0xFFFFFFFF#32)])
      0x0062E463 .noException 0x80000008#32 := by decide
theorem test_bgeu_unsigned :
    ends (start [(5, 0xFFFFFFFF#32), (6, 0x1#32)])
      0x0062F463 .noException 0x80000008#32 := by decide
theorem test_bgeu_equal_backwards : ends (start []) 0xFE02FCE3 .noException 0x7FFFFFF8#32 := by decide
theorem test_fence : ends (start []) 0x0FF0000F .fence 0x80000004#32 := by decide
theorem test_fence_ignored_fields : ends (start []) 0x8330000F .fence 0x80000004#32 := by decide
theorem test_ebreak : ends (start []) 0x00100073 .osError 0x80000004#32 := by decide
theorem test_csrrw_swaps :
    ends (start [(5, 0xAAAA#32)] [] [(0x340, 0x5555#32)])
      0x340292F3 .noException 0x80000004#32 [(5, 0x5555#32)] [] [(0x340, 0xAAAA#32)] := by decide
theorem test_csrrs :
    ends (start [(6, 0x3#32)] [] [(0x340, 0xC#32)])
      0x340322F3 .noException 0x80000004#32 [(5, 0xC#32)] [] [(0x340, 0xF#32)] := by decide
theorem test_csrrs_reads :
    ends (start [] [] [(0x340, 0x12345678#32)])
      0x340022F3 .noException 0x80000004#32 [(5, 0x12345678#32)] [] [(0x340, 0x12345678#32)] := by decide
theorem test_csrrc_reads_and_is_illegal :
    ends (start [(6, 0x1#32)] [] [(0x340, 0xF#32)])
      0x340332F3 .illegalInst 0x80000000#32 [(5, 0xF#32)] [] [(0x340, 0xF#32)] := by decide
theorem test_csrrwi :
    ends (start [] [] [(0x340, 0xFFFFFFFF#32)])
      0x3404D2F3 .noException 0x80000004#32 [(5, 0xFFFFFFFF#32)] [] [(0x340, 0x9#32)] := by decide
theorem test_csrrwi_31 :
    ends (start [] [] [(0x340, 0x0#32)])
      0x340FD2F3 .noException 0x80000004#32 [(5, 0x0#32)] [] [(0x340, 0x1F#32)] := by decide
theorem test_csrrsi :
    ends (start [] [] [(0x340, 0x8#32)])
      0x3401E2F3 .noException 0x80000004#32 [(5, 0x8#32)] [] [(0x340, 0xB#32)] := by decide
theorem test_csrrsi_0 :
    ends (start [] [] [(0x340, 0x8#32)])
      0x340062F3 .noException 0x80000004#32 [(5, 0x8#32)] [] [(0x340, 0x8#32)] := by decide
theorem test_csrrci_reads_and_is_illegal :
    ends (start [] [] [(0x340, 0x3#32)])
      0x3400F2F3 .illegalInst 0x80000000#32 [(5, 0x3#32)] [] [(0x340, 0x3#32)] := by decide
theorem test_csrrw_unbacked :
    ends (start [(5, 0x77#32), (6, 0x1#32)])
      0x341312F3 .illegalInst 0x80000000#32 [(5, 0x77#32)] := by decide
theorem test_csrrc_unbacked :
    ends (start [(5, 0x77#32), (6, 0x1#32)])
      0x341332F3 .illegalInst 0x80000000#32 [(5, 0x77#32)] := by decide

/-- Section 7: the line "hi" read to the last byte of a word. -/
def reading : State :=
  supplyLine [0x68#8, 0x69#8]
    (start [(17, 63#32), (11, 0x80010003#32)] [(0x80010000, 0x11223344#32), (0x80010004, 0x55667788#32)])

theorem test_ecall_read : ends reading 0x00000073 .noException 0x80000004#32 [(10, 0x68#32)]
    [(0x80010000, 0x68223344#32), (0x80010004, 0x55667769#32)] := by decide

/-- Section 7: "Hello" written to the console. -/
def writing : State :=
  start [(17, 64#32), (11, 0x80010000#32), (12, 5#32)] [(0x80010000, 0x6C6C6548#32), (0x80010004, 0x6F#32)]

/-- The console output after one step. -/
def printed (s : State) (w : Nat) : List Byte :=
  match step (s.withFetchWord 32 w) with
  | .next t => t.consoleOut
  | _ => []

theorem test_ecall_write :
    printed writing 0x00000073 = [0x48#8, 0x65#8, 0x6C#8, 0x6C#8, 0x6F#8] := by decide

/-- Sections 8 and 9: an unmapped word, and fetches that no region answers. -/
theorem test_unmapped_word : ends (start []) 0x02208133 .illegalInst 0x80000000#32 := by decide
theorem test_fetch_of_dmem : ends ((start []).setPc 0x80010000#32) 0x13 .imemError 0x80010000#32 := by decide
theorem test_fetch_of_dmem_by_vm :
    ends (hostRun 0x80010000#32 true (start [])) 0x13 .noException 0x80010004#32 := by decide

/-! ## Witnesses: for every statement with hypotheses, states and operands that meet them -/

/-- The state after one step, or the state itself where there is none. -/
def stepped (s : State) : State :=
  match step s with
  | .next t => t
  | _ => s

/-- `start` over the word `w`. -/
def placed (w : Nat) (regs : List (Reg × Word) := []) (words : List (Nat × Word) := [])
    (csrs : List (CsrAddr × Word) := []) : State :=
  (start regs words csrs).withFetchWord 32 w

theorem witness_DecodeOfEncode :
    (Instr.jal 1 0x1FFFFE).WellFormed ∧ (Instr.bgeu 31 0 0x1000).WellFormed ∧ (Instr.csrrci 0 0xFFF 31).WellFormed := by
  decide

theorem witness_EncodeOfDecode : decode 0x8330000F#32 = .ok (.fence 8 3 3 0 0) := by decide

theorem witness_MeaningsAgreeWithTheClassHandlers : (Instr.beq 1 2 0x1FFE).WellFormed ∧ Instr.ecall.WellFormed := by
  decide

/-- ADDI at the last word of IMEM, FENCE at the boot ROM's first, and ADDI fetched through `VM_REGIONS`. -/
theorem witness_StepRunsTheDecodedInstruction :
    (∃ s : State, s.live ∧ s.pc.toNat % 4 = 0 ∧ s.vmFetch = false
      ∧ Reaches [s.cfg.imem, s.cfg.bootrom] s.pc
      ∧ decodeBytes [s.mem.read s.pc.toNat, s.mem.read (s.pc.toNat + 1), s.mem.read (s.pc.toNat + 2),
        s.mem.read (s.pc.toNat + 3)] = .ok (.addi 1 0 5, []))
      ∧ (∃ s : State, s.live ∧ s.pc.toNat % 4 = 0 ∧ s.vmFetch = false
      ∧ Reaches [s.cfg.imem, s.cfg.bootrom] s.pc
      ∧ decodeBytes [s.mem.read s.pc.toNat, s.mem.read (s.pc.toNat + 1), s.mem.read (s.pc.toNat + 2),
        s.mem.read (s.pc.toNat + 3)] = .ok (.fence 0 15 15 0 0, [])
      ∧ fenceMatches s.cfg (encode (.fence 0 15 15 0 0)) = true)
      ∧ (∃ s : State, s.live ∧ s.pc.toNat % 4 = 0 ∧ s.vmFetch = true
      ∧ Reaches s.cfg.vmRegions s.pc
      ∧ decodeBytes [s.mem.read s.pc.toNat, s.mem.read (s.pc.toNat + 1), s.mem.read (s.pc.toNat + 2),
        s.mem.read (s.pc.toNat + 3)] = .ok (.addi 1 0 5, [])) := by
  unfold State.live Reaches
  exact ⟨⟨((start []).setPc 0x8000FFFC#32).withFetchWord 32 0x00500093, by decide⟩,
    ⟨((start []).setPc 0x00001000#32).withFetchWord 32 0x0FF0000F, by decide⟩,
    ⟨(hostRun 0x80010000#32 true (start [])).withFetchWord 32 0x00500093, by decide⟩⟩

/-- pc at the first word of the boot ROM, and just below and above it. -/
theorem witness_FetchReadsTheChainOrRaisesImemError :
    (∃ s : State, s.live ∧ s.pc.toNat % 4 = 0 ∧ s.vmFetch = false ∧ Reaches [s.cfg.imem, s.cfg.bootrom] s.pc)
      ∧ (∃ s : State, s.live ∧ s.pc.toNat % 4 = 0 ∧ s.vmFetch = false
        ∧ ¬ Reaches [s.cfg.imem, s.cfg.bootrom] s.pc)
      ∧ (∃ s : State, s.live ∧ s.pc.toNat % 4 = 0 ∧ s.vmFetch = true ∧ ¬ Reaches s.cfg.vmRegions s.pc) := by
  unfold State.live Reaches
  exact ⟨⟨(start []).setPc 0x00001000#32, by decide⟩, ⟨(start []).setPc 0x00002000#32, by decide⟩,
    ⟨hostRun 0x00001000#32 true (start []), by decide⟩⟩

/-- `start` with another policy for a misaligned fetch, at `pc`. -/
def misaligned (p : MisalignedFetch) (pc : Word) : State :=
  { placed 0x00500093 with cfg := { Config.standard with misalignedFetch := p }, pc := pc }

theorem witness_MisalignedFetchFollowsItsParameter :
    (∀ p, (misaligned p 0x80000001#32).live ∧ (misaligned p 0x80000001#32).pc.toNat % 4 ≠ 0
        ∧ (misaligned p 0x80000001#32).cfg.misalignedFetch = p)
      ∧ Reaches [Config.standard.imem, Config.standard.bootrom] (misaligned .enclosingWord 0x80000003#32).pc
      ∧ instrAt (misaligned .enclosingWord 0x80000003#32).cfg
          ((misaligned .enclosingWord 0x80000003#32).mem.readWord 0x80000000) = some (.addi 1 0 5)
      ∧ ¬ Reaches [Config.standard.imem, Config.standard.bootrom] (misaligned .enclosingWord 0x00000FFF#32).pc := by
  refine ⟨fun p => ⟨⟨rfl, rfl⟩, by cases p <;> decide, rfl⟩, ?_⟩
  unfold Reaches
  decide

theorem witness_UnmappedWordIsIllegal :
    (placed 0x02208133).live ∧ fetch (placed 0x02208133) = .word 0x02208133#32
      ∧ ∀ e ∈ decodeTable, e.row.selects 0x02208133#32 = false := by
  unfold State.live
  decide

theorem witness_OnlyALiveMachineSteps :
    (raise .fence (start [])).status ≠ .noException ∧ (markRefused (start [])).status = .noException
      ∧ (markRefused (start [])).refused = true ∧ (start []).live := by
  unfold State.live
  decide

/-- A step that is dispatched, one that ends at decode, one that ends at fetch. -/
theorem witness_CountersCountDispatchedSteps :
    (∃ s t w i, step s = .next t ∧ fetch s = .word w ∧ instrAt s.cfg w = some i)
      ∧ (∃ s t w, step s = .next t ∧ fetch s = .word w ∧ instrAt s.cfg w = none)
      ∧ ∃ s t, step s = .next t ∧ fetch s = .imemError :=
  ⟨⟨placed 0x002081B3, stepped (placed 0x002081B3), 0x002081B3#32, .add 3 1 2, rfl, by decide, by decide⟩,
    ⟨placed 0x02208133, stepped (placed 0x02208133), 0x02208133#32, rfl, by decide, by decide⟩,
    ⟨(start []).setPc 0#32, stepped ((start []).setPc 0#32), rfl, by decide⟩⟩

/-- The counters are words: at their last value a dispatched step wraps them to 0 (R11, R124). -/
theorem test_counters_wrap :
    let s := { placed 0x002081B3 with cycles := 0xFFFFFFFF#32, counts := ⟨0xFFFFFFFF#32, 0#32, 7#32, 0#32⟩ }
    (stepped s).cycles = 0#32 ∧ (stepped s).counts = ⟨0#32, 0#32, 7#32, 0#32⟩ := by decide

/-- A self-jump, ADD to x0, a load that no region answers, CSRRC on a backed CSR and on one that is not. -/
theorem witness_DispatchedStepsEmitOneTraceRecord :
    ∀ p ∈ [(placed 0x000000EF, 0x000000EF#32, Instr.jal 1 0, ExcCode.completion),
        (placed 0x00208033 [(1, 1#32), (2, 2#32)], 0x00208033#32, .add 0 1 2, .noException),
        (placed 0x00032283 [(6, 0x100#32)], 0x00032283#32, .lw 5 6 0, .dmemError),
        (placed 0x340332F3, 0x340332F3#32, .csrrc 5 0x340 6, .illegalInst),
        (placed 0x341332F3, 0x341332F3#32, .csrrc 5 0x341 6, .illegalInst)],
      p.1.wb = none ∧ fetch p.1 = .word p.2.1 ∧ instrAt p.1.cfg p.2.1 = some p.2.2.1
        ∧ (stepped p.1).status = p.2.2.2 ∧ step p.1 = .next (stepped p.1) := by
  simp only [List.forall_mem_cons]
  exact ⟨⟨rfl, by decide, by decide, by decide, rfl⟩, ⟨rfl, by decide, by decide, by decide, rfl⟩,
    ⟨rfl, by decide, by decide, by decide, rfl⟩, ⟨rfl, by decide, by decide, by decide, rfl⟩,
    ⟨rfl, by decide, by decide, by decide, rfl⟩, fun _ h => absurd h (by simp)⟩

/-- The record of ADD to x0 shows rd = 0 and the sum; that of a load that faults shows neither (R125). -/
theorem test_trace_of_add_to_x0 :
    (stepped (placed 0x00208033 [(1, 1#32), (2, 2#32)])).trace
      = [⟨0x80000000#32, 0x00208033#32, some 0, some 3#32, 0x80000004#32⟩] := by decide
theorem test_trace_of_faulting_load :
    (stepped (placed 0x00032283 [(6, 0x100#32)])).trace
      = [⟨0x80000000#32, 0x00032283#32, none, none, 0x80000000#32⟩] := by decide

/-- ADDI and brk change a register. -/
theorem witness_OnlyTheDestinationRegisterChanges :
    (∃ s t : State, exec (.addi 1 0 5) s = .next t ∧ t.readReg 1 ≠ s.readReg 1)
      ∧ ∃ s t : State, exec .ecall s = .next t ∧ t.readReg 10 ≠ s.readReg 10 :=
  ⟨⟨start [], _, rfl, by decide⟩, ⟨start [(17, 214#32), (10, 0x1234#32)], _, rfl, by decide⟩⟩

/-- The first and the last bytes of the regions, at each remainder. -/
theorem witness_LoadsWithinAWordAreExact :
    ∀ p ∈ [(0x80010000#32, 0), (0x80000001#32, 1), (0x8001FFFE#32, 2), (0x00001FFF#32, 3)],
      let s := start [(6, p.1)]
      let ea : Word := s.readReg 6 + (0x000#12).signExtend 32
      ea.toNat % 4 = p.2
        ∧ Reaches ([s.cfg.dmem] ++ s.cfg.vmRegions ++ [s.cfg.bootrom, s.cfg.imem]) ea := by
  unfold Reaches
  decide

/-- `start` with these policies for accesses that cross a word. -/
def crossing (load store : CrossingPolicy) (regs : List (Reg × Word)) : State :=
  { start regs with cfg := { Config.standard with crossingLoad := load, crossingStore := store } }

theorem witness_CrossingLoadsFollowTheirParameter :
    ∀ c ∈ [CrossingPolicy.truncate, .illegal],
      ∀ p ∈ [(0x80010001#32, 1), (0x8001FFFE#32, 2), (0x00001FFF#32, 3)],
        let s := crossing c .truncate [(6, p.1)]
        let ea : Word := s.readReg 6 + (0x000#12).signExtend 32
        s.cfg.crossingLoad = c ∧ ea.toNat % 4 = p.2
          ∧ Reaches ([s.cfg.dmem] ++ s.cfg.vmRegions ++ [s.cfg.bootrom, s.cfg.imem]) ea := by
  unfold Reaches
  decide

theorem witness_ExhaustedChainRaisesDmemError :
    (let s := start [(6, 0x80020000#32)];
      loadAccess s (.lw 5 6 0) = some (0x80020000#32, 4)
        ∧ ¬ Reaches ([s.cfg.dmem] ++ s.cfg.vmRegions ++ [s.cfg.bootrom, s.cfg.imem]) 0x80020000#32)
      ∧ (let s := start [(6, 0x00001000#32)];
        storeAccess s (.sb 6 7 0) = some (0x00001000#32, 1)
          ∧ ¬ Reaches ([s.cfg.dmem] ++ s.cfg.vmRegions ++ [s.cfg.imem]) 0x00001000#32) := by
  unfold Reaches
  decide

theorem witness_StoresWithinAWordWriteExactlyTheirBytes :
    ∀ p ∈ [(0x80010000#32, 0), (0x80000001#32, 1), (0x8001FFFE#32, 2), (0x8000FFFF#32, 3)],
      let s := start [(6, p.1), (7, 0xCAFEBABE#32)]
      let ea : Word := s.readReg 6 + (0x000#12).signExtend 32
      ea.toNat % 4 = p.2 ∧ Reaches ([s.cfg.dmem] ++ s.cfg.vmRegions ++ [s.cfg.imem]) ea := by
  unfold Reaches
  decide

theorem witness_CrossingStoresFollowTheirParameter :
    ∀ c ∈ [CrossingPolicy.truncate, .illegal],
      ∀ p ∈ [(0x80010001#32, 1), (0x8001FFFE#32, 2), (0x8000FFFF#32, 3)],
        let s := crossing .truncate c [(6, p.1)]
        let ea : Word := s.readReg 6 + (0x000#12).signExtend 32
        s.cfg.crossingStore = c ∧ ea.toNat % 4 = p.2
          ∧ Reaches ([s.cfg.dmem] ++ s.cfg.vmRegions ++ [s.cfg.imem]) ea := by
  unfold Reaches
  decide

/-- SB changes its byte; the read syscall changes a byte. -/
theorem witness_OnlyStoresAndTheReadSyscallChangeMemory :
    (∃ s t : State, exec (.sb 6 7 3) s = .next t ∧ t.mem.read 0x80010003 ≠ s.mem.read 0x80010003)
      ∧ ∃ s t : State, exec .ecall s = .next t ∧ t.mem.read 0x80010003 ≠ s.mem.read 0x80010003 :=
  ⟨⟨start [(6, 0x80010000#32), (7, 0xAB#32)], _, rfl, by decide⟩, ⟨reading, _, rfl, by decide⟩⟩

/-- SW writes `addi x10,x0,10` over the word after it (program P7 of 95_test_vectors.md). -/
theorem witness_StoredWordIsTheNextInstruction :
    let s := placed 0x00732223 [(6, 0x80000000#32), (7, 0x00A00513#32)]
    s.live ∧ s.pc.toNat % 4 = 0 ∧ s.vmFetch = false ∧ Reaches [s.cfg.imem, s.cfg.bootrom] s.pc
      ∧ Reaches [s.cfg.imem, s.cfg.bootrom] (s.pc + 4#32)
      ∧ decode (s.mem.readWord s.pc.toNat) = .ok (.sw 6 7 4)
      ∧ s.readReg 6 + (4#12).signExtend 32 = s.pc + 4#32
      ∧ Reaches ([s.cfg.dmem] ++ s.cfg.vmRegions ++ [s.cfg.imem]) (s.pc + 4#32)
      ∧ instrAt s.cfg (s.readReg 7) = some (.addi 10 0 10) := by
  unfold State.live Reaches
  decide

/-- A store to the boot ROM, which fails, and one to DMEM. -/
theorem witness_BootRomIsReadOnlyOutsideVmRegions :
    Config.standard.WellFormed ∧ Config.standard.bootrom ∉ Config.standard.vmRegions
      ∧ (let s := placed 0x00732023 [(6, 0x00001000#32), (7, 1#32)];
        s.cfg = Config.standard ∧ step s = .next (stepped s))
      ∧ (let s := placed 0x00732023 [(6, 0x80010000#32), (7, 1#32)];
        s.cfg = Config.standard ∧ step s = .next (stepped s)) :=
  ⟨by decide, by decide, ⟨rfl, rfl⟩, ⟨rfl, rfl⟩⟩

/-- A branch to itself and one that goes on, a jump to itself and one that goes on. -/
theorem witness_ControlCompletesOnlyOnItself :
    ∀ i ∈ [Instr.beq 0 0 0, .bne 0 0 0, .jal 1 0, .jalr 1 0 8],
      i.cls = .ctrl ∧ (start []).status = .noException := by
  decide

theorem witness_CsrWriteAndSetInstructions : 0xF14#12 ∈ (start []).cfg.backedCsrs := by decide

theorem witness_CsrClearInstructionsReadAndRaise : 0x340#12 ∈ (start [] [] [(0x340#12, 7#32)]).cfg.backedCsrs := by
  decide

theorem witness_UnbackedCsrIsIllegal :
    csrOf (.csrrc 5 0x341 6) = some 0x341#12 ∧ csrOf (.csrrwi 5 0xFFF 31) = some 0xFFF#12
      ∧ 0x341#12 ∉ (start []).cfg.backedCsrs ∧ 0xFFF#12 ∉ (start []).cfg.backedCsrs := by
  decide

theorem witness_OnlyCsrInstructionsTouchTheCsrFile :
    isCsrAccess .ecall = false ∧ isCsrAccess (.fence 0 0 0 0 0) = false ∧ isCsrAccess (.lw 5 6 0) = false := by
  decide

theorem witness_UnknownSyscallIsOsError :
    (start [(17, 999#32)]).readReg 17 ∉ (start [(17, 999#32)]).cfg.sysNum.all := by
  decide

theorem witness_FstatCloseAndLseekDoNothing :
    SysNums.linux.all.Nodup ∧ (start [(17, 80#32)]).readReg 17 = SysNums.linux.fstat
      ∧ (start [(17, 57#32)]).readReg 17 = SysNums.linux.close
      ∧ (start [(17, 62#32)]).readReg 17 = SysNums.linux.lseek ∧ (start []).cfg.sysNum = SysNums.linux := by
  decide

theorem witness_ExitCompletesTheRun :
    (start [(17, 93#32)]).cfg.sysNum.all.Nodup
      ∧ (start [(17, 93#32)]).readReg 17 = (start [(17, 93#32)]).cfg.sysNum.exit := by
  decide

/-- a0 = 0 and a0 ≠ 0. -/
theorem witness_BrkRewritesA0AndOneEntry :
    (start [(17, 214#32)]).cfg.sysNum.all.Nodup
      ∧ (start [(17, 214#32)]).readReg 17 = (start [(17, 214#32)]).cfg.sysNum.brk
      ∧ (start [(17, 214#32)]).readReg 10 = 0#32
      ∧ (start [(17, 214#32), (10, 0x1234#32)]).readReg 10 = 0x1234#32 := by
  decide

/-- Five bytes that are no sentinel; no byte at all; a byte of a sentinel word at the last address of DMEM. -/
theorem witness_WriteEmitsTheBuffer :
    (writing.cfg.sysNum.all.Nodup ∧ writing.readReg 17 = writing.cfg.sysNum.write
      ∧ ∀ k < (writing.readReg 12).toNat,
        Reaches writing.cfg.vmRegions (writing.readReg 11 + BitVec.ofNat 32 k)
          ∧ writing.mem.readWord (4 * ((writing.readReg 11 + BitVec.ofNat 32 k).toNat / 4))
            ≠ writing.cfg.writeSentinel)
      ∧ (let s := start [(17, 64#32)];
        s.readReg 17 = s.cfg.sysNum.write ∧ (s.readReg 12).toNat = 0)
      ∧ (let s := start [(17, 64#32), (11, 0x8001FFFF#32), (12, 1#32)] [(0x8001FFFC, 0xFFFFFFFF#32)];
        s.readReg 17 = s.cfg.sysNum.write
          ∧ ∀ k < (s.readReg 12).toNat, Reaches s.cfg.vmRegions (s.readReg 11 + BitVec.ofNat 32 k)) := by
  unfold Reaches
  decide

/-- A line over a word boundary, and an empty line; `l` is the line under the default format. -/
theorem witness_ReadStoresOneLine :
    (reading.cfg.sysNum.all.Nodup ∧ reading.readReg 17 = reading.cfg.sysNum.read
      ∧ reading.consoleIn = [0x68#8, 0x69#8] :: [] ∧ reading.cfg.readLineFormat = ReadLineFormat.plain
      ∧ ∀ k < 2, Reaches reading.cfg.vmRegions (reading.readReg 11 + BitVec.ofNat 32 k))
      ∧ (supplyLine [] (start [(17, 63#32)])).consoleIn = [] :: [] := by
  unfold Reaches
  decide

theorem witness_OnlyTheReadSyscallWaits :
    (let s := start [(17, 63#32)];
      s.cfg.sysNum.all.Nodup ∧ s.readReg 17 = s.cfg.sysNum.read ∧ s.consoleIn = [])
      ∧ reading.consoleIn ≠ [] ∧ Instr.ebreak ≠ .ecall := by
  decide

/-- A buffer in the boot ROM, and a line that runs past the end of DMEM, under both values of
`SYSCALL_MEM_FAIL`. -/
theorem witness_UnreachedSyscallBufferFollowsItsParameter :
    ∀ p ∈ [SyscallMemFail.refuse, .error],
      (let s := { start [(17, 64#32), (11, 0x00001000#32), (12, 1#32)] with
          cfg := { Config.standard with syscallMemFail := p } };
        s.cfg.syscallMemFail = p ∧ s.cfg.sysNum.all.Nodup ∧ s.readReg 17 = s.cfg.sysNum.write
          ∧ 0 < (s.readReg 12).toNat ∧ ¬ Reaches s.cfg.vmRegions (s.readReg 11 + BitVec.ofNat 32 0))
        ∧ (let s := { supplyLine [0x68#8, 0x69#8] (start [(17, 63#32), (11, 0x8001FFFF#32)]) with
            cfg := { Config.standard with syscallMemFail := p } };
          s.cfg.syscallMemFail = p ∧ s.readReg 17 = s.cfg.sysNum.read
            ∧ s.cfg.readLineFormat = ReadLineFormat.plain ∧ s.consoleIn = [0x68#8, 0x69#8] :: []
            ∧ ¬ Reaches s.cfg.vmRegions (s.readReg 11 + BitVec.ofNat 32 1)) := by
  unfold Reaches
  decide

/-- A line cut to one byte whose terminator is the byte outside, and an empty line whose newline is. -/
theorem witness_UnreachedSyscallBufferFollowsItsParameter_formats :
    (let s := { supplyLine [0x68#8, 0x69#8] (start [(17, 63#32), (11, 0x8001FFFF#32), (12, 1#32)]) with
        cfg := { Config.standard with readLineFormat := ⟨true, some 0#8, true⟩ } };
      s.readReg 17 = s.cfg.sysNum.read ∧ s.consoleIn = [0x68#8, 0x69#8] :: []
        ∧ 1 < ((([0x68#8, 0x69#8] ++ [0x0A#8]).take (s.readReg 12).toNat : List Byte)
          ++ s.cfg.readLineFormat.terminator.toList).length
        ∧ ¬ Reaches s.cfg.vmRegions (s.readReg 11 + BitVec.ofNat 32 1))
      ∧ (let s := { supplyLine [] (start [(17, 63#32), (11, 0x80020000#32)]) with
          cfg := { Config.standard with readLineFormat := ⟨true, none, false⟩ } };
        s.readReg 17 = s.cfg.sysNum.read ∧ s.consoleIn = [] :: []
          ∧ 0 < (([] ++ [0x0A#8] : List Byte) ++ s.cfg.readLineFormat.terminator.toList).length
          ∧ ¬ Reaches s.cfg.vmRegions (s.readReg 11 + BitVec.ofNat 32 0)) := by
  unfold Reaches
  decide

theorem witness_OnlyTheBridgeTouchesTheBreakTable : Instr.csrrw 1 0x340 2 ≠ .ecall ∧ Instr.ebreak ≠ .ecall := by
  decide

/-- A step that ends with IMEM_ERROR, one with DMEM_ERROR, and CSRRC. -/
theorem witness_FailingStepsHaveNoEffect :
    (let s := (start []).setPc 0#32;
      step s = .next (stepped s) ∧ (stepped s).status = .imemError)
      ∧ (let s := placed 0x00032283 [(6, 0x100#32)];
        step s = .next (stepped s) ∧ (stepped s).status = .dmemError)
      ∧ (let s := placed 0x340332F3 [(6, 1#32)] [] [(0x340#12, 0xF#32)];
        step s = .next (stepped s) ∧ (stepped s).status = .illegalInst
          ∧ (stepped s).readReg 5 ≠ s.readReg 5) := by
  refine ⟨⟨rfl, by decide⟩, ⟨rfl, by decide⟩, ⟨rfl, by decide⟩⟩

/-- Each cause: an unmapped word, a FENCE word left out by a narrower `FENCE_MATCH`, an unbacked CSR, CSRRC, a
crossing load and a crossing store under `Illegal`; and a word that is none of them. -/
theorem witness_IllegalInstructionCauses :
    (∃ s : State, s.live ∧ fetch s = .word 0x02208133#32)
      ∧ (∃ s : State, s.live ∧ fetch s = .word 0x0000000F#32
        ∧ 0x0000000F#32 &&& s.cfg.fenceMatch.mask ≠ s.cfg.fenceMatch.value)
      ∧ (∃ s : State, s.live ∧ fetch s = .word 0x341312F3#32 ∧ 0x341#12 ∉ s.cfg.backedCsrs)
      ∧ (∃ s : State, s.live ∧ fetch s = .word 0x340332F3#32)
      ∧ (∃ s : State, s.live ∧ fetch s = .word 0x00331283#32 ∧ s.cfg.crossingLoad = .illegal
        ∧ loadAccess s (.lh 5 6 3) = some (0x80010003#32, 2))
      ∧ (∃ s : State, s.live ∧ fetch s = .word 0x007320A3#32 ∧ s.cfg.crossingStore = .illegal
        ∧ storeAccess s (.sw 6 7 1) = some (0x80010001#32, 4))
      ∧ (∃ s : State, s.live ∧ fetch s = .word 0x002081B3#32) := by
  unfold State.live
  exact ⟨⟨placed 0x02208133, by decide⟩,
    ⟨{ placed 0x0000000F with
        cfg := { Config.standard with fenceMatch := ⟨0xFFFFFFFF#32, 0x0FF0000F#32⟩ } }, by decide⟩,
    ⟨placed 0x341312F3, by decide⟩, ⟨placed 0x340332F3, by decide⟩,
    ⟨(crossing .illegal .illegal [(6, 0x80010000#32)]).withFetchWord 32 0x00331283, by decide⟩,
    ⟨(crossing .illegal .illegal [(6, 0x80010000#32)]).withFetchWord 32 0x007320A3, by decide⟩,
    ⟨placed 0x002081B3, by decide⟩⟩

/-- COMPLETION by a jump and by exit, FENCE, OS_ERROR by EBREAK and by an unknown syscall, and none of them. -/
theorem witness_BenignCodesAndOsErrorCauses :
    (start []).cfg.sysNum.all.Nodup ∧ (start []).status = .noException
      ∧ (start []).cfg.syscallMemFail = .refuse
      ∧ (∃ t, exec (.jal 1 0) (start []) = .next t) ∧ (∃ t, exec .ecall (start [(17, 93#32)]) = .next t)
      ∧ (∃ t, exec (.fence 0 0 0 0 0) (start []) = .next t) ∧ (∃ t, exec .ebreak (start []) = .next t)
      ∧ (∃ t, exec .ecall (start []) = .next t) ∧ ∃ t, exec (.addi 1 0 5) (start []) = .next t :=
  ⟨by decide, rfl, rfl, ⟨_, rfl⟩, ⟨_, rfl⟩, ⟨_, rfl⟩, ⟨_, rfl⟩, ⟨_, rfl⟩, ⟨_, rfl⟩⟩

/-- A state in mid-run with registers, memory, a CSR, a break entry, counters and a trace record. -/
def midRun : State :=
  { placed 0x00731023 [(6, 0x80010000#32), (7, 0xBEEF#32)] [(0x80010000, 0x11223344#32)] [(0x340#12, 5#32)] with
    brkTable := [(0x1234, 0x80018000#32)]
    cycles := 1#32
    counts := ⟨1#32, 0#32, 0#32, 0#32⟩
    trace := [⟨0x7FFFFFFC#32, 0x00000013#32, some 0, some 0#32, 0x80000000#32⟩] }

theorem midRun_inv : midRun.Inv := by
  constructor <;> decide

theorem witness_StepKeepsTheInvariant : midRun.Inv ∧ step midRun = .next (stepped midRun) := ⟨midRun_inv, rfl⟩

/-- A loader that fills the last word of IMEM and the first of DMEM, and a second `run` at an even pc. -/
def loaded : Launch :=
  { imemImage := [0x13#8, 0x05#8, 0xA0#8, 0x00#8], dmemImage := [0x78#8, 0x56#8], vmImages := [],
    regs := Vector.replicate 32 7#32, entryPc := 0x80000000#32 }

theorem witness_LaunchMeetsTheInvariant :
    Config.standard.WellFormed ∧ loaded.Fits Config.standard
      ∧ ({ loaded with vmImages := [(0x8001FFFF, [1#8])] } : Launch).Fits Config.standard
      ∧ midRun.Inv ∧ (0x80000002#32).getLsbD 0 = false := by
  refine ⟨by decide, ?_, ?_, midRun_inv, by decide⟩ <;> (unfold Launch.Fits; decide)

theorem witness_ConstructionSetsTheLaunchValues :
    Config.standard.WellFormed ∧ loaded.Fits Config.standard ∧ loaded.vmImages = []
      ∧ ({ Config.standard with csrReset := [(0xF14, 1#32)], bootromImage := [0x37#8] } : Config).WellFormed := by
  refine ⟨by decide, ?_, rfl, by decide⟩
  unfold Launch.Fits
  decide

/-- A step that prints, and one that takes a console line. -/
theorem witness_StepKeepsTheModeAndOnlyAddsOutput :
    (let s := writing.withFetchWord 32 0x00000073;
      step s = .next (stepped s) ∧ (stepped s).consoleOut ≠ s.consoleOut)
      ∧ (let s := reading.withFetchWord 32 0x00000073;
        step s = .next (stepped s) ∧ s.consoleIn = [0x68#8, 0x69#8] :: (stepped s).consoleIn) := by
  refine ⟨⟨rfl, by decide⟩, ⟨rfl, by decide⟩⟩

theorem witness_OutputsDoNotInfluenceTheMachine :
    eraseOutputs midRun = eraseOutputs { midRun with cycles := 99#32, trace := [], consoleOut := [0x41#8] }
      ∧ midRun ≠ { midRun with cycles := 99#32, trace := [], consoleOut := [0x41#8] } := by
  decide

/-- A halted state, a refused one, a live one that steps, a live one that waits, a run that is cut off. -/
theorem witness_RunsCompose :
    (raise .fence midRun).status ≠ .noException
      ∧ (markRefused midRun).status = .noException ∧ (markRefused midRun).refused = true
      ∧ midRun.live ∧ step midRun = .next (stepped midRun)
      ∧ (placed 0x00000073 [(17, 63#32)]).live
      ∧ step (placed 0x00000073 [(17, 63#32)]) = .fault .consoleInputWait
      ∧ ∃ t, runLoop 1 midRun = .running t :=
  ⟨by decide, rfl, rfl, ⟨rfl, rfl⟩, rfl, ⟨rfl, rfl⟩, rfl, ⟨_, rfl⟩⟩

/-- An end, a refusal, a wait, and a run that goes on. -/
theorem witness_RunsEndAsTheSpecSays :
    midRun.Inv ∧ (∃ t, runLoop 1 (raise .fence midRun) = .ended t) ∧ (∃ t, runLoop 1 (markRefused midRun) = .refused t)
      ∧ (∃ t, runLoop 1 (placed 0x00000073 [(17, 63#32)]) = .waiting t) ∧ ∃ t, runLoop 1 midRun = .running t :=
  ⟨midRun_inv, ⟨_, rfl⟩, ⟨_, rfl⟩, ⟨_, rfl⟩, ⟨_, rfl⟩⟩

/-- The reset machine with one word at `RESET_PC`. -/
def boot (w : Nat) : State := State.reset.withFetchWord 32 w

/-- A boot phase that ends with FENCE, that ends with COMPLETION, that waits, is refused, and is cut off. -/
theorem witness_TwoPhaseBootHandsOverTheState :
    let phase1 := fun n (s : State) =>
      runLoop n { s with pc := s.cfg.resetPc, vmFetch := false, status := .noException }
    (∃ t, phase1 1 (boot 0x0FF0000F) = .ended t ∧ t.status = .fence)
      ∧ (∃ t, phase1 1 (boot 0x0000006F) = .ended t ∧ t.status ≠ .fence)
      ∧ (∃ t, phase1 1 ((boot 0x00000073).setReg 17 63#32) = .waiting t)
      ∧ (∃ t, phase1 1 (markRefused (boot 0x00000013)) = .refused t)
      ∧ ∃ t, phase1 1 (boot 0x00000013) = .running t :=
  ⟨⟨_, rfl, by decide⟩, ⟨_, rfl, by decide⟩, ⟨_, rfl⟩, ⟨_, rfl⟩, ⟨_, rfl⟩⟩

end Sys2Proof.Tests
end

section
/-! PROOFS. Noninterference (spec 10_state.md R33): a change of the state that the shared operations do not
see goes through every instruction built from them. What "not see" means is `Invisible` and
`InvisibleToBridge`; replacing the CSR file is such a change. -/

namespace Sys2Proof.Machine

/-- A change of the state that leaves what the class handlers read and commutes with what they write. -/
structure Invisible (f : State → State) : Prop where
  cfg : ∀ s, (f s).cfg = s.cfg
  pc : ∀ s, (f s).pc = s.pc
  mem : ∀ s, (f s).mem = s.mem
  readReg : ∀ s r, (f s).readReg r = s.readReg r
  writeRd : ∀ s rd v, (f s).writeRd rd v = f (s.writeRd rd v)
  setPc : ∀ s t, (f s).setPc t = f (s.setPc t)
  setMem : ∀ s m, (f s).setMem m = f (s.setMem m)
  raise : ∀ c s, raise c (f s) = f (raise c s)

/-- The same for what the syscall bridge reads and writes besides (45_syscalls.md R260). -/
structure InvisibleToBridge (f : State → State) : Prop extends Invisible f where
  consoleIn : ∀ s, (f s).consoleIn = s.consoleIn
  draws : ∀ s, (f s).draws = s.draws
  setReg : ∀ s r v, (f s).setReg r v = f (s.setReg r v)
  writeBrk : ∀ s k v, (f s).writeBrk k v = f (s.writeBrk k v)
  emit : ∀ s bs, (f s).emit bs = f (s.emit bs)
  dropLine : ∀ s, (f s).dropLine = f s.dropLine
  countDraw : ∀ s, (f s).countDraw = f s.countDraw
  markRefused : ∀ s, markRefused (f s) = f (markRefused s)

/-! ## The class handlers -/

section
variable {f : State → State} (hf : Invisible f) (s : State)
include hf

theorem Invisible.advance : (f s).advance = f s.advance := by
  unfold State.advance; rw [hf.pc, hf.setPc]

theorem Invisible.operandValue (o : Operand) : o.value (f s) = o.value s := by
  cases o
  case reg r => exact hf.readReg s r
  case pc => exact hf.pc s
  all_goals rfl

theorem Invisible.aluStep (op : AluOp) (rd : Reg) (a b : Operand) :
    aluStep op rd a b (f s) = mapNext f (aluStep op rd a b s) := by
  simp only [Machine.aluStep, hf.operandValue, hf.writeRd, hf.advance, mapNext]

theorem Invisible.loadAt (width : Width) (rd : Reg) {ea ea' : Word} (hea : ea' = ea) :
    loadAt width rd ea' (f s) = mapNext f (loadAt width rd ea s) := by
  subst hea
  simp only [Machine.loadAt, hf.cfg, hf.mem, hf.raise, hf.writeRd, hf.advance]
  cases regionRead (loadChain s.cfg) s.mem (alignDown ea')
  case none => rfl
  case some w => simp only; split <;> rfl

theorem Invisible.storeAt (width : Width) {v v' ea ea' : Word} (hv : v' = v) (hea : ea' = ea) :
    storeAt width v' ea' (f s) = mapNext f (storeAt width v ea s) := by
  subst hv hea
  simp only [Machine.storeAt, hf.cfg, hf.mem, hf.raise, hf.setMem, hf.advance]
  cases regionRead (storeChain s.cfg) s.mem (alignDown ea')
  case none => rfl
  case some old =>
    simp only
    split
    · rfl
    · cases regionWrite (storeChain s.cfg) s.mem (alignDown ea')
        (merge old v' (widthBytes width) (remainder ea')) <;> rfl

theorem Invisible.linkTo (link : Option Reg) : linkTo link (f s) = f (linkTo link s) := by
  cases link
  case none => rfl
  case some rd => simp only [linkTo_some, hf.pc, hf.writeRd]

theorem Invisible.transfer (link : Option Reg) {target target' : Word} (ht : target' = target) :
    transfer link target' (f s) = mapNext f (transfer link target s) := by
  subst ht
  by_cases h : target' = s.pc
  · rw [transfer_self _ _ _ h, transfer_self _ _ _ (h.trans (hf.pc s).symm), hf.linkTo, hf.raise, mapNext]
  · rw [transfer_away _ _ _ h, transfer_away _ _ _ (hf.pc s ▸ h), hf.linkTo, hf.setPc, mapNext]

theorem Invisible.branchStep (c : Cond) (rs1 rs2 : Reg) (off : BitVec 13) :
    branchStep c rs1 rs2 off (f s) = mapNext f (branchStep c rs1 rs2 off s) :=
  hf.transfer s none (by simp only [branchTarget, hf.readReg, hf.pc])

/-- Every instruction but the CSR accesses and ECALL. -/
theorem Invisible.exec {i : Instr} (hcsr : isCsrAccess i = false) (hecall : i ≠ .ecall) :
    exec i (f s) = mapNext f (exec i s) := by
  have hsum : ∀ r k, (f s).readReg r + k = s.readReg r + k := fun r k => by rw [hf.readReg]
  cases i
  case lui | auipc | addi | slti | sltiu | xori | ori | andi | slli | srli | srai | add | sub | sll | slt
      | sltu | xor | srl | sra | or | and => exact hf.aluStep ..
  case lb | lh | lw | lbu | lhu => exact hf.loadAt s _ _ (hsum _ _)
  case sb | sh | sw => exact hf.storeAt s _ (hf.readReg s _) (hsum _ _)
  case jal rd off => exact hf.transfer s (some rd) (by rw [hf.pc])
  case jalr rd rs1 imm => exact hf.transfer s (some rd) (by rw [hsum])
  case beq | bne | blt | bge | bltu | bgeu => exact hf.branchStep ..
  case fence => simp only [Machine.exec, execFence, hf.advance, hf.raise, mapNext]
  case ebreak => simp only [Machine.exec, execEbreak, hf.advance, hf.raise, mapNext]
  case ecall => exact absurd rfl hecall
  case csrrw | csrrs | csrrc | csrrwi | csrrsi | csrrci => cases hcsr

end

/-! ## The syscall bridge -/

/-- Apply a function to the state a bridge result carries. -/
def mapBridge (f : State → State) : BridgeResult → BridgeResult
  | .ok s => .ok (f s)
  | .error s => .error (f s)
  | .exited s => .exited (f s)
  | .refuse s => .refuse (f s)
  | .wait => .wait

section
variable {f : State → State} (hf : InvisibleToBridge f) (s : State)
include hf

theorem InvisibleToBridge.memFail : memFail (f s) = mapBridge f (memFail s) := by
  simp only [Machine.memFail, hf.cfg]
  cases s.cfg.syscallMemFail <;> rfl

theorem InvisibleToBridge.sysBrk : sysBrk (f s) = f (sysBrk s) := by
  simp only [Machine.sysBrk, hf.cfg, hf.readReg, hf.draws, hf.setReg, hf.writeBrk, hf.countDraw]

theorem InvisibleToBridge.sysWrite : sysWrite (f s) = mapBridge f (sysWrite s) := by
  simp only [Machine.sysWrite, hf.cfg, hf.mem, hf.readReg, hf.draws, hf.emit, hf.setReg, hf.countDraw,
    hf.memFail]
  cases gatherBytes s.cfg s.mem (s.readReg regA1) (s.readReg regA2).toNat <;> rfl

theorem InvisibleToBridge.sysRead : sysRead (f s) = mapBridge f (sysRead s) := by
  simp only [Machine.sysRead, hf.consoleIn, hf.cfg, hf.mem, hf.readReg, hf.draws, hf.setMem, hf.dropLine,
    hf.setReg, hf.countDraw, hf.memFail]
  cases s.consoleIn
  case nil => rfl
  case cons line _ =>
    simp only
    cases scatterBytes s.cfg s.mem (s.readReg regA1)
      (formatLine s.cfg.readLineFormat (s.readReg regA2).toNat line
        ++ s.cfg.readLineFormat.terminator.toList) <;> rfl

theorem InvisibleToBridge.bridge : bridge (f s) = mapBridge f (bridge s) := by
  simp only [Machine.bridge, hf.cfg, hf.readReg]
  cases serviceOf s.cfg.sysNum (s.readReg regA7)
  case none => rfl
  case some service =>
    cases service
    case fstat | close | lseek | exit => rfl
    case brk => exact congrArg BridgeResult.ok (hf.sysBrk s)
    case write => exact hf.sysWrite s
    case read => exact hf.sysRead s

theorem InvisibleToBridge.execEcall : execEcall (f s) = mapNext f (execEcall s) := by
  simp only [Machine.execEcall, hf.advance, hf.bridge]
  cases Machine.bridge s.advance <;> simp only [mapBridge, mapNext, hf.raise, hf.markRefused]

end

/-! ## The CSR file (10_state.md R33) -/

/-- Replace the CSR file. -/
def State.withCsrs (c : Table Word) (s : State) : State := { s with csrs := c }

theorem setReg_withCsrs (c : Table Word) (s : State) (r : Reg) (v : Word) :
    (s.withCsrs c).setReg r v = (s.setReg r v).withCsrs c := by
  unfold State.setReg; split <;> rfl

theorem writeRd_withCsrs (c : Table Word) (s : State) (rd : Reg) (v : Word) :
    (s.withCsrs c).writeRd rd v = (s.writeRd rd v).withCsrs c := by
  simp only [State.writeRd, setReg_withCsrs]; rfl

/-- No class handler but the CSR access, and no service of the bridge, sees the CSR file. -/
theorem invisibleToBridge_withCsrs (c : Table Word) : InvisibleToBridge (State.withCsrs c) where
  cfg _ := rfl
  pc _ := rfl
  mem _ := rfl
  readReg _ _ := rfl
  writeRd := writeRd_withCsrs c
  setPc _ _ := rfl
  setMem _ _ := rfl
  raise _ _ := rfl
  consoleIn _ := rfl
  draws _ := rfl
  setReg := setReg_withCsrs c
  writeBrk _ _ _ := rfl
  emit _ _ := rfl
  dropLine _ := rfl
  countDraw _ := rfl
  markRefused _ := rfl

theorem fetch_withCsrs (c : Table Word) (s : State) : fetch (s.withCsrs c) = fetch s := rfl

theorem exec_withCsrs (c : Table Word) (s : State) {i : Instr} (hcsr : isCsrAccess i = false) :
    exec i (s.withCsrs c) = mapNext (State.withCsrs c) (exec i s) := by
  have hf := invisibleToBridge_withCsrs c
  by_cases h : i = .ecall
  · subst h; exact hf.execEcall s
  · exact hf.toInvisible.exec s hcsr h

/-- Settles O38: replacing the CSR file is invisible to fetch, to the class handlers but the CSR access, and
to the bridge. -/
theorem onlyCsrInstructionsTouchTheCsrFile : Obligations.OnlyCsrInstructionsTouchTheCsrFile :=
  fun s c => ⟨fetch_withCsrs c s, fun _ hcsr => exec_withCsrs c s hcsr⟩

end Sys2Proof.Machine
end

section
/-! PROOFS. The break table is no memory (spec 20_memory.md R58). Replacing it is a change that no class
handler sees: not those that `Invisible` covers, and not the CSR access, for which `InvisibleToCsrAccess` says
what "not see" means. -/

namespace Sys2Proof.Machine

/-! ## The CSR access -/

/-- `Invisible`, and the same for what a CSR access reads and writes besides (44_csr_system.md R234). -/
structure InvisibleToCsrAccess (f : State → State) : Prop extends Invisible f where
  readCsr : ∀ s a, (f s).readCsr a = s.readCsr a
  writeCsr : ∀ s a v, (f s).writeCsr a v = f (s.writeCsr a v)

section
variable {f : State → State} (hf : InvisibleToCsrAccess f) (s : State)
include hf

theorem InvisibleToCsrAccess.csrAccess (op : CsrOp) (rd : Reg) (a : CsrAddr) {v v' : Word} (hv : v' = v) :
    csrAccess op rd a v' (f s) = mapNext f (csrAccess op rd a v s) := by
  subst hv
  simp only [Machine.csrAccess, hf.cfg, hf.readCsr, hf.writeRd, hf.writeCsr, hf.advance, hf.raise]
  split
  · cases op <;> rfl
  · rfl

/-- Every instruction but ECALL. -/
theorem InvisibleToCsrAccess.exec {i : Instr} (hecall : i ≠ .ecall) : exec i (f s) = mapNext f (exec i s) := by
  cases i
  case csrrw rd a rs1 => exact hf.csrAccess s .write rd a (hf.readReg s rs1)
  case csrrs rd a rs1 => exact hf.csrAccess s .set rd a (hf.readReg s rs1)
  case csrrc rd a rs1 => exact hf.csrAccess s .clear rd a (hf.readReg s rs1)
  case csrrwi rd a z => exact hf.csrAccess s .write rd a (v := zimm z) rfl
  case csrrsi rd a z => exact hf.csrAccess s .set rd a (v := zimm z) rfl
  case csrrci rd a z => exact hf.csrAccess s .clear rd a (v := zimm z) rfl
  all_goals exact hf.toInvisible.exec s rfl hecall

end

/-! ## The break table (10_state.md R38) -/

/-- Replace the break table. -/
def State.withBrkTable (b : Table Word) (s : State) : State := { s with brkTable := b }

theorem setReg_withBrkTable (b : Table Word) (s : State) (r : Reg) (v : Word) :
    (s.withBrkTable b).setReg r v = (s.setReg r v).withBrkTable b := by
  unfold State.setReg; split <;> rfl

theorem writeRd_withBrkTable (b : Table Word) (s : State) (rd : Reg) (v : Word) :
    (s.withBrkTable b).writeRd rd v = (s.writeRd rd v).withBrkTable b := by
  simp only [State.writeRd, setReg_withBrkTable]; rfl

/-- No class handler sees the break table; only the brk service of the bridge does (45_syscalls.md R270). -/
theorem invisibleToCsrAccess_withBrkTable (b : Table Word) : InvisibleToCsrAccess (State.withBrkTable b) where
  cfg _ := rfl
  pc _ := rfl
  mem _ := rfl
  readReg _ _ := rfl
  writeRd := writeRd_withBrkTable b
  setPc _ _ := rfl
  setMem _ _ := rfl
  raise _ _ := rfl
  readCsr _ _ := rfl
  writeCsr _ _ _ := rfl

theorem fetch_withBrkTable (b : Table Word) (s : State) : fetch (s.withBrkTable b) = fetch s := rfl

/-- Settles O48: replacing the break table is invisible to fetch and to every class handler, the CSR access
included. -/
theorem onlyTheBridgeTouchesTheBreakTable : Obligations.OnlyTheBridgeTouchesTheBreakTable :=
  fun s b => ⟨fetch_withBrkTable b s, fun _ hecall => (invisibleToCsrAccess_withBrkTable b).exec s hecall⟩

end Sys2Proof.Machine
end

section
/-! PROOFS. The steps that end before dispatch (spec 40_engine.md R111, R114): a fetch that no region of the
chain answers, and a word that matches no row. -/

namespace Sys2Proof.Machine

/-! ## Fetch at an aligned pc (R111) -/

theorem fetch_of_aligned_reaches {s : State} (hpc : s.pc.toNat % 4 = 0)
    (h : Reaches (fetchChain s.cfg s.vmFetch) s.pc) : fetch s = .word (s.mem.readWord s.pc.toNat) := by
  rw [← reaches_alignDown, alignDown_of_aligned hpc] at h
  rw [fetch_of_aligned hpc, fetchAt_of_reaches h]

theorem fetch_of_aligned_not_reaches {s : State} (hpc : s.pc.toNat % 4 = 0)
    (h : ¬ Reaches (fetchChain s.cfg s.vmFetch) s.pc) : fetch s = .imemError := by
  rw [← not_reaches_alignDown, alignDown_of_aligned hpc] at h
  rw [fetch_of_aligned hpc, fetchAt_of_not_reaches h]

theorem step_of_fetch_imemError {s : State} (hlive : s.live) (hf : fetch s = .imemError) :
    step s = .next (raise .imemError s) := by
  rw [step_of_live hlive, hf]

/-- Settles O9: at an aligned pc the fetch is `fetchAt` on the chain, and a failed fetch is raised. -/
theorem fetchReadsTheChainOrRaisesImemError : Obligations.FetchReadsTheChainOrRaisesImemError :=
  fun _ hlive hpc => ⟨fetch_of_aligned_reaches hpc,
    fun h => step_of_fetch_imemError hlive (fetch_of_aligned_not_reaches hpc h)⟩

/-! ## A word that matches no row (R114) -/

theorem lookupRow_eq_none {w : Word} (h : ∀ e ∈ decodeTable, e.row.selects w = false) : lookupRow w = none :=
  List.find?_eq_none.2 fun e he => by simp [h e he]

theorem instrAt_eq_none_of_unmapped (c : Config) {w : Word}
    (h : ∀ e ∈ decodeTable, e.row.selects w = false) : instrAt c w = none := by
  unfold instrAt decode
  rw [lookupRow_eq_none h]
  -- compressed or unmapped, either reject is no instruction
  cases w.extractLsb' 0 2 == 0b11#2 <;> rfl

theorem step_of_instrAt_none {s : State} {w : Word} (hlive : s.live) (hf : fetch s = .word w)
    (hi : instrAt s.cfg w = none) : step s = .next (raise .illegalInst s) := by
  rw [step_of_live hlive, hf]
  dsimp only
  rw [hi]

/-- Settles O11: no row selects the word, so decode rejects it and the step raises ILLEGAL_INST. -/
theorem unmappedWordIsIllegal : Obligations.UnmappedWordIsIllegal :=
  fun s _ hlive hf hrows => step_of_instrAt_none hlive hf (instrAt_eq_none_of_unmapped s.cfg hrows)

end Sys2Proof.Machine
end

section
/-! PROOFS. The ALU functions on the unsigned and signed readings of their operands (spec 41_alu.md R141-R149),
from the laws of their parts. -/

namespace Sys2Proof.Machine

theorem toNat_ofInt_word (x : Int) : ((BitVec.ofInt 32 x).toNat : Int) = x % 2 ^ 32 := by
  rw [BitVec.toNat_ofInt]
  exact Int.toNat_of_nonneg (Int.emod_nonneg _ (by decide))

theorem toNat_ite_one_zero (p : Prop) [Decidable p] :
    (if p then 1#32 else 0#32).toNat = if p then 1 else 0 := apply_ite BitVec.toNat ..

theorem toNat_alu_sub (a b : Word) : ((alu .sub a b).toNat : Int) = ((a.toNat : Int) - b.toNat) % 2 ^ 32 := by
  rw [alu, BitVec.toNat_sub]
  have hb := b.isLt
  omega

theorem toNat_alu_sll (a b : Word) : (alu .sll a b).toNat = a.toNat * 2 ^ (b.toNat % 32) % 2 ^ 32 := by
  rw [alu, shiftAmount_eq, shiftLeft_eq_ofNat, BitVec.toNat_ofNat]

theorem toNat_alu_srl (a b : Word) : (alu .srl a b).toNat = a.toNat / 2 ^ (b.toNat % 32) := by
  rw [alu, shiftAmount_eq, BitVec.toNat_ushiftRight, Nat.shiftRight_eq_div_pow]

theorem toNat_alu_sra (a b : Word) :
    ((alu .sra a b).toNat : Int) = a.toInt / 2 ^ (b.toNat % 32) % 2 ^ 32 := by
  rw [alu, shiftAmount_eq, sshiftRight_eq_ofInt, toNat_ofInt_word]

theorem toNat_alu_slt (a b : Word) : (alu .slt a b).toNat = if a.toInt < b.toInt then 1 else 0 := by
  rw [alu, truthWord_signedLess, toNat_ite_one_zero]

theorem toNat_alu_sltu (a b : Word) : (alu .sltu a b).toNat = if a.toNat < b.toNat then 1 else 0 := by
  rw [alu, truthWord_unsignedLess, toNat_ite_one_zero]

/-- Settles O17, one law for each function: sum and bitwise operations are the library's, shifts and
comparisons go through the numbers that `Laws/Alu.lean` gives them. -/
theorem aluComputesTheSpecFunctions : Obligations.AluComputesTheSpecFunctions := fun a b =>
  ⟨BitVec.toNat_add a b, toNat_alu_sub a b, toNat_alu_sll a b, toNat_alu_srl a b, toNat_alu_sra a b,
    toNat_alu_slt a b, toNat_alu_sltu a b, fun _ => BitVec.getLsbD_and, fun _ => BitVec.getLsbD_or,
    fun _ => BitVec.getLsbD_xor⟩

end Sys2Proof.Machine
end

section
/-! PROOFS. Loads and stores whose bytes lie in one aligned word (spec 42_memory_access.md R181-R185, R192, R193):
the access is carried out, and the lanes of the word are the bytes at the address. -/

namespace Sys2Proof.Machine

theorem crosses_eq_false {width : Width} {ea : Word} (h : ea.toNat % 4 + widthBytes width ≤ 4) :
    crosses width (remainder ea) = false := by
  rw [crosses, remainder_eq]
  exact decide_eq_false (Nat.not_lt.2 h)

/-! ## The low bytes of the shifted word (R183, R185) -/

theorem littleEndian_mod (m : Memory) (ea : Nat) {k n : Nat} (h : k ≤ n) :
    littleEndian m ea n % 2 ^ (8 * k) = littleEndian m ea k := by
  apply Nat.eq_of_testBit_eq
  intro j
  rw [Nat.testBit_mod_two_pow, testBit_littleEndian, testBit_littleEndian]
  by_cases hj : j < 8 * k
  · simp [hj, show j < 8 * n by omega]
  · simp [hj]

/-- The low `k` bytes of the shifted word are the `k` bytes at the address, when the word holds them all. -/
theorem laneShift_readWord_low (m : Memory) {ea : Word} {k : Nat} (h : ea.toNat % 4 + k ≤ 4) :
    (laneShift (m.readWord (alignDown ea).toNat) (remainder ea)).extractLsb' 0 (8 * k)
      = BitVec.ofNat (8 * k) (littleEndian m ea.toNat k) := by
  have hdvd : 2 ^ (8 * k) ∣ 2 ^ 32 := Nat.pow_dvd_pow 2 (by omega)
  apply BitVec.eq_of_toNat_eq
  rw [laneShift_readWord, BitVec.extractLsb'_toNat, BitVec.toNat_ofNat, BitVec.toNat_ofNat, Nat.shiftRight_zero,
    Nat.mod_mod_of_dvd _ hdvd, littleEndian_mod m _ (show k ≤ 4 - ea.toNat % 4 by omega),
    Nat.mod_eq_of_lt (littleEndian_lt m _ k)]

/-! ## The loaded value (R185, R187-R191) -/

section
variable (m : Memory) (ea : Word)

theorem loadedValue_byte :
    loadedValue .byte ea m = (BitVec.ofNat 8 (littleEndian m ea.toNat 1)).signExtend 32 :=
  congrArg (BitVec.signExtend 32) (laneShift_readWord_low m (k := 1) (by omega))

theorem loadedValue_byteU : loadedValue .byteU ea m = BitVec.ofNat 32 (littleEndian m ea.toNat 1) :=
  (congrArg (BitVec.setWidth 32) (laneShift_readWord_low m (k := 1) (by omega))).trans
    (BitVec.setWidth_ofNat_of_le_of_lt (by decide) (littleEndian_lt m _ 1))

variable {ea}

theorem loadedValue_half (h : ea.toNat % 4 ≤ 2) :
    loadedValue .half ea m = (BitVec.ofNat 16 (littleEndian m ea.toNat 2)).signExtend 32 :=
  congrArg (BitVec.signExtend 32) (laneShift_readWord_low m (k := 2) (by omega))

theorem loadedValue_halfU (h : ea.toNat % 4 ≤ 2) :
    loadedValue .halfU ea m = BitVec.ofNat 32 (littleEndian m ea.toNat 2) :=
  (congrArg (BitVec.setWidth 32) (laneShift_readWord_low m (k := 2) (by omega))).trans
    (BitVec.setWidth_ofNat_of_le_of_lt (by decide) (littleEndian_lt m _ 2))

theorem loadedValue_word (h : ea.toNat % 4 = 0) :
    loadedValue .word ea m = BitVec.ofNat 32 (littleEndian m ea.toNat 4) := by
  rw [loadedValue, laneShift_readWord, h]; rfl

end

/-! ## The accesses -/

/-- A load that its chain answers and the crossing policy lets through writes the loaded value to rd. -/
theorem loadAt_writesRd {width : Width} {rd : Reg} {ea v : Word} {s : State} (h : Reaches (loadChain s.cfg) ea)
    (hc : crosses width (remainder ea) = false ∨ s.cfg.crossingLoad = .truncate)
    (hv : loadedValue width ea s.mem = v) :
    ∃ t, loadAt width rd ea s = .next t ∧ WritesRd s t rd v :=
  ⟨_, loadAt_done width rd ea s ((reaches_alignDown _ _).2 h) hc, hv ▸ writesRd_writeRd_advance s rd _⟩

/-- A store that its chain answers and the crossing policy lets through writes the bytes its word holds. -/
theorem storeAt_storesBytes {width : Width} {v ea : Word} {s : State} {n : Nat}
    (h : Reaches (storeChain s.cfg) ea)
    (hc : crosses width (remainder ea) = false ∨ s.cfg.crossingStore = .truncate)
    (hn : n = min (widthBytes width) (4 - ea.toNat % 4)) :
    ∃ t, storeAt width v ea s = .next t ∧ StoresBytes s t ea n v :=
  ⟨_, storeAt_done width v ea s ((reaches_alignDown _ _).2 h) hc, storesBytes_storedMemory s width v ea n hn⟩

/-- A load within one word is carried out under either crossing policy. -/
theorem loadAt_within_word {width : Width} {rd : Reg} {ea v : Word} {s : State}
    (h : Reaches (loadChain s.cfg) ea) (hw : ea.toNat % 4 + widthBytes width ≤ 4)
    (hv : loadedValue width ea s.mem = v) :
    ∃ t, loadAt width rd ea s = .next t ∧ WritesRd s t rd v :=
  loadAt_writesRd h (.inl (crosses_eq_false hw)) hv

/-- A store within one word writes all its bytes under either crossing policy. -/
theorem storeAt_within_word {width : Width} {v ea : Word} {s : State} (h : Reaches (storeChain s.cfg) ea)
    (hw : ea.toNat % 4 + widthBytes width ≤ 4) :
    ∃ t, storeAt width v ea s = .next t ∧ StoresBytes s t ea (widthBytes width) v :=
  storeAt_storesBytes h (.inl (crosses_eq_false hw)) (by omega)

/-- Settles O22, width by width: the access stays in its word, and the value is the bytes at the address. -/
theorem loadsWithinAWordAreExact : Obligations.LoadsWithinAWordAreExact := by
  intro rd rs1 imm s ea r bytes h
  have hb : ea.toNat % 4 + 1 ≤ 4 := Nat.mod_lt _ (by decide)
  refine ⟨?lb, ?lbu, fun hr => ?lh, fun hr => ?lhu, fun hr => ?lw⟩
  case lb => exact loadAt_within_word h hb (loadedValue_byte s.mem ea)
  case lbu => exact loadAt_within_word h hb (loadedValue_byteU s.mem ea)
  case lh => exact loadAt_within_word h (Nat.add_le_add_right hr 2) (loadedValue_half s.mem hr)
  case lhu => exact loadAt_within_word h (Nat.add_le_add_right hr 2) (loadedValue_halfU s.mem hr)
  case lw => exact loadAt_within_word h (Nat.add_le_add_right hr.le 4) (loadedValue_word s.mem hr)

/-- Settles O25, width by width: the access stays in its word, so the merge writes all its bytes. -/
theorem storesWithinAWordWriteExactlyTheirBytes : Obligations.StoresWithinAWordWriteExactlyTheirBytes := by
  intro rs1 rs2 imm s ea r h
  have hb : ea.toNat % 4 + 1 ≤ 4 := Nat.mod_lt _ (by decide)
  refine ⟨?sb, fun hr => ?sh, fun hr => ?sw⟩
  case sb => exact storeAt_within_word (width := .byte) h hb
  case sh => exact storeAt_within_word (width := .half) h (Nat.add_le_add_right hr 2)
  case sw => exact storeAt_within_word (width := .word) h (Nat.add_le_add_right hr.le 4)

end Sys2Proof.Machine
end

section
/-! PROOFS. The six branches (spec 43_control.md R213-R219): one effect for every condition, and what each
condition says of the two registers. -/

namespace Sys2Proof.Machine

/-! ## The effect of a branch (R213) -/

theorem immB_eq_zero {off : BitVec 13} : immB off = 0#32 ↔ off = 0#13 := by
  rw [← BitVec.toInt_inj, immB, BitVec.toInt_signExtend_of_le (by decide), ← BitVec.toInt_inj]
  rfl

/-- A branch stays at its own address exactly when it is taken with offset 0. -/
theorem branchTarget_eq_pc {c : Cond} {rs1 rs2 : Reg} {off : BitVec 13} {s : State} :
    branchTarget c rs1 rs2 off s = s.pc ↔ condHolds c (s.readReg rs1) (s.readReg rs2) = true ∧ off = 0#13 := by
  unfold branchTarget
  split
  next hc => exact add_eq_left.trans (immB_eq_zero.trans (and_iff_right hc).symm)
  next hc => simp [hc]

/-- `taken` is any reading of the condition. -/
theorem branchStep_branches {c : Cond} {rs1 rs2 : Reg} {off : BitVec 13} {s : State} {taken : Bool}
    (hc : condHolds c (s.readReg rs1) (s.readReg rs2) = taken) :
    ∃ t, branchStep c rs1 rs2 off s = .next t ∧ Branches s t taken off := by
  subst hc
  obtain ⟨t, ht, hjumps, hwb, hregs⟩ := transfer_jumps none (branchTarget c rs1 rs2 off s) s
  have ⟨_, hstatus, _⟩ := hjumps
  refine ⟨t, ht, hregs, hwb, hjumps, fun hs => ?_⟩
  rw [hstatus, hs, ← branchTarget_eq_pc]
  simp

/-! ## The conditions (R214-R219) -/

section
variable (a b : Word)

theorem condHolds_eq : condHolds .eq a b = decide (a = b) := rfl

theorem condHolds_ne : condHolds .ne a b = decide (a ≠ b) := decide_not.symm

theorem condHolds_lt : condHolds .lt a b = decide (a.toInt < b.toInt) := rfl

theorem condHolds_ge : condHolds .ge a b = decide (b.toInt ≤ a.toInt) :=
  decide_not.symm.trans (decide_eq_decide.2 Int.not_lt)

theorem condHolds_ltu : condHolds .ltu a b = decide (a.toNat < b.toNat) := rfl

theorem condHolds_geu : condHolds .geu a b = decide (b.toNat ≤ a.toNat) :=
  decide_not.symm.trans (decide_eq_decide.2 Nat.not_lt)

end

/-- Settles O31: each branch is `branchStep` on its condition, and the condition is the comparison stated. -/
theorem branchesGoWhereTheirConditionSays : Obligations.BranchesGoWhereTheirConditionSays :=
  fun _ _ _ _ => ⟨branchStep_branches (condHolds_eq ..), branchStep_branches (condHolds_ne ..),
    branchStep_branches (condHolds_lt ..), branchStep_branches (condHolds_ge ..),
    branchStep_branches (condHolds_ltu ..), branchStep_branches (condHolds_geu ..)⟩

end Sys2Proof.Machine
end

section
/-! PROOFS. CSR access and EBREAK (spec 44_csr_system.md R232, R234, R236): the address a CSR instruction names,
and the one word that is EBREAK. -/

namespace Sys2Proof.Machine

/-! ## A CSR access on an address that is not backed (R236) -/

theorem toNat_fieldCsr (w : Word) : (fieldCsr w).toNat = w.toNat / 2 ^ 20 := by
  rw [fieldCsr, BitVec.extractLsb'_toNat, Nat.shiftRight_eq_div_pow]
  exact Nat.mod_eq_of_lt (by omega)

theorem csrBacked_eq_false {c : Config} {a : CsrAddr} : csrBacked c a = false ↔ a ∉ c.backedCsrs := by
  simp [csrBacked]

/-- An instruction that names a CSR carries its address in the I layout and is the access sequence on it
(R234). -/
theorem csrAccess_of_csrOf {i : Instr} {a : CsrAddr} (h : csrOf i = some a) (s : State) :
    ∃ op rd opd z, encode i = packI (rowOf i) a z rd ∧ exec i s = csrAccess op rd a opd s := by
  cases i
  case csrrw rd _ rs1 => cases h; exact ⟨.write, rd, s.readReg rs1, _, rfl, rfl⟩
  case csrrs rd _ rs1 => cases h; exact ⟨.set, rd, s.readReg rs1, _, rfl, rfl⟩
  case csrrc rd _ rs1 => cases h; exact ⟨.clear, rd, s.readReg rs1, _, rfl, rfl⟩
  case csrrwi rd _ z => cases h; exact ⟨.write, rd, zimm z, _, rfl, rfl⟩
  case csrrsi rd _ z => cases h; exact ⟨.set, rd, zimm z, _, rfl, rfl⟩
  case csrrci rd _ z => cases h; exact ⟨.clear, rd, zimm z, _, rfl, rfl⟩
  all_goals cases h

/-- Settles O35: the access sequence tests the address, the top 12 bits of the I layout, before any write. -/
theorem unbackedCsrIsIllegal : Obligations.UnbackedCsrIsIllegal := by
  intro i s a h
  obtain ⟨op, rd, opd, z, hword, hexec⟩ := csrAccess_of_csrOf h s
  constructor
  · rw [hword, ← toNat_fieldCsr, csr_packI]
  · intro ha
    rw [hexec, csrAccess_unbacked _ _ _ _ _ (csrBacked_eq_false.2 ha), raise]

/-! ## The word of EBREAK (R232) -/

/-- Each entry of the decode table builds instructions of its own row (30_encoding.md R93). -/
theorem rowOf_build (w : Word) : ∀ e ∈ decodeTable, rowOf (e.build w) = e.row :=
  have h : decodeTable.map (fun e => rowOf (e.build w)) = decodeTable.map Entry.row := rfl
  List.map_inj_left.1 h

/-- A word that decodes has the fixed bits of its instruction's row (30_encoding.md R90). -/
theorem selects_of_decode {w : Word} {i : Instr} (h : decode w = .ok i) : (rowOf i).selects w = true := by
  unfold decode at h
  split at h
  next e he =>
    cases h
    obtain ⟨hmem, hsel⟩ := lookupRow_some he
    rwa [rowOf_build w e hmem]
  next => split at h <;> cases h

/-- The row of EBREAK fixes every bit. -/
theorem ebreak_selects_iff {w : Word} : Row.ebreak.selects w = true ↔ w = 0x00100073#32 := by
  have hmask : w &&& Row.ebreak.mask = w := BitVec.and_allOnes
  rw [Row.selects, hmask, beq_iff_eq]
  rfl

theorem decode_eq_ebreak_iff {w : Word} : decode w = .ok .ebreak ↔ w = 0x00100073#32 := by
  constructor
  · exact fun h => ebreak_selects_iff.1 (selects_of_decode h)
  · rintro rfl
    decide

/-- Settles O37: decoding finds EBREAK only in its row, and `exec` advances pc, then raises OS_ERROR. -/
theorem ebreakEndsTheRunWithOsError : Obligations.EbreakEndsTheRunWithOsError :=
  ⟨fun _ => decode_eq_ebreak_iff, fun _ => rfl⟩

end Sys2Proof.Machine
end

section
/-! PROOFS. The syscalls without an effect (spec 45_syscalls.md R266-R269): an ECALL the bridge rejects, and one
it answers without touching the state. -/

namespace Sys2Proof.Machine

/-- ECALL in terms of the bridge's answer to the advanced state (R264). -/
theorem execEcall_of_bridge_ok {s t : State} (h : bridge s.advance = .ok t) : execEcall s = .next t := by
  rw [execEcall, h]

theorem execEcall_of_bridge_error {s t : State} (h : bridge s.advance = .error t) :
    execEcall s = .next (raise .osError t) := by
  rw [execEcall, h]

/-- The bridge rejects a number off the allowlist and hands the state back (R266). -/
theorem bridge_of_not_mem {s : State} (h : s.readReg regA7 ∉ s.cfg.sysNum.all) : bridge s = .error s := by
  rw [bridge, serviceOf_eq_none.2 h]

/-- The bridge answers fstat, close and lseek with the state it was given (R267-R269). -/
theorem bridge_of_noop {s : State} (hd : s.cfg.sysNum.all.Nodup)
    (h : s.readReg regA7 = s.cfg.sysNum.fstat ∨ s.readReg regA7 = s.cfg.sysNum.close
      ∨ s.readReg regA7 = s.cfg.sysNum.lseek) : bridge s = .ok s := by
  obtain ⟨hfstat, -, -, hclose, -, -, hlseek⟩ := serviceOf_eq_some hd (s.readReg regA7)
  obtain h | h | h := h
  · rw [bridge, hfstat.2 h]
  · rw [bridge, hclose.2 h]
  · rw [bridge, hlseek.2 h]

/-- Settles O40: pc advances, then the bridge answers an error, which raises OS_ERROR. -/
theorem unknownSyscallIsOsError : Obligations.UnknownSyscallIsOsError :=
  fun s h => execEcall_of_bridge_error (bridge_of_not_mem (s := s.advance) h)

/-- Settles O41: pc advances, and the bridge hands the advanced state back. -/
theorem fstatCloseAndLseekDoNothing : Obligations.FstatCloseAndLseekDoNothing :=
  fun s hd h => execEcall_of_bridge_ok (bridge_of_noop (s := s.advance) hd h)

end Sys2Proof.Machine
end

section
/-! PROOFS. A load or store that its chain does not answer (spec 42_memory_access.md R182, R192): which access a
load or store instruction is, and the exception of an exhausted chain (60_exceptions.md R303). -/

namespace Sys2Proof.Machine

/-- An instruction that loads is the load sequence at its address, `n` bytes wide (R187-R191). -/
theorem exec_of_loadAccess {i : Instr} {s : State} {ea : Word} {n : Nat} (h : loadAccess s i = some (ea, n)) :
    ∃ width rd, n = widthBytes width ∧ exec i s = loadAt width rd ea s := by
  cases i
  case lb => cases h; exact ⟨.byte, _, rfl, rfl⟩
  case lbu => cases h; exact ⟨.byteU, _, rfl, rfl⟩
  case lh => cases h; exact ⟨.half, _, rfl, rfl⟩
  case lhu => cases h; exact ⟨.halfU, _, rfl, rfl⟩
  case lw => cases h; exact ⟨.word, _, rfl, rfl⟩
  all_goals cases h

/-- An instruction that stores is the store sequence at its address, `n` bytes wide (R195-R197). -/
theorem exec_of_storeAccess {i : Instr} {s : State} {ea : Word} {n : Nat} (h : storeAccess s i = some (ea, n)) :
    ∃ width v, n = widthBytes width ∧ exec i s = storeAt width v ea s := by
  cases i
  case sb => cases h; exact ⟨.byte, _, rfl, rfl⟩
  case sh => cases h; exact ⟨.half, _, rfl, rfl⟩
  case sw => cases h; exact ⟨.word, _, rfl, rfl⟩
  all_goals cases h

/-- Settles O24: every load is `loadAt` and every store is `storeAt`, and both probe the chain before they do
anything else. -/
theorem exhaustedChainRaisesDmemError : Obligations.ExhaustedChainRaisesDmemError := by
  intro i s ea n
  constructor
  · intro h hchain
    obtain ⟨width, rd, -, hexec⟩ := exec_of_loadAccess h
    exact hexec.trans (loadAt_unreached width rd ea s ((not_reaches_alignDown _ ea).2 hchain))
  · intro h hchain
    obtain ⟨width, v, -, hexec⟩ := exec_of_storeAccess h
    exact hexec.trans (storeAt_unreached width v ea s ((not_reaches_alignDown _ ea).2 hchain))

end Sys2Proof.Machine
end

section
/-! PROOFS. Encoding (spec 30_encoding.md). The rows of the decode table are disjoint, so a word that selects a row
decodes by it; both round trips then follow format by format. -/

namespace Sys2Proof.Machine

/-! ## The rows are disjoint (R90) -/

/-- Two rows that both select a word agree on the bits both fix. -/
theorem fixedBits_agree {r q : Row} {w : Word} (hr : r.selects w = true) (hq : q.selects w = true) :
    r.value &&& q.mask = q.value &&& r.mask := by
  simp only [Row.selects, beq_iff_eq] at hr hq
  rw [← hr, ← hq, BitVec.and_assoc, BitVec.and_assoc, BitVec.and_comm r.mask]

theorem decodeTable_fixedBits_differ :
    decodeTable.Pairwise (fun e f => e.row.value &&& f.row.mask ≠ f.row.value &&& e.row.mask) := by
  decide

/-- Settles O3: of any two rows, the bits both fix differ. -/
theorem decodeTableRowsAreDisjoint : Obligations.DecodeTableRowsAreDisjoint :=
  decodeTable_fixedBits_differ.imp fun hne _ ⟨he, hf⟩ => hne (fixedBits_agree he hf)

/-- Two entries of the table whose rows select the same word are one. -/
theorem entry_unique {e f : Entry} {w : Word} (he : e ∈ decodeTable) (hf : f ∈ decodeTable)
    (hew : e.row.selects w = true) (hfw : f.row.selects w = true) : e = f := by
  by_contra hne
  have hsymm : Std.Symm (fun e f : Entry => e.row.value &&& f.row.mask ≠ f.row.value &&& e.row.mask) :=
    ⟨fun _ _ h => h.symm⟩
  exact decodeTable_fixedBits_differ.forall he hf hne (fixedBits_agree hew hfw)

theorem decode_of_selects {e : Entry} {w : Word} (he : e ∈ decodeTable) (hs : e.row.selects w = true) :
    decode w = .ok (e.build w) := by
  unfold decode
  cases h : lookupRow w with
  | none => exact absurd hs (List.find?_eq_none.1 h e he)
  | some f =>
    obtain ⟨hf, hfw⟩ := lookupRow_some h
    rw [entry_unique hf he hfw hs]

/-- A word decodes exactly when it selects a row, and then by that row's entry. -/
theorem decode_eq_ok_iff {w : Word} {i : Instr} :
    decode w = .ok i ↔ ∃ e ∈ decodeTable, e.row.selects w = true ∧ e.build w = i := by
  constructor
  · intro h
    unfold decode at h
    split at h
    next e he =>
      obtain ⟨hmem, hsel⟩ := lookupRow_some he
      exact ⟨e, hmem, hsel, Except.ok.inj h⟩
    next => split at h <;> cases h
  · rintro ⟨e, he, hs, rfl⟩
    exact decode_of_selects he hs

/-! ## Decoding an encoding (R82, R93) -/

/-- The constructors of `Instr` stand in the order of the table, so an instruction's entry is found by its
constructor's number. -/
theorem decode_encode_of_entry {i : Instr} {e : Entry} (he : decodeTable[i.ctorIdx]? = some e)
    (hs : e.row.selects (encode i) = true) (hb : e.build (encode i) = i) : decode (encode i) = .ok i :=
  (decode_of_selects (List.mem_of_getElem? he) hs).trans (congrArg Except.ok hb)

open Laws.EncodeSelectsRow in
/-- The word of an instruction selects its own row (R90). -/
theorem selects_encode : ∀ i : Instr, (rowOf i).selects (encode i) = true
  | .lui .. => lui ..
  | .auipc .. => auipc ..
  | .addi .. => addi ..
  | .slti .. => slti ..
  | .sltiu .. => sltiu ..
  | .xori .. => xori ..
  | .ori .. => ori ..
  | .andi .. => andi ..
  | .slli .. => slli ..
  | .srli .. => srli ..
  | .srai .. => srai ..
  | .add .. => add ..
  | .sub .. => sub ..
  | .sll .. => sll ..
  | .slt .. => slt ..
  | .sltu .. => sltu ..
  | .xor .. => xor ..
  | .srl .. => srl ..
  | .sra .. => sra ..
  | .or .. => or ..
  | .and .. => and ..
  | .lb .. => lb ..
  | .lh .. => lh ..
  | .lw .. => lw ..
  | .lbu .. => lbu ..
  | .lhu .. => lhu ..
  | .sb .. => sb ..
  | .sh .. => sh ..
  | .sw .. => sw ..
  | .jal .. => jal ..
  | .jalr .. => jalr ..
  | .beq .. => beq ..
  | .bne .. => bne ..
  | .blt .. => blt ..
  | .bge .. => bge ..
  | .bltu .. => bltu ..
  | .bgeu .. => bgeu ..
  | .fence .. => fence ..
  | .ecall => ecall
  | .ebreak => ebreak
  | .csrrw .. => csrrw ..
  | .csrrs .. => csrrs ..
  | .csrrc .. => csrrc ..
  | .csrrwi .. => csrrwi ..
  | .csrrsi .. => csrrsi ..
  | .csrrci .. => csrrci ..

theorem extractLsb'_extractLsb'_add {n a b k l : Nat} (w : BitVec n) (h : k + l ≤ b) :
    (w.extractLsb' a b).extractLsb' k l = w.extractLsb' (a + k) l := by
  apply BitVec.eq_of_getLsbD_eq
  intro i hi
  simp only [BitVec.getLsbD_extractLsb', hi, show k + i < b by omega, decide_true, Bool.true_and, Nat.add_assoc]

section
variable (r : Row) (fm pred succ : BitVec 4) (z : BitVec 5) (rd : Reg)

/-- FENCE's ignored fields are the parts of the I immediate (R94). -/
theorem fm_packI : fieldFm (packI r (fm ++ pred ++ succ) z rd) = fm := by
  have h := congrArg (BitVec.extractLsb' 8 4) (immI_packI r (fm ++ pred ++ succ) z rd)
  rw [fieldImmI, extractLsb'_extractLsb'_add _ (by decide)] at h
  exact h.trans ((BitVec.extractLsb'_append_eq_of_le (by decide)).trans BitVec.extractLsb'_append_eq_left)

theorem pred_packI : fieldPred (packI r (fm ++ pred ++ succ) z rd) = pred := by
  have h := congrArg (BitVec.extractLsb' 4 4) (immI_packI r (fm ++ pred ++ succ) z rd)
  rw [fieldImmI, extractLsb'_extractLsb'_add _ (by decide)] at h
  exact h.trans ((BitVec.extractLsb'_append_eq_of_le (by decide)).trans BitVec.extractLsb'_append_eq_right)

theorem succ_packI : fieldSucc (packI r (fm ++ pred ++ succ) z rd) = succ := by
  have h := congrArg (BitVec.extractLsb' 0 4) (immI_packI r (fm ++ pred ++ succ) z rd)
  rw [fieldImmI, extractLsb'_extractLsb'_add _ (by decide)] at h
  exact h.trans BitVec.extractLsb'_append_eq_right

end

/-- Each entry gives back the instruction packed in its format. -/
theorem decode_encode {i : Instr} (h : i.WellFormed) : decode (encode i) = .ok i := by
  have hs := selects_encode i
  cases i
  case lui | auipc => exact decode_encode_of_entry rfl hs (by simp only [encode, rd_packU, immU_packU])
  case jal => exact decode_encode_of_entry rfl hs (by simp only [encode, rd_packJ, immJ_packJ _ _ _ h])
  case beq | bne | blt | bge | bltu | bgeu =>
    exact decode_encode_of_entry rfl hs (by simp only [encode, rs1_packB, rs2_packB, immB_packB _ _ _ _ h])
  case sb | sh | sw =>
    exact decode_encode_of_entry rfl hs (by simp only [encode, rs1_packS, rs2_packS, immS_packS])
  case slli | srli | srai =>
    exact decode_encode_of_entry rfl hs (by simp only [encode, rd_packR, rs1_packR, shamt_packR])
  case add | sub | sll | slt | sltu | xor | srl | sra | or | and =>
    exact decode_encode_of_entry rfl hs (by simp only [encode, rd_packR, rs1_packR, rs2_packR])
  case fence =>
    exact decode_encode_of_entry rfl hs
      (by simp only [encode, rd_packI, rs1_packI, fm_packI, pred_packI, succ_packI])
  case ecall | ebreak => exact decode_encode_of_entry rfl hs rfl
  case csrrw | csrrs | csrrc =>
    exact decode_encode_of_entry rfl hs (by simp only [encode, rd_packI, rs1_packI, csr_packI])
  case csrrwi | csrrsi | csrrci =>
    exact decode_encode_of_entry rfl hs (by simp only [encode, rd_packI, zimm_packI, csr_packI])
  all_goals exact decode_encode_of_entry rfl hs (by simp only [encode, rd_packI, rs1_packI, immI_packI])

/-- Settles O1: the encoding selects its row, the row's entry reads the packed fields back, and the four bytes
of a word are the word. -/
theorem decodeOfEncode : Obligations.DecodeOfEncode := by
  intro i rest h
  have hd := decode_encode h
  refine ⟨hd, ?_⟩
  simp only [bytesOfWord, List.cons_append, List.nil_append, decodeBytes, wordOfBytes_byteOf, hd]

/-! ## Encoding what decodes (R90, R94) -/

/-- The bits a row fixes are the word's. -/
theorem value_of_selects {r : Row} {w : Word} (h : r.selects w = true) (lo len : Nat)
    (hm : r.mask.extractLsb' lo len = BitVec.allOnes len) :
    r.value.extractLsb' lo len = w.extractLsb' lo len := by
  rw [Row.selects, beq_iff_eq] at h
  rw [← h, BitVec.extractLsb'_and, hm, BitVec.and_allOnes]

theorem regBits_fieldRd (w : Word) : regBits (fieldRd w) = w.extractLsb' 7 5 := rfl
theorem regBits_fieldRs1 (w : Word) : regBits (fieldRs1 w) = w.extractLsb' 15 5 := rfl
theorem regBits_fieldRs2 (w : Word) : regBits (fieldRs2 w) = w.extractLsb' 20 5 := rfl

/-- Neighbouring fields of a word, put together. -/
theorem append_fields {w : Word} {a b m n : Nat} (h : a = b + n) :
    w.extractLsb' a m ++ w.extractLsb' b n = w.extractLsb' b (m + n) :=
  BitVec.extractLsb'_append_extractLsb'_eq_extractLsb' h

/-! The parts of the immediates that the formats scatter (R84, R85, R87). -/

theorem immS_parts (w : Word) :
    (fieldImmS w).extractLsb' 5 7 = w.extractLsb' 25 7 ∧ (fieldImmS w).extractLsb' 0 5 = w.extractLsb' 7 5 :=
  ⟨BitVec.extractLsb'_append_eq_left, BitVec.extractLsb'_append_eq_right⟩

theorem immB_parts (w : Word) :
    (fieldImmB w).extractLsb' 12 1 = w.extractLsb' 31 1 ∧ (fieldImmB w).extractLsb' 11 1 = w.extractLsb' 7 1
      ∧ (fieldImmB w).extractLsb' 5 6 = w.extractLsb' 25 6 ∧ (fieldImmB w).extractLsb' 1 4 = w.extractLsb' 8 4 := by
  have hdrop {lo len : Nat} (h : 1 ≤ lo) : (fieldImmB w).extractLsb' lo len = _ :=
    BitVec.extractLsb'_append_eq_of_le h
  refine ⟨?_, ?_, ?_, ?_⟩
  · rw [hdrop (by decide), BitVec.extractLsb'_append_eq_of_le (by decide),
      BitVec.extractLsb'_append_eq_of_le (by decide)]
    exact BitVec.extractLsb'_append_eq_left
  · rw [hdrop (by decide), BitVec.extractLsb'_append_eq_of_le (by decide),
      BitVec.extractLsb'_append_eq_of_le (by decide)]
    exact BitVec.extractLsb'_append_eq_right
  · rw [hdrop (by decide), BitVec.extractLsb'_append_eq_of_le (by decide)]
    exact BitVec.extractLsb'_append_eq_right
  · rw [hdrop (by decide)]
    exact BitVec.extractLsb'_append_eq_right

theorem immJ_parts (w : Word) :
    (fieldImmJ w).extractLsb' 20 1 = w.extractLsb' 31 1 ∧ (fieldImmJ w).extractLsb' 12 8 = w.extractLsb' 12 8
      ∧ (fieldImmJ w).extractLsb' 11 1 = w.extractLsb' 20 1
      ∧ (fieldImmJ w).extractLsb' 1 10 = w.extractLsb' 21 10 := by
  have hdrop {lo len : Nat} (h : 1 ≤ lo) : (fieldImmJ w).extractLsb' lo len = _ :=
    BitVec.extractLsb'_append_eq_of_le h
  refine ⟨?_, ?_, ?_, ?_⟩
  · rw [hdrop (by decide), BitVec.extractLsb'_append_eq_of_le (by decide),
      BitVec.extractLsb'_append_eq_of_le (by decide)]
    exact BitVec.extractLsb'_append_eq_left
  · rw [hdrop (by decide), BitVec.extractLsb'_append_eq_of_le (by decide),
      BitVec.extractLsb'_append_eq_of_le (by decide)]
    exact BitVec.extractLsb'_append_eq_right
  · rw [hdrop (by decide), BitVec.extractLsb'_append_eq_of_le (by decide)]
    exact BitVec.extractLsb'_append_eq_right
  · rw [hdrop (by decide)]
    exact BitVec.extractLsb'_append_eq_right

section
variable {r : Row} {w : Word} (h : r.selects w = true)
include h

theorem opcode_of_selects (hm : r.mask.extractLsb' 0 7 = BitVec.allOnes 7) : r.opcode = w.extractLsb' 0 7 :=
  value_of_selects h 0 7 hm

theorem funct3_of_selects (hm : r.mask.extractLsb' 12 3 = BitVec.allOnes 3) : r.funct3 = w.extractLsb' 12 3 :=
  value_of_selects h 12 3 hm

theorem packR_of_selects (hm : r.mask = 0xFE00707F#32) :
    packR r (fieldShamt w) (fieldRs1 w) (fieldRd w) = w := by
  have h7 : r.funct7 = w.extractLsb' 25 7 := value_of_selects h 25 7 (by rw [hm]; rfl)
  rw [packR, h7, funct3_of_selects h (by rw [hm]; rfl), opcode_of_selects h (by rw [hm]; rfl), fieldShamt,
    regBits_fieldRs1, regBits_fieldRd]
  repeat rw [append_fields (by decide)]
  exact BitVec.extractLsb'_eq_self

theorem packI_of_selects (hm : r.mask = 0x0000707F#32) :
    packI r (fieldImmI w) (fieldZimm w) (fieldRd w) = w := by
  rw [packI, funct3_of_selects h (by rw [hm]; rfl), opcode_of_selects h (by rw [hm]; rfl), fieldImmI,
    fieldZimm, regBits_fieldRd]
  repeat rw [append_fields (by decide)]
  exact BitVec.extractLsb'_eq_self

theorem packS_of_selects (hm : r.mask = 0x0000707F#32) :
    packS r (fieldImmS w) (fieldRs2 w) (fieldRs1 w) = w := by
  obtain ⟨hhi, hlo⟩ := immS_parts w
  rw [packS, funct3_of_selects h (by rw [hm]; rfl), opcode_of_selects h (by rw [hm]; rfl), hhi, hlo,
    regBits_fieldRs2, regBits_fieldRs1]
  repeat rw [append_fields (by decide)]
  exact BitVec.extractLsb'_eq_self

theorem packB_of_selects (hm : r.mask = 0x0000707F#32) :
    packB r (fieldImmB w) (fieldRs2 w) (fieldRs1 w) = w := by
  obtain ⟨h12, h11, h5, h1⟩ := immB_parts w
  rw [packB, funct3_of_selects h (by rw [hm]; rfl), opcode_of_selects h (by rw [hm]; rfl), h12, h11, h5, h1,
    regBits_fieldRs2, regBits_fieldRs1]
  repeat rw [append_fields (by decide)]
  exact BitVec.extractLsb'_eq_self

theorem packU_of_selects (hm : r.mask = 0x0000007F#32) : packU r (fieldImmU w) (fieldRd w) = w := by
  rw [packU, opcode_of_selects h (by rw [hm]; rfl), fieldImmU, regBits_fieldRd]
  repeat rw [append_fields (by decide)]
  exact BitVec.extractLsb'_eq_self

theorem packJ_of_selects (hm : r.mask = 0x0000007F#32) : packJ r (fieldImmJ w) (fieldRd w) = w := by
  obtain ⟨h20, h12, h11, h1⟩ := immJ_parts w
  rw [packJ, opcode_of_selects h (by rw [hm]; rfl), h20, h12, h11, h1, regBits_fieldRd]
  repeat rw [append_fields (by decide)]
  exact BitVec.extractLsb'_eq_self

/-- FENCE's ignored fields are the I immediate (R94). -/
theorem packI_fence_of_selects (hm : r.mask = 0x0000707F#32) :
    packI r (fieldFm w ++ fieldPred w ++ fieldSucc w) (fieldZimm w) (fieldRd w) = w := by
  have hfields : fieldFm w ++ fieldPred w ++ fieldSucc w = fieldImmI w :=
    (congrArg (· ++ fieldSucc w) (append_fields rfl)).trans (append_fields rfl)
  rw [hfields]
  exact packI_of_selects h hm

theorem value_eq_of_selects (hm : r.mask = BitVec.allOnes 32) : r.value = w := by
  rw [Row.selects, hm, BitVec.and_allOnes, beq_iff_eq] at h
  exact h.symm

end

/-- The instruction a word decodes to is what its constructor's entry builds from the word. -/
theorem build_of_decode {w : Word} {i : Instr} {e : Entry} (h : decode w = .ok i)
    (he : decodeTable[i.ctorIdx]? = some e) (hrow : e.row = rowOf i) : e.build w = i :=
  Except.ok.inj ((decode_of_selects (List.mem_of_getElem? he) (hrow ▸ selects_of_decode h)).symm.trans h)

/-- The fields an entry reads from a word and the bits its row fixes are the whole word. -/
theorem encode_of_decode {w : Word} {i : Instr} (h : decode w = .ok i) : encode i = w := by
  have hs := selects_of_decode h
  cases i
  case lui | auipc => cases build_of_decode h rfl rfl; exact packU_of_selects hs rfl
  case jal => cases build_of_decode h rfl rfl; exact packJ_of_selects hs rfl
  case beq | bne | blt | bge | bltu | bgeu => cases build_of_decode h rfl rfl; exact packB_of_selects hs rfl
  case sb | sh | sw => cases build_of_decode h rfl rfl; exact packS_of_selects hs rfl
  case slli | srli | srai | add | sub | sll | slt | sltu | xor | srl | sra | or | and =>
    cases build_of_decode h rfl rfl; exact packR_of_selects hs rfl
  case fence => cases build_of_decode h rfl rfl; exact packI_fence_of_selects hs rfl
  case ecall | ebreak => exact value_eq_of_selects hs rfl
  all_goals cases build_of_decode h rfl rfl; exact packI_of_selects hs rfl

/-- Settles O2: the decoder builds even offsets, and the encoder puts the fields and the fixed bits together. -/
theorem encodeOfDecode : Obligations.EncodeOfDecode :=
  fun _ _ h => ⟨decode_wellFormed h, encode_of_decode h⟩

end Sys2Proof.Machine
end

section
/-! PROOFS. What decodes, and to what (spec 30_encoding.md): the words of the opcode map, the immediates as numbers,
and the class handlers on an encoded word. -/

namespace Sys2Proof.Machine

/-- Settles O4: each word is looked up in the table. -/
theorem sampleWordsDecode : Obligations.SampleWordsDecode := by
  unfold Obligations.SampleWordsDecode
  decide

/-! ## The opcode map (R92, R95) -/

/-- The match values of the rows that fix the opcode alone; the opcode and funct3; funct7 too; the whole word. -/
def opcodeValues : List Word := [0x37, 0x17, 0x6F]
def funct3Values : List Word :=
  [0x67, 0x63, 0x1063, 0x4063, 0x5063, 0x6063, 0x7063, 0x03, 0x1003, 0x2003, 0x4003, 0x5003, 0x23, 0x1023, 0x2023,
    0x13, 0x2013, 0x3013, 0x4013, 0x6013, 0x7013, 0x0F, 0x1073, 0x2073, 0x3073, 0x5073, 0x6073, 0x7073]
def funct7Values : List Word :=
  [0x1013, 0x5013, 0x40005013, 0x33, 0x40000033, 0x1033, 0x2033, 0x3033, 0x4033, 0x5033, 0x40005033, 0x6033, 0x7033]
def wholeValues : List Word := [0x73, 0x100073]

/-- The masks and match values of the table are these. -/
theorem decodeTable_masks_values :
    (decodeTable.map fun e => (e.row.mask, e.row.value)).Perm
      (opcodeValues.map (Prod.mk 0x7F#32) ++ funct3Values.map (Prod.mk 0x707F#32)
        ++ funct7Values.map (Prod.mk 0xFE00707F#32) ++ wholeValues.map (Prod.mk 0xFFFFFFFF#32)) := by
  decide

theorem exists_selects_iff (w : Word) :
    (∃ e ∈ decodeTable, e.row.selects w = true) ↔
      w &&& 0x7F#32 ∈ opcodeValues ∨ w &&& 0x707F#32 ∈ funct3Values ∨ w &&& 0xFE00707F#32 ∈ funct7Values
        ∨ w ∈ wholeValues := by
  have hfull : w &&& 0xFFFFFFFF#32 = w := BitVec.and_allOnes
  calc (∃ e ∈ decodeTable, e.row.selects w = true)
      ↔ ∃ p, p ∈ decodeTable.map (fun e => (e.row.mask, e.row.value)) ∧ w &&& p.1 = p.2 := by simp [Row.selects]
    _ ↔ _ := by
      simp only [decodeTable_masks_values.mem_iff, List.mem_append, List.mem_map, or_and_right, exists_or]
      simp [hfull, or_assoc]

theorem toNat_append_add {m n : Nat} (x : BitVec m) (y : BitVec n) :
    (x ++ y).toNat = x.toNat * 2 ^ n + y.toNat := by
  rw [BitVec.toNat_append, ← Nat.shiftLeft_add_eq_or_of_lt y.isLt, Nat.shiftLeft_eq]

theorem toNat_field (w : Word) (lo len : Nat) : (w.extractLsb' lo len).toNat = w.toNat / 2 ^ lo % 2 ^ len := by
  rw [BitVec.extractLsb'_toNat, Nat.shiftRight_eq_div_pow]

theorem toNat_and_opcode (w : Word) : (w &&& 0x7F#32).toNat = w.toNat % 128 :=
  (BitVec.toNat_and ..).trans (Nat.and_two_pow_sub_one_eq_mod _ 7)

theorem toNat_and_funct7 (w : Word) :
    (w &&& 0xFE00707F#32).toNat = w.toNat % 128 + 2 ^ 12 * (w.toNat / 2 ^ 12 % 8) + 2 ^ 25 * (w.toNat / 2 ^ 25) := by
  have hw : w.extractLsb' 25 7 ++ w.extractLsb' 15 10 ++ w.extractLsb' 12 3 ++ w.extractLsb' 7 5
      ++ w.extractLsb' 0 7 = w := by
    repeat rw [append_fields (by decide)]
    exact BitVec.extractLsb'_eq_self
  have hm : 0xFE00707F#32 = 0x7F#7 ++ 0#10 ++ 7#3 ++ 0#5 ++ 0x7F#7 := by decide
  conv_lhs => rw [← hw, hm]
  rw [BitVec.and_append, BitVec.and_append, BitVec.and_append, BitVec.and_append, and_ones7, and_none, and_ones3,
    and_none, and_ones7]
  simp only [toNat_append_add, toNat_field, BitVec.toNat_ofNat]
  omega

theorem toNat_and_funct3 (w : Word) :
    (w &&& 0x707F#32).toNat = w.toNat % 128 + 2 ^ 12 * (w.toNat / 2 ^ 12 % 8) := by
  have h : w &&& 0x707F#32 = (w &&& 0x01FFFFFF#32) &&& 0xFE00707F#32 := by
    rw [BitVec.and_assoc]; rfl
  have h25 : (w &&& 0x01FFFFFF#32).toNat = w.toNat % 2 ^ 25 :=
    (BitVec.toNat_and ..).trans (Nat.and_two_pow_sub_one_eq_mod _ 25)
  rw [h, toNat_and_funct7, h25]
  omega

/-- Membership in a list of match values, by opcode, funct3 and funct7. -/
theorem mem_opcodeValues (w : Word) (op : Nat) (hop : op = w.toNat % 128) :
    w &&& 0x7F#32 ∈ opcodeValues ↔ op = 0x37 ∨ op = 0x17 ∨ op = 0x6F := by
  rw [hop, ← toNat_and_opcode]
  simp [opcodeValues, ← BitVec.toNat_inj]

theorem mem_funct3Values (w : Word) (op f3 : Nat) (hop : op = w.toNat % 128) (hf3 : f3 = w.toNat / 2 ^ 12 % 8) :
    w &&& 0x707F#32 ∈ funct3Values ↔
      (op = 0x67 ∧ f3 = 0) ∨ (op = 0x63 ∧ f3 ≠ 2 ∧ f3 ≠ 3) ∨ (op = 0x03 ∧ f3 ≠ 3 ∧ f3 < 6) ∨ (op = 0x23 ∧ f3 < 3)
        ∨ (op = 0x13 ∧ f3 ≠ 1 ∧ f3 ≠ 5) ∨ (op = 0x0F ∧ f3 = 0) ∨ (op = 0x73 ∧ f3 ≠ 0 ∧ f3 ≠ 4) := by
  have hw : w &&& 0x707F#32 = BitVec.ofNat 32 (op + 2 ^ 12 * f3) := by
    rw [hop, hf3, ← toNat_and_funct3, BitVec.ofNat_toNat, BitVec.setWidth_eq]
  have table : ∀ (op : Fin 128) (f3 : Fin 8), BitVec.ofNat 32 (op + 2 ^ 12 * f3) ∈ funct3Values ↔
      (op.val = 0x67 ∧ f3.val = 0) ∨ (op.val = 0x63 ∧ f3.val ≠ 2 ∧ f3.val ≠ 3)
        ∨ (op.val = 0x03 ∧ f3.val ≠ 3 ∧ f3.val < 6) ∨ (op.val = 0x23 ∧ f3.val < 3)
        ∨ (op.val = 0x13 ∧ f3.val ≠ 1 ∧ f3.val ≠ 5) ∨ (op.val = 0x0F ∧ f3.val = 0)
        ∨ (op.val = 0x73 ∧ f3.val ≠ 0 ∧ f3.val ≠ 4) := by
    decide
  rw [hw]
  exact table ⟨op, by omega⟩ ⟨f3, by omega⟩

theorem mem_funct7Values (w : Word) (op f3 f7 : Nat) (hop : op = w.toNat % 128) (hf3 : f3 = w.toNat / 2 ^ 12 % 8)
    (hf7 : f7 = w.toNat / 2 ^ 25) :
    w &&& 0xFE00707F#32 ∈ funct7Values ↔
      (op = 0x13 ∧ (f3 = 1 ∧ f7 = 0 ∨ f3 = 5 ∧ (f7 = 0 ∨ f7 = 0x20)))
        ∨ (op = 0x33 ∧ (f7 = 0 ∨ f7 = 0x20 ∧ (f3 = 0 ∨ f3 = 5))) := by
  have hw := toNat_and_funct7 w
  rw [← hop, ← hf3, ← hf7] at hw
  simp only [funct7Values, List.mem_cons, List.not_mem_nil, or_false, ← BitVec.toNat_inj, hw]
  simp only [BitVec.toNat_ofNat, BitVec.ofNat_eq_ofNat]
  omega

/-- Settles O5: a word decodes exactly when it selects a row, and the rows' match values are the opcode map. -/
theorem decodeAcceptsExactlyTheOpcodeMap : Obligations.DecodeAcceptsExactlyTheOpcodeMap := by
  intro w op f3 f7
  have hdecode : (∃ i, decode w = .ok i) ↔ ∃ e ∈ decodeTable, e.row.selects w = true := by
    simp only [decode_eq_ok_iff]
    constructor
    · rintro ⟨_, e, he, hs, -⟩
      exact ⟨e, he, hs⟩
    · rintro ⟨e, he, hs⟩
      exact ⟨_, e, he, hs, rfl⟩
  rw [hdecode, exists_selects_iff, mem_opcodeValues w op rfl, mem_funct3Values w op f3 rfl rfl,
    mem_funct7Values w op f3 f7 rfl rfl rfl]
  simp only [wholeValues, List.mem_cons, List.not_mem_nil, or_false]
  clear_value op f3 f7
  by_cases himm : op = 0x13
  · -- OP-IMM: the shifts are the rows that fix funct7
    have hshift : (f3 ≠ 1 ∧ f3 ≠ 5) ∨ (f3 = 1 ∧ f7 = 0 ∨ f3 = 5 ∧ (f7 = 0 ∨ f7 = 0x20)) ↔
        (f3 = 1 → f7 = 0) ∧ (f3 = 5 → f7 = 0 ∨ f7 = 0x20) := by omega
    simp [himm, ← hshift, or_assoc]
  · simp only [himm, false_and, false_or, BitVec.ofNat_eq_ofNat, or_assoc]
    simp only [or_left_comm]

/-! ## The immediates as numbers (R83-R88) -/

theorem toInt_bit (x : BitVec 1) : x.toInt = -(x.toNat : Int) := by
  revert x
  decide

/-- A signed field whose top bit is `x`. -/
theorem toInt_bit_append {n : Nat} (x : BitVec 1) (y : BitVec n) :
    (x ++ y).toInt = y.toNat - 2 ^ n * (x.toNat : Int) := by
  rw [BitVec.toInt_append, toInt_bit]
  simp
  ring

/-! The immediates with bit 31 in front (R83-R85, R87). -/

theorem fieldImmI_eq (w : Word) : fieldImmI w = w.extractLsb' 31 1 ++ w.extractLsb' 20 11 :=
  (append_fields (a := 31) (b := 20) (m := 1) (n := 11) rfl).symm

theorem fieldImmS_eq (w : Word) :
    fieldImmS w = w.extractLsb' 31 1 ++ (w.extractLsb' 25 6 ++ w.extractLsb' 7 5) := by
  rw [fieldImmS, ← append_fields (a := 31) (b := 25) (m := 1) (n := 6) rfl]
  exact BitVec.append_assoc

theorem fieldImmB_eq (w : Word) : fieldImmB w = w.extractLsb' 31 1
    ++ (w.extractLsb' 7 1 ++ (w.extractLsb' 25 6 ++ (w.extractLsb' 8 4 ++ 0#1))) :=
  BitVec.append_assoc.trans (BitVec.append_assoc.trans BitVec.append_assoc)

theorem fieldImmJ_eq (w : Word) : fieldImmJ w = w.extractLsb' 31 1
    ++ (w.extractLsb' 12 8 ++ (w.extractLsb' 20 1 ++ (w.extractLsb' 21 10 ++ 0#1))) :=
  BitVec.append_assoc.trans (BitVec.append_assoc.trans BitVec.append_assoc)

/-- The upper immediate is the word with its low 12 bits cleared (R86). -/
theorem immU_fieldImmU (w : Word) : immU (fieldImmU w) = w &&& 0xFFFFF000#32 := by
  have hw : w = w.extractLsb' 12 20 ++ w.extractLsb' 0 12 := by
    rw [append_fields (by decide)]
    exact BitVec.extractLsb'_eq_self.symm
  have hm : 0xFFFFF000#32 = BitVec.allOnes 20 ++ 0#12 := by decide
  conv_rhs => rw [hw, hm]
  rw [BitVec.and_append, BitVec.and_allOnes, and_none]
  rfl

/-- Settles O6: each immediate is bit 31 over fields of the word, and an appended field adds its value. -/
theorem immediatesAreAssembledFromTheWord : Obligations.ImmediatesAreAssembledFromTheWord := by
  intro w bits
  have hbits (lo n : Nat) : bits lo n = ((w.extractLsb' lo n).toNat : Int) := by rw [toNat_field]
  simp only [hbits]
  refine ⟨?immI, ?immS, ?immB, immU_fieldImmU w, ?immJ, ?zimm⟩
  case immI => rw [immI, BitVec.toInt_signExtend_of_le (by decide), fieldImmI_eq, toInt_bit_append]
  case immS =>
    rw [immS, BitVec.toInt_signExtend_of_le (by decide), fieldImmS_eq, toInt_bit_append]
    simp only [toNat_append_add]
    push_cast
    ring
  case immB =>
    rw [immB, BitVec.toInt_signExtend_of_le (by decide), fieldImmB_eq, toInt_bit_append]
    simp only [toNat_append_add, BitVec.toNat_ofNat]
    push_cast
    ring
  case immJ =>
    rw [immJ, BitVec.toInt_signExtend_of_le (by decide), fieldImmJ_eq, toInt_bit_append]
    simp only [toNat_append_add, BitVec.toNat_ofNat]
    push_cast
    ring
  case zimm => exact congrArg Int.ofNat (BitVec.toNat_setWidth_of_le (by decide))

/-! ## The class handlers on an encoded word (40_engine.md R115) -/

/-- The I immediate of a shift is its row's funct7 over shamt (R89). -/
theorem fieldImmI_eq_funct7 {r : Row} {w : Word} {f : BitVec 7} (h : r.selects w = true)
    (hm : r.mask = 0xFE00707F#32) (hf : r.funct7 = f) : fieldImmI w = f ++ fieldShamt w := by
  have h7 : r.funct7 = w.extractLsb' 25 7 := value_of_selects h 25 7 (by rw [hm]; rfl)
  rw [← hf, h7]
  exact (append_fields (a := 25) (b := 20) (m := 7) (n := 5) rfl).symm

theorem not_selects_of_selects {r q : Row} {w : Word} (hr : r.selects w = true)
    (hne : r.value &&& q.mask ≠ q.value &&& r.mask) : ¬ q.selects w = true :=
  fun hq => hne (fixedBits_agree hr hq)

/-- The row of ECALL fixes every bit. -/
theorem ecall_selects_iff {w : Word} : Row.ecall.selects w = true ↔ w = Row.ecall.value := by
  have hmask : w &&& Row.ecall.mask = w := BitVec.and_allOnes
  rw [Row.selects, hmask, beq_iff_eq]

/-- What decodes is executed by the class handler of its row: the entry's fields are those the handler reads. -/
theorem exec_eq_handle {w : Word} {i : Instr} (h : decode w = .ok i) (s : State) :
    exec i s = handle (rowOf i) w s := by
  have hs := selects_of_decode h
  cases i
  case slli | srli | srai =>
    cases build_of_decode h rfl rfl
    exact congrArg (fun b => aluStep _ (fieldRd w) (.reg (fieldRs1 w)) (.immI b) s)
      (fieldImmI_eq_funct7 hs rfl (by simp only [rowOf]; decide)).symm
  case fence => exact (if_pos hs).symm
  case ecall => rw [ecall_selects_iff.1 hs]; rfl
  case ebreak => rw [ebreak_selects_iff.1 hs]; rfl
  case csrrw | csrrs | csrrc | csrrwi | csrrsi | csrrci =>
    cases build_of_decode h rfl rfl
    have hfence := not_selects_of_selects (q := .fence) hs (by simp only [rowOf]; decide)
    have hecall := not_selects_of_selects (q := .ecall) hs (by simp only [rowOf]; decide)
    have hebreak := not_selects_of_selects (q := .ebreak) hs (by simp only [rowOf]; decide)
    rw [ecall_selects_iff] at hecall
    rw [ebreak_selects_iff] at hebreak
    exact ((if_neg hfence).trans ((if_neg hecall).trans (if_neg hebreak))).symm
  all_goals cases build_of_decode h rfl rfl; rfl

/-- Settles O7: an instruction with an encoding is what the encoding decodes to. -/
theorem meaningsAgreeWithTheClassHandlers : Obligations.MeaningsAgreeWithTheClassHandlers :=
  fun _ s h => exec_eq_handle (decode_encode h) s

/-! ## FENCE (44_csr_system.md R230) -/

/-- Settles O36: the row of FENCE is exactly the words stated, its entry builds FENCE, and `exec` advances pc and
raises FENCE whatever the fields. -/
theorem fenceEndsTheRun : Obligations.FenceEndsTheRun := by
  refine ⟨fun w => ⟨fun h => ?_, ?_⟩, fun _ _ _ _ _ _ => rfl⟩
  · have hs : Row.fence.selects w = true := beq_iff_eq.2 h
    have he : decodeTable[37]? = some ⟨.fence, fun w =>
        .fence (fieldFm w) (fieldPred w) (fieldSucc w) (fieldRs1 w) (fieldRd w)⟩ := rfl
    exact ⟨_, _, _, _, _, decode_of_selects (List.mem_of_getElem? he) hs⟩
  · rintro ⟨fm, pred, succ, rs1, rd, h⟩
    exact beq_iff_eq.1 (selects_of_decode h)

end Sys2Proof.Machine
end

section
/-! PROOFS. Registers and arithmetic (spec 10_state.md R21, R23, 41_alu.md): what an ALU instruction leaves, from
the value its operation computes. -/

namespace Sys2Proof.Machine

/-- Settles O15 from the register laws. -/
theorem registerZeroIsHardwired : Obligations.RegisterZeroIsHardwired :=
  fun s r v => ⟨setReg_zero s v, readReg_zero s, fun q => readReg_setReg s r q v⟩

/-! ## Arithmetic and logic -/

theorem aluStep_writesRd {op : AluOp} {rd : Reg} {a b : Operand} {s : State} {v : Word}
    (h : alu op (a.value s) (b.value s) = v) : ∃ t, aluStep op rd a b s = .next t ∧ WritesRd s t rd v :=
  ⟨_, rfl, h ▸ writesRd_writeRd_advance s rd _⟩

/-- The upper 20 bits of a U-format word are the immediate (30_encoding.md R86). -/
theorem packU_upper (r : Row) (imm : BitVec 20) (rd : Reg) : packU r imm rd &&& 0xFFFFF000#32 = immU imm := by
  rw [← immU_fieldImmU, immU_packU]

/-- Settles O18: both add the U immediate, to 0 or to pc. -/
theorem upperImmediateInstructions : Obligations.UpperImmediateInstructions := by
  intro rd imm s
  constructor
  · exact aluStep_writesRd ((BitVec.zero_add _).trans (packU_upper .lui imm rd).symm)
  · exact aluStep_writesRd (congrArg (s.pc + ·) (packU_upper .auipc imm rd).symm)

/-- Settles O19, one operation of the ALU for each instruction. -/
theorem registerImmediateInstructions : Obligations.RegisterImmediateInstructions := by
  intro rd rs1 imm s a b
  have himm : b.toInt = imm.toInt := BitVec.toInt_signExtend_of_le (by decide)
  refine ⟨?addi, ?slti, ?sltiu, ?xori, ?ori, ?andi⟩
  case slti => exact aluStep_writesRd (himm ▸ truthWord_signedLess a b)
  case sltiu => exact aluStep_writesRd (truthWord_unsignedLess a b)
  all_goals exact aluStep_writesRd rfl

/-- Settles O20: whatever stands above shamt in the immediate, the shift is by shamt. -/
theorem immediateShiftInstructions : Obligations.ImmediateShiftInstructions := by
  intro rd rs1 z s a
  refine ⟨?slli, ?srli, ?srai⟩
  case slli =>
    exact aluStep_writesRd ((congrArg (a <<< ·) (shiftAmount_immI _ z)).trans (shiftLeft_eq_ofNat a _))
  case srli =>
    exact aluStep_writesRd ((congrArg (a >>> ·) (shiftAmount_immI _ z)).trans (ushiftRight_eq_ofNat a _))
  case srai =>
    exact aluStep_writesRd ((congrArg a.sshiftRight (shiftAmount_immI _ z)).trans (sshiftRight_eq_ofInt a _))

/-- Settles O21, one operation of the ALU for each instruction. -/
theorem registerRegisterInstructions : Obligations.RegisterRegisterInstructions := by
  intro rd rs1 rs2 s a b sh
  have hsh : shiftAmount b = sh := shiftAmount_eq b
  refine ⟨?add, ?sub, ?sll, ?slt, ?sltu, ?xor, ?srl, ?sra, ?or, ?and⟩
  case sll => exact aluStep_writesRd ((congrArg (a <<< ·) hsh).trans (shiftLeft_eq_ofNat a sh))
  case slt => exact aluStep_writesRd (truthWord_signedLess a b)
  case sltu => exact aluStep_writesRd (truthWord_unsignedLess a b)
  case srl => exact aluStep_writesRd ((congrArg (a >>> ·) hsh).trans (ushiftRight_eq_ofNat a sh))
  case sra => exact aluStep_writesRd ((congrArg a.sshiftRight hsh).trans (sshiftRight_eq_ofInt a sh))
  all_goals exact aluStep_writesRd rfl

end Sys2Proof.Machine
end

section
/-! PROOFS. Crossing loads and stores (spec 42_memory_access.md R186, R194): the lanes beyond the word read 0 or are
dropped, or the access is illegal. -/

namespace Sys2Proof.Machine

theorem crosses_eq_true {width : Width} {ea : Word} (h : 4 < ea.toNat % 4 + widthBytes width) :
    crosses width (remainder ea) = true := by
  rw [crosses, remainder_eq]
  exact decide_eq_true h

/-! ## The loaded value -/

/-- The half-word of a shifted word that holds one byte is that byte, sign-extended or not. -/
theorem extractLane_half_of_lt {t : Word} (h : t.toNat < 2 ^ 8) :
    extractLane .half t = t ∧ extractLane .halfU t = t := by
  have hlow : (t.extractLsb' 0 16).toNat = t.toNat := by
    rw [toNat_field]
    omega
  have hzext : (t.extractLsb' 0 16).setWidth 32 = t := by
    apply BitVec.eq_of_toNat_eq
    rw [BitVec.toNat_setWidth, hlow]
    omega
  have hmsb : (t.extractLsb' 0 16).msb = false := by
    rw [BitVec.msb_eq_decide, hlow]
    exact decide_eq_false (by omega)
  exact ⟨(BitVec.signExtend_eq_setWidth_of_msb_false hmsb).trans hzext, hzext⟩

section
variable (m : Memory) {ea : Word}

theorem loadedValue_word_crossing :
    loadedValue .word ea m = BitVec.ofNat 32 (littleEndian m ea.toNat (4 - ea.toNat % 4)) :=
  laneShift_readWord m ea

theorem loadedValue_half_crossing (h : ea.toNat % 4 = 3) :
    loadedValue .half ea m = BitVec.ofNat 32 (littleEndian m ea.toNat (4 - ea.toNat % 4))
      ∧ loadedValue .halfU ea m = BitVec.ofNat 32 (littleEndian m ea.toNat (4 - ea.toNat % 4)) := by
  rw [← laneShift_readWord m ea]
  refine extractLane_half_of_lt ?_
  have hlt : littleEndian m ea.toNat (4 - 3) < 2 ^ 8 := littleEndian_lt m ea.toNat 1
  rw [laneShift_readWord, h, BitVec.toNat_ofNat]
  omega

end

/-! ## The accesses -/

theorem loadAt_crossing_illegal {width : Width} {rd : Reg} {ea : Word} {s : State}
    (h : Reaches (loadChain s.cfg) ea) (hw : 4 < ea.toNat % 4 + widthBytes width)
    (hp : s.cfg.crossingLoad = .illegal) : loadAt width rd ea s = .next (raise .illegalInst s) :=
  loadAt_illegal width rd ea s ((reaches_alignDown _ _).2 h) (crosses_eq_true hw) hp

theorem storeAt_crossing_illegal {width : Width} {v ea : Word} {s : State}
    (h : Reaches (storeChain s.cfg) ea) (hw : 4 < ea.toNat % 4 + widthBytes width)
    (hp : s.cfg.crossingStore = .illegal) : storeAt width v ea s = .next (raise .illegalInst s) :=
  storeAt_illegal width v ea s ((reaches_alignDown _ _).2 h) (crosses_eq_true hw) hp

/-- Settles O23: under `Truncate` the load is carried out and reads what the word holds, under `Illegal` it is
refused before any write. -/
theorem crossingLoadsFollowTheirParameter : Obligations.CrossingLoadsFollowTheirParameter := by
  intro rd rs1 imm s ea r rest h
  have half (hr : r = 3) : 4 < r + 2 := by omega
  have word (hr : r ≠ 0) : 4 < r + 4 := by omega
  refine ⟨fun hp => ⟨fun hr => ?lh, fun hr => ?lhu, fun _ => ?lw⟩,
    fun hp => ⟨fun hr => ?lhIllegal, fun hr => ?lhuIllegal, fun hr => ?lwIllegal⟩⟩
  case lh => exact loadAt_writesRd h (.inr hp) (loadedValue_half_crossing s.mem hr).1
  case lhu => exact loadAt_writesRd h (.inr hp) (loadedValue_half_crossing s.mem hr).2
  case lw => exact loadAt_writesRd h (.inr hp) (loadedValue_word_crossing s.mem)
  case lhIllegal => exact loadAt_crossing_illegal h (half hr) hp
  case lhuIllegal => exact loadAt_crossing_illegal h (half hr) hp
  case lwIllegal => exact loadAt_crossing_illegal h (word hr) hp

/-- Settles O26: under `Truncate` the merge writes the lanes the word holds, under `Illegal` nothing is written. -/
theorem crossingStoresFollowTheirParameter : Obligations.CrossingStoresFollowTheirParameter := by
  intro rs1 rs2 imm s ea r h
  refine ⟨fun hp => ⟨fun hr => ?sh, fun _ => ?sw⟩, fun hp => ⟨fun hr => ?shIllegal, fun hr => ?swIllegal⟩⟩
  case sh =>
    have hn : 1 = min 2 (4 - r) := by omega
    exact storeAt_storesBytes (width := .half) h (.inr hp) hn
  case sw =>
    have hn : 4 - r = min 4 (4 - r) := by omega
    exact storeAt_storesBytes (width := .word) h (.inr hp) hn
  case shIllegal =>
    have hw : 4 < r + 2 := by omega
    exact storeAt_crossing_illegal h hw hp
  case swIllegal =>
    have hw : 4 < r + 4 := by omega
    exact storeAt_crossing_illegal h hw hp

end Sys2Proof.Machine
end

section
/-! PROOFS. Control transfer and CSR access (spec 43_control.md R210-R220, 44_csr_system.md R234-R246): jumps that
link, the one way a control transfer completes, and the CSR access sequence on a backed address. -/

namespace Sys2Proof.Machine

/-! ## Control transfer -/

/-- A jump that links writes the return address, whether it stays or goes (R210). -/
theorem transfer_links (rd : Reg) (target : Word) (s : State) :
    ∃ t, transfer (some rd) target s = .next t ∧ RegsUpdated s t rd (s.pc + 4#32)
      ∧ t.wb = some ⟨rd, s.pc + 4#32⟩ ∧ Jumps s t target := by
  obtain ⟨t, ht, hjumps, hwb, hregs⟩ := transfer_jumps (some rd) target s
  exact ⟨t, ht, fun r => (hregs r).trans (readReg_writeRd s rd r _), hwb, hjumps⟩

/-- Settles O30: JAL and JALR are the transfer that links, to their targets. -/
theorem jumpsLinkAndGo : Obligations.JumpsLinkAndGo :=
  fun rd _ _ _ s => ⟨transfer_links rd _ s, transfer_links rd _ s⟩

/-- An instruction of class CTRL is a transfer, which links exactly its destination (R210). -/
theorem exec_of_cls_ctrl {i : Instr} (h : i.cls = .ctrl) (s : State) :
    ∃ target, exec i s = transfer (destRd i) target s := by
  cases i
  case jal | jalr | beq | bne | blt | bge | bltu | bgeu => exact ⟨_, rfl⟩
  all_goals cases h

/-- Settles O32: a transfer sets pc to its target, and completes exactly when that is the old pc. -/
theorem controlCompletesOnlyOnItself : Obligations.ControlCompletesOnlyOnItself := by
  intro i s hcls hstatus
  obtain ⟨target, hexec⟩ := exec_of_cls_ctrl hcls s
  obtain ⟨t, ht, ⟨hpc, hst, -⟩, -⟩ := transfer_jumps (destRd i) target s
  refine ⟨t, hexec.trans ht, ?_⟩
  rw [hpc, hst]
  by_cases h : target = s.pc
  · exact .inl ⟨h, if_pos h⟩
  · exact .inr ⟨h, (if_neg h).trans hstatus⟩

/-! ## CSR access on a backed address -/

theorem csrBacked_eq_true {c : Config} {a : CsrAddr} : csrBacked c a = true ↔ a ∈ c.backedCsrs := by
  simp [csrBacked]

section
variable {rd : Reg} {a : CsrAddr} {opd v : Word} {s : State} (h : a ∈ s.cfg.backedCsrs)
include h

theorem csrAccess_write_writesCsr (hv : opd = v) :
    ∃ t, csrAccess .write rd a opd s = .next t ∧ WritesCsr s t rd a v :=
  ⟨_, csrAccess_write rd a opd s (csrBacked_eq_true.2 h), hv ▸ writesCsr_csrAccess s rd a opd⟩

theorem csrAccess_set_writesCsr (hv : opd = v) :
    ∃ t, csrAccess .set rd a opd s = .next t ∧ WritesCsr s t rd a (s.readCsr a ||| v) :=
  ⟨_, csrAccess_set rd a opd s (csrBacked_eq_true.2 h), hv ▸ writesCsr_csrAccess s rd a _⟩

/-- CSRRC and CSRRCI have no write operation: rd is written and the access is illegal (R243, R246). -/
theorem csrAccess_clear_reads :
    ∃ t, csrAccess .clear rd a opd s = .next t ∧ RegsUpdated s t rd (s.readCsr a)
      ∧ t.wb = some ⟨rd, s.readCsr a⟩ ∧ t.status = .illegalInst ∧ t.pc = s.pc ∧ SameCsrs s t
      ∧ SameStores s t := by
  refine ⟨_, csrAccess_clear rd a opd s (csrBacked_eq_true.2 h), regsUpdated_writeRd s rd _, rfl, rfl, ?_, ?_, ?_⟩ <;>
    simp [SameCsrs, SameStores, SameMemory, SameBrk, SameEngine, SameConsole]

end

theorem zimm_eq_ofNat (z : BitVec 5) : zimm z = BitVec.ofNat 32 z.toNat := (BitVec.ofNat_toNat ..).symm

/-- Settles O33, one access for each instruction. -/
theorem csrWriteAndSetInstructions : Obligations.CsrWriteAndSetInstructions :=
  fun _ _ _ z _ h => ⟨csrAccess_write_writesCsr h rfl, csrAccess_set_writesCsr h rfl,
    csrAccess_write_writesCsr h (zimm_eq_ofNat z), csrAccess_set_writesCsr h (zimm_eq_ofNat z)⟩

/-- Settles O34: both instructions are the access that clears, whatever their operand. -/
theorem csrClearInstructionsReadAndRaise : Obligations.CsrClearInstructionsReadAndRaise := by
  rintro rd rs1 a z s i h (rfl | rfl)
  · exact csrAccess_clear_reads (opd := s.readReg rs1) h
  · exact csrAccess_clear_reads (opd := zimm z) h

end Sys2Proof.Machine
end

section
/-! PROOFS. The fetch mode (spec 10_state.md R37): replacing it is invisible to every instruction. -/

namespace Sys2Proof.Machine

/-- Replace the fetch mode. -/
def State.withVmFetch (b : Bool) (s : State) : State := { s with vmFetch := b }

theorem setReg_withVmFetch (b : Bool) (s : State) (r : Reg) (v : Word) :
    (s.withVmFetch b).setReg r v = (s.setReg r v).withVmFetch b := by
  unfold State.setReg; split <;> rfl

theorem writeRd_withVmFetch (b : Bool) (s : State) (rd : Reg) (v : Word) :
    (s.withVmFetch b).writeRd rd v = (s.writeRd rd v).withVmFetch b := by
  simp only [State.writeRd, setReg_withVmFetch]; rfl

theorem invisibleToBridge_withVmFetch (b : Bool) : InvisibleToBridge (State.withVmFetch b) where
  cfg _ := rfl
  pc _ := rfl
  mem _ := rfl
  readReg _ _ := rfl
  writeRd := writeRd_withVmFetch b
  setPc _ _ := rfl
  setMem _ _ := rfl
  raise _ _ := rfl
  consoleIn _ := rfl
  draws _ := rfl
  setReg := setReg_withVmFetch b
  writeBrk _ _ _ := rfl
  emit _ _ := rfl
  dropLine _ := rfl
  countDraw _ := rfl
  markRefused _ := rfl

theorem invisibleToCsrAccess_withVmFetch (b : Bool) : InvisibleToCsrAccess (State.withVmFetch b) where
  toInvisible := (invisibleToBridge_withVmFetch b).toInvisible
  readCsr _ _ := rfl
  writeCsr _ _ _ := rfl

/-- A change that neither the class handlers nor the bridge see goes through every instruction. -/
theorem exec_of_invisible {f : State → State} (hb : InvisibleToBridge f) (hc : InvisibleToCsrAccess f) (i : Instr)
    (s : State) : exec i (f s) = mapNext f (exec i s) := by
  by_cases h : i = .ecall
  · subst h; exact hb.execEcall s
  · exact hc.exec s h

/-- Settles O39: replacing the fetch mode is invisible to the class handlers and to the bridge. -/
theorem noInstructionTouchesTheFetchMode : Obligations.NoInstructionTouchesTheFetchMode :=
  fun i s b => exec_of_invisible (invisibleToBridge_withVmFetch b) (invisibleToCsrAccess_withVmFetch b) i s

end Sys2Proof.Machine
end

section
/-! PROOFS. The syscalls with an effect (spec 45_syscalls.md R263-R274): what ECALL is for each service, its
buffers in `VM_REGIONS` or not, and which instructions reach a next state. -/

namespace Sys2Proof.Machine

/-! ## ECALL by service (R261) -/

section
variable {s : State}

theorem execEcall_exit (h : serviceOf s.cfg.sysNum (s.readReg regA7) = some .exit) :
    execEcall s = .next (raise .completion s.advance) := by
  simpa [h] using execEcall_cases s

theorem execEcall_brk (h : serviceOf s.cfg.sysNum (s.readReg regA7) = some .brk) :
    execEcall s = .next (sysBrk s.advance) := by
  simpa [h] using execEcall_cases s

theorem execEcall_write (h : serviceOf s.cfg.sysNum (s.readReg regA7) = some .write) :
    gatherBytes s.cfg s.mem (s.readReg regA1) (s.readReg regA2).toNat = none ∧ execEcall s = ecallMemFail s ∨
      ∃ got, gatherBytes s.cfg s.mem (s.readReg regA1) (s.readReg regA2).toNat = some got
        ∧ execEcall s = .next ((s.advance.emit (emittedBytes s.cfg s.draws got)).setReg regA0
            (Config.freeWriteResult s.draws)).countDraw := by
  simpa [h] using execEcall_cases s

theorem execEcall_read_wait (h : serviceOf s.cfg.sysNum (s.readReg regA7) = some .read) (hc : s.consoleIn = []) :
    execEcall s = .fault .consoleInputWait := by
  simpa [h, hc] using execEcall_cases s

theorem execEcall_read_line {line : List Byte} {lines : List (List Byte)}
    (h : serviceOf s.cfg.sysNum (s.readReg regA7) = some .read) (hc : s.consoleIn = line :: lines) :
    scatterBytes s.cfg s.mem (s.readReg regA1) (lineBytes s line) = none ∧ execEcall s = ecallMemFail s ∨
      ∃ m, scatterBytes s.cfg s.mem (s.readReg regA1) (lineBytes s line) = some m
        ∧ execEcall s = .next ((((s.advance).setMem m).dropLine).setReg regA0
            (readResult s.draws (formatLine s.cfg.readLineFormat (s.readReg regA2).toNat line))).countDraw := by
  simpa [h, hc] using execEcall_cases s

end

/-- Settles O42: exit is the bridge's third result, after pc has advanced. -/
theorem exitCompletesTheRun : Obligations.ExitCompletesTheRun := by
  intro s hd h
  obtain ⟨-, -, -, -, hexit, -, -⟩ := serviceOf_eq_some hd (s.readReg regA7)
  exact execEcall_exit (hexit.2 h)

/-- Settles O43: `sysBrk` on the advanced state, with its two draws for the free values. -/
theorem brkRewritesA0AndOneEntry : Obligations.BrkRewritesA0AndOneEntry := by
  intro s hd h
  obtain ⟨-, hbrk, -⟩ := serviceOf_eq_some hd (s.readReg regA7)
  refine ⟨sysBrk s.advance, Config.freeBrkResult s.draws, Config.freeBrkValue s.draws, execEcall_brk (hbrk.2 h),
    fun r => ?regs, fun k => ?brk, ?_⟩
  case regs => rw [ite_not]; exact readReg_setReg s.advance regA0 r _
  case brk => simp [sysBrk, readBrk_writeBrk]
  simp [sysBrk, SameCsrs, SameMemory, SameEngine]

/-! ## Buffers in `VM_REGIONS` (R265, R271, R273) -/

/-- The chain of the bridge is `VM_REGIONS`. -/
theorem reaches_syscallChain {c : Config} {a : Word} :
    reaches (syscallChain c) (alignDown a) = true ↔ Reaches c.vmRegions a := reaches_alignDown _ a

theorem gatherBytes_reached {c : Config} {m : Memory} {a : Word} {n : Nat}
    (h : ∀ k < n, Reaches c.vmRegions (a + BitVec.ofNat 32 k)) :
    gatherBytes c m a n = some ((List.range n).map fun k =>
      (m.readWord (alignDown (a + BitVec.ofNat 32 k)).toNat, m.read (a + BitVec.ofNat 32 k).toNat)) :=
  gatherBytes_eq_some.2 ⟨fun k hk => reaches_syscallChain.2 (h k hk), rfl⟩

theorem gatherBytes_not_reached {c : Config} {m : Memory} {a : Word} {n k : Nat} (hk : k < n)
    (h : ¬ Reaches c.vmRegions (a + BitVec.ofNat 32 k)) : gatherBytes c m a n = none := by
  rw [Option.eq_none_iff_forall_ne_some]
  intro got hgot
  exact h (reaches_syscallChain.1 ((gatherBytes_eq_some.1 hgot).1 k hk))

/-- Without a sentinel word the bytes read are emitted (R272). -/
theorem emittedBytes_of_no_sentinel {c : Config} {draws : Nat} {got : List (Word × Byte)}
    (h : ∀ p ∈ got, p.1 ≠ c.writeSentinel) : emittedBytes c draws got = got.map (·.2) := by
  unfold emittedBytes
  refine if_neg fun hany => ?_
  obtain ⟨p, hp, heq⟩ := List.any_eq_true.1 hany
  exact h p hp (beq_iff_eq.1 heq)

/-- Settles O44: the buffer is read in order, emitted, and a0 gets the draw. -/
theorem writeEmitsTheBuffer : Obligations.WriteEmitsTheBuffer := by
  intro s hd h at' count hreach
  obtain ⟨-, -, hwrite, -⟩ := serviceOf_eq_some hd (s.readReg regA7)
  have hgather := gatherBytes_reached (m := s.mem) hreach
  rcases execEcall_write (hwrite.2 h) with ⟨hnone, -⟩ | ⟨got, hsome, hexec⟩
  · cases hgather.symm.trans hnone
  cases hgather.symm.trans hsome
  refine ⟨_, _, _, hexec, fun r => readReg_setReg _ regA0 r _, rfl, fun hsent => ?_, ?_⟩
  · rw [emittedBytes_of_no_sentinel, List.map_map]
    · rfl
    · simp only [List.mem_map, List.mem_range]
      rintro _ ⟨k, hk, rfl⟩
      rw [toNat_alignDown]
      exact hsent k hk
  · simp [SameCsrs, SameMemory, SameBrk, SameEngine]

/-- Settles O45: the formed line is stored byte by byte, the line is dropped, and a0 gets its first byte. -/
theorem readStoresOneLine : Obligations.ReadStoresOneLine := by
  intro s line lines hd h hc f full l stored hlen hreach
  obtain ⟨-, -, -, -, -, hread, -⟩ := serviceOf_eq_some hd (s.readReg regA7)
  obtain ⟨m, hscatter, hin, hout⟩ := scatterBytes_reached (m := s.mem) (a := s.readReg regA1) (bs := stored)
    (fun k hk => reaches_syscallChain.2 (hreach k hk)) hlen
  rcases execEcall_read_line (hread.2 h) hc with ⟨hnone, -⟩ | ⟨m', hsome, hexec⟩
  · cases hscatter.symm.trans hnone
  cases hscatter.symm.trans hsome
  refine ⟨_, Config.freeReadResult s.draws, hexec, fun r => ?regs, hin, hout, ?_⟩
  case regs =>
    have hresult : readResult s.draws l
        = match l.head? with | some b => b.setWidth 32 | none => Config.freeReadResult s.draws := by
      cases l <;> rfl
    exact hresult ▸ readReg_setReg _ regA0 r _
  simp [hc, SameCsrs, SameBrk, SameEngine]

/-- Settles O47: the first byte outside the regions stops the access, and `ecallMemFail` answers. -/
theorem unreachedSyscallBufferFollowsItsParameter : Obligations.UnreachedSyscallBufferFollowsItsParameter := by
  intro s hd h
  obtain ⟨-, -, hwrite, -, -, hread, -⟩ := serviceOf_eq_some hd (s.readReg regA7)
  have hexec : execEcall s = ecallMemFail s := by
    rcases h with ⟨h, k, hk, hout⟩ | ⟨h, line, lines, hc, k, hk, hout⟩
    · rcases execEcall_write (hwrite.2 h) with ⟨-, hexec⟩ | ⟨got, hsome, -⟩
      · exact hexec
      · cases (gatherBytes_not_reached hk hout).symm.trans hsome
    · rcases execEcall_read_line (hread.2 h) hc with ⟨-, hexec⟩ | ⟨m, hsome, -⟩
      · exact hexec
      · have hnone := scatterBytes_not_reached (m := s.mem) (a := s.readReg regA1)
          ⟨k, hk, (not_reaches_alignDown _ _).2 hout⟩
        cases hnone.symm.trans hsome
  constructor
  · intro hp
    refine hexec.trans ?_
    rw [ecallMemFail, hp]
    rfl
  · intro hp
    refine hexec.trans ?_
    rw [ecallMemFail, hp]
    rfl

/-! ## Which instructions reach a next state (R263) -/

theorem ecallMemFail_isNext (s : State) : ∃ t, ecallMemFail s = .next t := by
  unfold ecallMemFail
  cases s.cfg.syscallMemFail
  · exact ⟨_, rfl⟩
  · exact ⟨_, rfl⟩

/-- ECALL waits only in the read service, without a line. -/
theorem execEcall_isNext {s : State}
    (h : serviceOf s.cfg.sysNum (s.readReg regA7) = some .read → s.consoleIn ≠ []) : ∃ t, execEcall s = .next t := by
  rcases execEcall_cases s with ⟨-, e⟩ | ⟨-, e⟩ | ⟨-, e⟩ | ⟨-, e⟩ | ⟨-, ⟨-, e⟩ | ⟨_, -, e⟩⟩
    | ⟨hread, ⟨hc, -⟩ | ⟨_, _, -, ⟨-, e⟩ | ⟨_, -, e⟩⟩⟩
  · exact ⟨_, e⟩
  · exact ⟨_, e⟩
  · exact ⟨_, e⟩
  · exact ⟨_, e⟩
  · exact e ▸ ecallMemFail_isNext s
  · exact ⟨_, e⟩
  · exact absurd hc (h hread)
  · exact e ▸ ecallMemFail_isNext s
  · exact ⟨_, e⟩

/-- No other instruction waits. -/
theorem exec_isNext_of_ne_ecall {i : Instr} (h : i ≠ .ecall) (s : State) : ∃ t, exec i s = .next t := by
  rcases exec_shape i s with ⟨-, _, _, -, e⟩ | ⟨width, rd, ea, -, -, -, e⟩ | ⟨width, v, ea, -, -, e⟩
    | ⟨-, target, e, -⟩ | ⟨op, rd, a, opd, -, -, -, -, e⟩ | ⟨-, e⟩ | e | e
  · exact ⟨_, e⟩
  · rcases loadAt_cases width rd ea s with h | h | h <;> exact ⟨_, e.trans h⟩
  · rcases storeAt_cases width v ea s with h | h | ⟨-, h⟩ <;> exact ⟨_, e.trans h⟩
  · obtain ⟨_, h, -⟩ := transfer_jumps (destRd i) target s
    exact ⟨_, e.trans h⟩
  · rcases csrAccess_cases op rd a opd s with h | ⟨-, ⟨-, _, h⟩ | ⟨-, h⟩⟩ <;> exact ⟨_, e.trans h⟩
  · exact ⟨_, e⟩
  · exact absurd e h
  · exact e ▸ ⟨_, rfl⟩

/-- Settles O46: only ECALL can fail to reach a next state, and it waits in the read service alone. -/
theorem onlyTheReadSyscallWaits : Obligations.OnlyTheReadSyscallWaits := by
  intro i s hd waits
  obtain ⟨-, -, -, -, -, hread, -⟩ := serviceOf_eq_some hd (s.readReg regA7)
  constructor
  · rintro ⟨rfl, h, hc⟩
    exact execEcall_read_wait (hread.2 h) hc
  · intro hn
    by_cases hi : i = .ecall
    · subst hi
      exact execEcall_isNext fun h hc => hn ⟨rfl, hread.1 h, hc⟩
    · exact exec_isNext_of_ne_ecall hi s

end Sys2Proof.Machine
end

section
/-! PROOFS. What an instruction can do, said once: `Effect` lists the next states of `exec` with the facts that
select them, by shared operation and by service of the bridge. Whole-machine statements go by its cases. -/

namespace Sys2Proof.Machine

/-- The crossing access or the unbacked CSR for which an instruction is illegal before it does anything
(spec 60_exceptions.md R304). -/
def IllegalBeforeEffect (s : State) (i : Instr) : Prop :=
  (∃ a, csrOf i = some a ∧ a ∉ s.cfg.backedCsrs)
    ∨ (∃ ea n, loadAccess s i = some (ea, n) ∧ Crossing ea n ∧ s.cfg.crossingLoad = .illegal
        ∧ Reaches (loadChain s.cfg) ea)
    ∨ (∃ ea n, storeAccess s i = some (ea, n) ∧ Crossing ea n ∧ s.cfg.crossingStore = .illegal
        ∧ Reaches (storeChain s.cfg) ea)

/-- The next states of `exec i s`. -/
inductive Effect (i : Instr) (s : State) : State → Prop where
  /-- ALU instructions and loads (41_alu.md R140, 42_memory_access.md R185). -/
  | result (rd : Reg) (v : Word) (hrd : destRd i = some rd) (hcls : i.cls = .alu ∨ i.cls = .mem) :
      Effect i s (s.writeRd rd v).advance
  /-- A load or store that its chain does not answer (R182, R192). -/
  | unreached (hcls : i.cls = .mem) : Effect i s (raise .dmemError s)
  | illegal (hcause : IllegalBeforeEffect s i) (hcls : i.cls = .mem ∨ i.cls = .csr) : Effect i s (raise .illegalInst s)
  | stored (width : Width) (v ea : Word) (hcls : i.cls = .mem)
      (haccess : storeAccess s i = some (ea, widthBytes width))
      (hreach : reaches (storeChain s.cfg) (alignDown ea) = true) :
      Effect i s (s.setMem (storedMemory width v ea s.mem)).advance
  /-- A control transfer to its own address, and one to another (43_control.md R210). -/
  | stays (hcls : i.cls = .ctrl) : Effect i s (raise .completion (linkTo (destRd i) s))
  | goes (target : Word) (hcls : i.cls = .ctrl) (hne : target ≠ s.pc)
      (heven : i.WellFormed → s.pc.getLsbD 0 = false → target.getLsbD 0 = false) :
      Effect i s ((linkTo (destRd i) s).setPc target)
  /-- A CSR access that goes on, and one of CSRRC and CSRRCI (44_csr_system.md R234, R243). -/
  | csrWritten (rd : Reg) (a : CsrAddr) (v : Word) (hcls : i.cls = .csr) (hrd : destRd i = some rd)
      (ha : csrOf i = some a) (hbacked : a ∈ s.cfg.backedCsrs) (hclear : ¬ IsCsrClear i) :
      Effect i s ((s.writeRd rd (s.readCsr a)).writeCsr a v).advance
  | csrRead (rd : Reg) (a : CsrAddr) (hcls : i.cls = .csr) (hrd : destRd i = some rd) (ha : csrOf i = some a)
      (hbacked : a ∈ s.cfg.backedCsrs) (hclear : IsCsrClear i) :
      Effect i s (raise .illegalInst (s.writeRd rd (s.readCsr a)))
  | fence (hrow : rowOf i = Row.fence) : Effect i s (raise .fence s.advance)
  | ebreak (hi : i = .ebreak) : Effect i s (raise .osError s.advance)
  /-- The bridge, by service (45_syscalls.md R264-R274). -/
  | unknown (hi : i = .ecall) (hs : serviceOf s.cfg.sysNum (s.readReg regA7) = none) :
      Effect i s (raise .osError s.advance)
  | noop (hi : i = .ecall) (hs : serviceOf s.cfg.sysNum (s.readReg regA7) ≠ some .exit) : Effect i s s.advance
  | exit (hi : i = .ecall) (hs : serviceOf s.cfg.sysNum (s.readReg regA7) = some .exit) :
      Effect i s (raise .completion s.advance)
  | brk (hi : i = .ecall) (hs : serviceOf s.cfg.sysNum (s.readReg regA7) = some .brk) :
      Effect i s (sysBrk s.advance)
  | bufferRefused (hi : i = .ecall) (hp : s.cfg.syscallMemFail = .refuse) : Effect i s (markRefused s.advance)
  | bufferError (hi : i = .ecall) (hp : s.cfg.syscallMemFail = .error) : Effect i s (raise .osError s.advance)
  | written (out : List Byte) (v : Word) (hi : i = .ecall)
      (hs : serviceOf s.cfg.sysNum (s.readReg regA7) = some .write) :
      Effect i s (((s.advance.emit out).setReg regA0 v).countDraw)
  | lineRead (m : Memory) (bs : List Byte) (v : Word) (hi : i = .ecall)
      (hs : serviceOf s.cfg.sysNum (s.readReg regA7) = some .read) (hc : s.consoleIn ≠ [])
      (hm : scatterBytes s.cfg s.mem (s.readReg regA1) bs = some m) :
      Effect i s ((((s.advance).setMem m).dropLine).setReg regA0 v).countDraw

/-! ## Crossing accesses -/

theorem crosses_iff {width : Width} {ea : Word} :
    crosses width (remainder ea) = true ↔ Crossing ea (widthBytes width) := by
  rw [crosses, remainder_eq, decide_eq_true_iff, Crossing]

/-- A load is carried out, or its chain does not answer, or it crosses under `Illegal`. -/
theorem loadAt_next {width : Width} {rd : Reg} {ea : Word} {s t : State} (h : loadAt width rd ea s = .next t) :
    t = raise .dmemError s
      ∨ (t = raise .illegalInst s ∧ Crossing ea (widthBytes width) ∧ s.cfg.crossingLoad = .illegal
          ∧ Reaches (loadChain s.cfg) ea)
      ∨ t = (s.writeRd rd (loadedValue width ea s.mem)).advance := by
  cases hr : reaches (loadChain s.cfg) (alignDown ea)
  · cases (loadAt_unreached width rd ea s hr).symm.trans h
    exact .inl rfl
  by_cases hc : crosses width (remainder ea) = true ∧ s.cfg.crossingLoad = .illegal
  · obtain ⟨hc, hp⟩ := hc
    cases (loadAt_illegal width rd ea s hr hc hp).symm.trans h
    exact .inr (.inl ⟨rfl, crosses_iff.1 hc, hp, (reaches_alignDown _ _).1 hr⟩)
  · have hgo : crosses width (remainder ea) = false ∨ s.cfg.crossingLoad = .truncate := by
      cases hp : s.cfg.crossingLoad <;> simp_all
    cases (loadAt_done width rd ea s hr hgo).symm.trans h
    exact .inr (.inr rfl)

theorem storeAt_next {width : Width} {v ea : Word} {s t : State} (h : storeAt width v ea s = .next t) :
    t = raise .dmemError s
      ∨ (t = raise .illegalInst s ∧ Crossing ea (widthBytes width) ∧ s.cfg.crossingStore = .illegal
          ∧ Reaches (storeChain s.cfg) ea)
      ∨ (reaches (storeChain s.cfg) (alignDown ea) = true
          ∧ t = (s.setMem (storedMemory width v ea s.mem)).advance) := by
  cases hr : reaches (storeChain s.cfg) (alignDown ea)
  · cases (storeAt_unreached width v ea s hr).symm.trans h
    exact .inl rfl
  by_cases hc : crosses width (remainder ea) = true ∧ s.cfg.crossingStore = .illegal
  · obtain ⟨hc, hp⟩ := hc
    cases (storeAt_illegal width v ea s hr hc hp).symm.trans h
    exact .inr (.inl ⟨rfl, crosses_iff.1 hc, hp, (reaches_alignDown _ _).1 hr⟩)
  · have hgo : crosses width (remainder ea) = false ∨ s.cfg.crossingStore = .truncate := by
      cases hp : s.cfg.crossingStore <;> simp_all
    cases (storeAt_done width v ea s hr hgo).symm.trans h
    exact .inr (.inr ⟨rfl, rfl⟩)

/-! ## Every next state is an effect -/

theorem effect_of_ecallMemFail {s t : State} (h : ecallMemFail s = .next t) : Effect .ecall s t := by
  unfold ecallMemFail at h
  split at h
  next hp => cases h; exact .bufferRefused rfl hp
  next hp => cases h; exact .bufferError rfl hp

theorem effect_of_execEcall {s t : State} (h : execEcall s = .next t) : Effect .ecall s t := by
  rcases execEcall_cases s with ⟨hs, e⟩ | ⟨hs, e⟩ | ⟨hs, e⟩ | ⟨hs, e⟩ | ⟨hs, ⟨-, e⟩ | ⟨got, -, e⟩⟩
    | ⟨hs, ⟨-, e⟩ | ⟨line, lines, hc, ⟨-, e⟩ | ⟨m, hm, e⟩⟩⟩
  · cases e.symm.trans h; exact .unknown rfl hs
  · cases e.symm.trans h
    refine .noop rfl fun hexit => ?_
    rw [hexit] at hs
    rcases hs with hs | hs | hs <;> cases hs
  · cases e.symm.trans h; exact .exit rfl hs
  · cases e.symm.trans h; exact .brk rfl hs
  · exact effect_of_ecallMemFail (e.symm.trans h)
  · cases e.symm.trans h; exact .written _ _ rfl hs
  · cases e.symm.trans h
  · exact effect_of_ecallMemFail (e.symm.trans h)
  · cases e.symm.trans h; exact .lineRead m _ _ rfl hs (by simp [hc]) hm

theorem effect_of_exec {i : Instr} {s t : State} (h : exec i s = .next t) : Effect i s t := by
  rcases exec_shape i s with ⟨hcls, rd, v, hrd, e⟩ | ⟨width, rd, ea, hcls, haccess, hrd, e⟩
    | ⟨width, v, ea, hcls, haccess, e⟩ | ⟨hcls, target, e, heven⟩ | ⟨op, rd, a, opd, hcls, ha, hrd, hclear, e⟩
    | ⟨hrow, e⟩ | hi | hi
  · cases e.symm.trans h
    exact .result rd v hrd (.inl hcls)
  · rcases loadAt_next (e.symm.trans h) with rfl | ⟨rfl, hcross, hp, hr⟩ | rfl
    · exact .unreached hcls
    · exact .illegal (.inr (.inl ⟨ea, _, haccess, hcross, hp, hr⟩)) (.inl hcls)
    · exact .result rd _ hrd (.inr hcls)
  · rcases storeAt_next (e.symm.trans h) with rfl | ⟨rfl, hcross, hp, hr⟩ | ⟨hr, rfl⟩
    · exact .unreached hcls
    · exact .illegal (.inr (.inr ⟨ea, _, haccess, hcross, hp, hr⟩)) (.inl hcls)
    · exact .stored width v ea hcls haccess hr
  · by_cases hself : target = s.pc
    · cases (transfer_self _ _ _ hself).symm.trans (e.symm.trans h)
      exact .stays hcls
    · cases (transfer_away _ _ _ hself).symm.trans (e.symm.trans h)
      exact .goes target hcls hself heven
  · by_cases hb : a ∈ s.cfg.backedCsrs
    · have hb' := csrBacked_eq_true.2 hb
      cases op
      case write =>
        cases (csrAccess_write rd a opd s hb').symm.trans (e.symm.trans h)
        exact .csrWritten rd a _ hcls hrd ha hb (by simp [hclear])
      case set =>
        cases (csrAccess_set rd a opd s hb').symm.trans (e.symm.trans h)
        exact .csrWritten rd a _ hcls hrd ha hb (by simp [hclear])
      case clear =>
        cases (csrAccess_clear rd a opd s hb').symm.trans (e.symm.trans h)
        exact .csrRead rd a hcls hrd ha hb (hclear.2 rfl)
    · cases (csrAccess_unbacked op rd a opd s (csrBacked_eq_false.2 hb)).symm.trans (e.symm.trans h)
      exact .illegal (.inl ⟨a, ha, hb⟩) (.inr hcls)
  · cases e.symm.trans h
    exact .fence hrow
  · subst hi
    exact effect_of_execEcall h
  · subst hi
    cases h
    exact .ebreak rfl

end Sys2Proof.Machine
end

section
/-! PROOFS. What instructions leave of registers and memory (spec 10_state.md R23, 20_memory.md R60, R64), by the
cases of `Effect`. -/

namespace Sys2Proof.Machine

/-! ## The services that a number asks for (45_syscalls.md R261) -/

theorem eq_of_serviceOf {n : SysNums} {a : Word} :
    (serviceOf n a = some .brk → a = n.brk) ∧ (serviceOf n a = some .write → a = n.write)
      ∧ (serviceOf n a = some .read → a = n.read) := by
  unfold serviceOf
  split_ifs <;> simp_all

/-! ## Registers -/

theorem eq_of_readReg_setReg {s : State} {rd r : Reg} {v : Word} (h : (s.setReg rd v).readReg r ≠ s.readReg r) :
    r = rd := by
  rw [readReg_setReg] at h
  by_contra hne
  exact h (if_neg fun hr => hne hr.1)

theorem eq_of_readReg_linkTo {link : Option Reg} {s : State} {r : Reg}
    (h : (linkTo link s).readReg r ≠ s.readReg r) : link = some r := by
  cases link
  case none => exact absurd rfl h
  case some rd => rw [← eq_of_readReg_setReg h]

/-- Settles O16: the effects that write a register are those of an instruction's rd and of three services. -/
theorem onlyTheDestinationRegisterChanges : Obligations.OnlyTheDestinationRegisterChanges := by
  intro i s t h r hr
  obtain ⟨hbrk, hwrite, hread⟩ := eq_of_serviceOf (n := s.cfg.sysNum) (a := s.readReg regA7)
  cases effect_of_exec h
  case result rd v hrd _ => exact .inl (eq_of_readReg_setReg hr ▸ hrd)
  case csrWritten rd a v _ hrd _ _ _ => exact .inl (eq_of_readReg_setReg hr ▸ hrd)
  case csrRead rd a _ hrd _ _ _ => exact .inl (eq_of_readReg_setReg hr ▸ hrd)
  case stays => exact .inl (eq_of_readReg_linkTo hr)
  case goes => exact .inl (eq_of_readReg_linkTo hr)
  case brk hi hs => exact .inr ⟨hi, eq_of_readReg_setReg (s := s.advance) hr, .inl (hbrk hs)⟩
  case lineRead hi hs _ _ => exact .inr ⟨hi, eq_of_readReg_setReg (s := s.advance) hr, .inr (.inl (hread hs))⟩
  case written hi hs => exact .inr ⟨hi, eq_of_readReg_setReg (s := s.advance) hr, .inr (.inr (hwrite hs))⟩
  all_goals exact absurd rfl hr

/-! ## What the link write leaves -/

section
variable (link : Option Reg) (s : State)

@[simp] theorem linkTo_cfg : (linkTo link s).cfg = s.cfg := by cases link <;> simp
@[simp] theorem linkTo_pc : (linkTo link s).pc = s.pc := by cases link <;> simp
@[simp] theorem linkTo_csrs : (linkTo link s).csrs = s.csrs := by cases link <;> simp
@[simp] theorem linkTo_mem : (linkTo link s).mem = s.mem := by cases link <;> simp
@[simp] theorem linkTo_vmFetch : (linkTo link s).vmFetch = s.vmFetch := by cases link <;> simp
@[simp] theorem linkTo_brkTable : (linkTo link s).brkTable = s.brkTable := by cases link <;> simp
@[simp] theorem linkTo_status : (linkTo link s).status = s.status := by cases link <;> simp
@[simp] theorem linkTo_refused : (linkTo link s).refused = s.refused := by cases link <;> simp
@[simp] theorem linkTo_cycles : (linkTo link s).cycles = s.cycles := by cases link <;> simp
@[simp] theorem linkTo_counts : (linkTo link s).counts = s.counts := by cases link <;> simp
@[simp] theorem linkTo_consoleIn : (linkTo link s).consoleIn = s.consoleIn := by cases link <;> simp
@[simp] theorem linkTo_consoleOut : (linkTo link s).consoleOut = s.consoleOut := by cases link <;> simp
@[simp] theorem linkTo_trace : (linkTo link s).trace = s.trace := by cases link <;> simp
@[simp] theorem linkTo_draws : (linkTo link s).draws = s.draws := by cases link <;> simp

end

/-! ## Memory -/

/-- Settles O27: the effects that write memory are the store's, inside its word, and the line read's. -/
theorem onlyStoresAndTheReadSyscallChangeMemory : Obligations.OnlyStoresAndTheReadSyscallChangeMemory := by
  intro i s t h a ha
  obtain ⟨-, -, hread⟩ := eq_of_serviceOf (n := s.cfg.sysNum) (a := s.readReg regA7)
  cases effect_of_exec h
  case stored width v ea _ haccess _ =>
    rw [advance_mem, setMem_mem, read_storedMemory] at ha
    by_cases hin : ea.toNat ≤ a ∧ a < ea.toNat + widthBytes width ∧ a < (alignDown ea).toNat + 4
    · obtain ⟨hlo, hhi, hword⟩ := hin
      exact .inl ⟨ea, _, haccess, hlo, hhi, toNat_alignDown ea ▸ hword⟩
    · exact absurd (if_neg hin) ha
  case lineRead m bs v hi hs hc hm => exact .inr ⟨hi, hread hs, hc⟩
  all_goals exact absurd (by simp [sysBrk]) ha

end Sys2Proof.Machine
end

section
/-! PROOFS. The boot ROM (spec 20_memory.md R52, R56, R66): what a well-formed configuration says of its regions,
and that a word written through another region is none of the boot ROM's. -/

namespace Sys2Proof.Machine

/-! ## Regions of a well-formed configuration (R52) -/

/-- The address lies in the region. -/
def Holds (r : Region) (a : Nat) : Prop := r.base ≤ a ∧ a < r.base + r.size

theorem not_holds_of_disjoint {r q : Region} {a : Nat} (h : r.disjoint q = true) (hr : Holds r a) : ¬ Holds q a := by
  simp only [Region.disjoint, Bool.or_eq_true, decide_eq_true_eq, beq_iff_eq] at h
  simp only [Holds] at *
  omega

/-- The conditions of a well-formed configuration, one by one. -/
structure WellFormedConfig (c : Config) : Prop where
  aligned : ∀ r ∈ c.regions, r.base % 4 = 0 ∧ r.size % 4 = 0 ∧ r.base + r.size ≤ 2 ^ 32
  imem_dmem : c.imem.disjoint c.dmem = true
  imem_bootrom : c.imem.disjoint c.bootrom = true
  dmem_bootrom : c.dmem.disjoint c.bootrom = true
  sameOrDisjoint : ∀ r ∈ c.regions, ∀ q ∈ c.regions, r = q ∨ r.disjoint q = true
  image : c.bootromImage.length ≤ c.bootrom.size
  resetPc : c.resetPc.toNat % 4 = 0
  csrReset_rising : c.csrReset.Pairwise (fun a b => a.1 < b.1)
  csrReset_entries : ∀ e ∈ c.csrReset, e.2 ≠ 0#32 ∧ ∃ a ∈ c.backedCsrs, a.toNat = e.1
  sysNum : c.sysNum.all.Nodup

theorem wellFormedConfig {c : Config} (h : c.WellFormed) : WellFormedConfig c := by
  unfold Config.WellFormed Config.wellFormed at h
  simp only [Bool.and_eq_true, List.all_eq_true, decide_eq_true_eq, beq_iff_eq, bne_iff_ne,
    List.any_eq_true, Region.aligned, Region.sameOrDisjoint, Bool.or_eq_true] at h
  obtain ⟨⟨⟨⟨⟨⟨⟨⟨⟨⟨haligned, hid⟩, hib⟩, hdb⟩, hsame⟩, himage⟩, hpc⟩, -⟩, hrising⟩, hentries⟩, hsys⟩ := h
  exact ⟨fun r hr => ⟨(haligned r hr).1.1, (haligned r hr).1.2, (haligned r hr).2⟩, hid, hib, hdb, hsame, himage, hpc,
    hrising, hentries, hsys⟩

/-- The four bytes of an aligned word that a region of the chain contains lie in that region (R53). -/
theorem word_in_region {c : Config} (hc : WellFormedConfig c) {chain : List Region} (hchain : chain ⊆ c.regions)
    {ea : Word} (h : reaches chain (alignDown ea) = true) :
    ∃ r ∈ chain, ∀ a, (alignDown ea).toNat ≤ a → a < (alignDown ea).toNat + 4 → Holds r a := by
  obtain ⟨r, hr, hlo, hhi⟩ := (reaches_iff _ _).1 h
  obtain ⟨hbase, hsize, -⟩ := hc.aligned r (hchain hr)
  refine ⟨r, hr, fun a hla hua => ?_⟩
  rw [toNat_alignDown] at *
  simp only [Holds]
  omega

theorem storeChain_subset (c : Config) : storeChain c ⊆ c.regions := by
  intro r hr
  simp only [storeChain, List.mem_append, List.mem_singleton] at hr
  simp only [Config.regions, List.mem_cons]
  tauto

theorem syscallChain_subset_storeChain (c : Config) : syscallChain c ⊆ storeChain c :=
  fun _ hr => List.mem_append_left _ (List.mem_append_right _ hr)

/-! ## Words written through a chain that leaves out the boot ROM -/

theorem storeChain_disjoint_bootrom {c : Config} (hc : WellFormedConfig c) (hvm : c.bootrom ∉ c.vmRegions) {r : Region}
    (hr : r ∈ storeChain c) : r.disjoint c.bootrom = true := by
  simp only [storeChain, List.mem_append, List.mem_singleton] at hr
  rcases hr with (rfl | hr) | rfl
  · exact hc.dmem_bootrom
  · have hmem : r ∈ c.regions := by simp [Config.regions, hr]
    have hboot : c.bootrom ∈ c.regions := by simp [Config.regions]
    exact (hc.sameOrDisjoint r hmem _ hboot).resolve_left fun heq => hvm (heq ▸ hr)
  · exact hc.imem_bootrom

/-- A word written through the store chain is none of the boot ROM's. -/
theorem read_writeWord_bootrom {c : Config} (hc : WellFormedConfig c) (hvm : c.bootrom ∉ c.vmRegions) {m : Memory}
    {ea v : Word} (h : reaches (storeChain c) (alignDown ea) = true) {a : Nat} (ha : Holds c.bootrom a) :
    (m.writeWord (alignDown ea).toNat v).read a = m.read a := by
  obtain ⟨r, hr, hword⟩ := word_in_region hc (storeChain_subset c) h
  rw [read_writeWord, if_neg]
  exact fun hin => not_holds_of_disjoint (storeChain_disjoint_bootrom hc hvm hr) (hword a hin.1 hin.2) ha

theorem reaches_mono {chain chain' : List Region} (h : chain ⊆ chain') {a : Word} (hr : reaches chain a = true) :
    reaches chain' a = true := by
  rw [reaches_iff] at *
  obtain ⟨r, hmem, hin⟩ := hr
  exact ⟨r, h hmem, hin⟩

theorem exec_keeps_bootrom {i : Instr} {s t : State} (hc : WellFormedConfig s.cfg)
    (hvm : s.cfg.bootrom ∉ s.cfg.vmRegions) (h : exec i s = .next t) {a : Nat} (ha : Holds s.cfg.bootrom a) :
    t.mem.read a = s.mem.read a := by
  cases effect_of_exec h
  case stored hr => exact read_writeWord_bootrom hc hvm hr ha
  case lineRead m bs v hi hs hl hm =>
    have hread : m.read a = s.mem.read a := by
      refine scatterBytes_induct (P := fun m' => m'.read a = s.mem.read a) (fun m' b x hm' hr => ?_) hm rfl
      rw [read_writeWord_bootrom hc hvm (reaches_mono (syscallChain_subset_storeChain _) hr) ha, hm']
    simpa using hread
  all_goals simp [sysBrk]

/-- Settles O29: a step that dispatches changes memory as its instruction does, and any other step does not. -/
theorem bootRomIsReadOnlyOutsideVmRegions : Obligations.BootRomIsReadOnlyOutsideVmRegions := by
  intro s t hwf hvm h a hlo hhi
  obtain ⟨-, ⟨-, rfl⟩ | ⟨-, rfl⟩ | ⟨w, -, ⟨-, rfl⟩ | ⟨i, u, -, hexec, rfl⟩⟩⟩ := step_next_cases h
  · rfl
  · rfl
  · rfl
  · exact exec_keeps_bootrom (wellFormedConfig hwf) hvm hexec ⟨hlo, hhi⟩

end Sys2Proof.Machine
end

section
/-! PROOFS. One step (spec 40_engine.md R110-R125): which states step, what the fetched word makes of a step, the
counters and the outputs. -/

namespace Sys2Proof.Machine

/-! ## The step by its fetch and its instruction (R110-R115) -/

theorem step_of_fetch_refuse {s : State} (hlive : s.live) (hf : fetch s = .refuse) :
    step s = .next (markRefused s) := by
  rw [step_of_live hlive, hf]

theorem step_of_instrAt_some {s : State} {w : Word} {i : Instr} (hlive : s.live) (hf : fetch s = .word w)
    (hi : instrAt s.cfg w = some i) : step s = mapNext (retire s.pc w i.cls) (exec i s) := by
  rw [step_of_live hlive, hf]
  dsimp only
  rw [hi]

/-- The word decodes, and where it is a FENCE, `FENCE_MATCH` selects it (30_encoding.md R94). -/
theorem instrAt_eq_some_iff {c : Config} {w : Word} {i : Instr} :
    instrAt c w = some i ↔ decode w = .ok i ∧ (rowOf i = Row.fence → fenceMatches c w = true) := by
  unfold instrAt
  cases decode w with
  | error e => simp
  | ok j =>
    dsimp only
    split
    next h =>
      obtain ⟨hrow, hmatch⟩ : rowOf j = Row.fence ∧ fenceMatches c w = false := by simpa using h
      constructor
      · intro hnone
        cases hnone
      · rintro ⟨hj, hf⟩
        cases hj
        exact absurd (hf hrow) (by simp [hmatch])
    next h =>
      constructor
      · intro hj
        cases hj
        exact ⟨rfl, fun hrow => by simpa [hrow] using h⟩
      · rintro ⟨hj, -⟩
        cases hj
        rfl

/-- A live machine reaches a next state, or waits for a line (45_syscalls.md R263). -/
theorem step_next_or_wait {s : State} (hlive : s.live) :
    (∃ t, step s = .next t) ∨ step s = .fault .consoleInputWait := by
  cases hf : fetch s with
  | refuse => exact .inl ⟨_, step_of_fetch_refuse hlive hf⟩
  | imemError => exact .inl ⟨_, step_of_fetch_imemError hlive hf⟩
  | word w =>
    cases hi : instrAt s.cfg w with
    | none => exact .inl ⟨_, step_of_instrAt_none hlive hf hi⟩
    | some i =>
      rw [step_of_instrAt_some hlive hf hi]
      rcases exec_next_or_wait i s with ⟨t, h⟩ | h
      · exact .inl ⟨_, congrArg (mapNext _) h⟩
      · exact .inr (congrArg (mapNext _) h)

theorem step_halted {s : State} (h : s.status ≠ .noException) : step s = .fault .halted := if_pos h

theorem step_refused {s : State} (hs : s.status = .noException) (hr : s.refused = true) :
    step s = .refused .refusedState := (if_neg (not_not_intro hs)).trans (if_pos hr)

/-- Settles O12: the two guards of the step, and behind them every outcome is a next state or the wait. -/
theorem onlyALiveMachineSteps : Obligations.OnlyALiveMachineSteps := by
  refine fun s => ⟨step_halted, step_refused, fun hlive => ?_⟩
  rcases step_next_or_wait hlive with ⟨t, h⟩ | h
  · simp [h]
  · simp [h]

/-- Settles O8: the fetched word is the one of the four bytes, and it is the encoding of `i`. -/
theorem stepRunsTheDecodedInstruction : Obligations.StepRunsTheDecodedInstruction := by
  intro s i hlive hpc hreach hbytes hfence
  have hf : fetch s = .word (s.mem.readWord s.pc.toNat) := fetch_of_aligned_reaches hpc hreach
  have hdecode : decode (s.mem.readWord s.pc.toNat) = .ok i := by
    simp only [decodeBytes] at hbytes
    unfold Memory.readWord
    split at hbytes
    next j hj => cases hbytes; exact hj
    next => cases hbytes
  have hword : encode i = s.mem.readWord s.pc.toNat := encode_of_decode hdecode
  rw [hword] at hfence ⊢
  exact step_of_instrAt_some hlive hf (instrAt_eq_some_iff.2 ⟨hdecode, hfence⟩)

/-- Settles O10: `fetch` asks the parameter, and the enclosing word is fetched through the same chain. -/
theorem misalignedFetchFollowsItsParameter : Obligations.MisalignedFetchFollowsItsParameter := by
  intro s hlive hpc chain w
  have hr : ¬ remainder s.pc = 0 := by rw [remainder_eq]; exact hpc
  refine ⟨fun hp => ?_, fun hp => ?_, fun hp => ?_⟩
  · exact step_of_fetch_refuse hlive (by rw [fetch, if_neg hr, hp])
  · exact step_of_fetch_imemError hlive (by rw [fetch, if_neg hr, hp])
  · have hf : fetch s = fetchAt s (alignDown s.pc) := by rw [fetch, if_neg hr, hp]
    refine ⟨fun hout => ?_, fun hin i hi => ?_⟩
    · have hnone := fetchAt_of_not_reaches ((not_reaches_alignDown chain s.pc).2 hout)
      exact step_of_fetch_imemError hlive (hf.trans hnone)
    · have hword := fetchAt_of_reaches ((reaches_alignDown chain s.pc).2 hin)
      rw [toNat_alignDown] at hword
      exact step_of_instrAt_some hlive (hf.trans hword) hi

/-! ## Counters and outputs (R124, R125) -/

/-- Adding 1 to a class's counter, counter by counter. -/
theorem bump_counters (n : ClassCounts) (c : ExecClass) :
    (n.bump c).alu = n.alu + (if c = .alu then 1#32 else 0#32)
      ∧ (n.bump c).mem = n.mem + (if c = .mem then 1#32 else 0#32)
      ∧ (n.bump c).ctrl = n.ctrl + (if c = .ctrl then 1#32 else 0#32)
      ∧ (n.bump c).csr = n.csr + (if c = .csr then 1#32 else 0#32) := by
  cases c <;> simp [ClassCounts.bump]

/-- Settles O13: instructions leave the counters alone, and `retire` counts. -/
theorem countersCountDispatchedSteps : Obligations.CountersCountDispatchedSteps := by
  intro s t h
  obtain ⟨-, ⟨hf, rfl⟩ | ⟨hf, rfl⟩ | ⟨w, hf, ⟨hi, rfl⟩ | ⟨i, u, hi, hexec, rfl⟩⟩⟩ := step_next_cases h
  · rw [hf]; exact ⟨rfl, rfl⟩
  · rw [hf]; exact ⟨rfl, rfl⟩
  · simp only [hf, hi]; exact ⟨rfl, rfl⟩
  · obtain ⟨-, -, hcycles, hcounts, -⟩ := exec_engine hexec
    simp only [hf, hi, retire_cycles, retire_counts, hcycles, hcounts, true_and]
    exact bump_counters s.counts i.cls

/-- Settles O56: no instruction touches the engine's own state, the console only as `exec_engine` says, and
`retire` appends one record. -/
theorem stepKeepsTheModeAndOnlyAddsOutput : Obligations.StepKeepsTheModeAndOnlyAddsOutput := by
  intro s t h
  obtain ⟨-, ⟨-, rfl⟩ | ⟨-, rfl⟩ | ⟨w, -, ⟨-, rfl⟩ | ⟨i, u, -, hexec, rfl⟩⟩⟩ := step_next_cases h
  · simp
  · simp
  · simp
  · obtain ⟨hcfg, hvm, -, -, htrace, hout, hin⟩ := exec_engine hexec
    refine ⟨hcfg, hvm, hout, ?_, hin.imp_right fun ⟨htail, hne⟩ => ?_⟩
    · rw [retire_trace, htrace]
      exact List.prefix_append _ _
    · obtain ⟨line, lines, hc⟩ := List.exists_cons_of_ne_nil hne
      exact ⟨line, by simp [htail, hc]⟩

/-! ## The next instruction's word (20_memory.md R70) -/

/-- A word stored whole is the word read there. -/
theorem readWord_storedMemory_word (m : Memory) {v ea : Word} (h : ea.toNat % 4 = 0) :
    (storedMemory .word v ea m).readWord ea.toNat = v := by
  have hread (k : Nat) (hk : k < 4) : (storedMemory .word v ea m).read (ea.toNat + k) = byteOf v k := by
    have hw : widthBytes .word = 4 := rfl
    rw [read_storedMemory, toNat_alignDown, if_pos (by omega), Nat.add_sub_cancel_left]
  have h0 := hread 0 (by decide)
  rw [Nat.add_zero] at h0
  rw [Memory.readWord, h0, hread 1 (by decide), hread 2 (by decide), hread 3 (by decide), wordOfBytes_byteOf]

/-- Settles O28: the store leaves a live machine whose next fetch reads the stored word. -/
theorem storedWordIsTheNextInstruction : Obligations.StoredWordIsTheNextInstruction := by
  intro s rs1 rs2 imm j fetchable hlive hpc hreach hreach' hdecode hea hstore hj
  have hpc' : (s.pc + 4#32).toNat % 4 = 0 := by
    rw [BitVec.toNat_add, BitVec.toNat_ofNat]
    omega
  have hexec : exec (.sw rs1 rs2 imm) s
      = .next (s.setMem (storedMemory .word (s.readReg rs2) (s.pc + 4#32) s.mem)).advance := by
    have hfits : (s.pc + 4#32).toNat % 4 + widthBytes .word ≤ 4 := by rw [hpc']; exact Nat.le_refl 4
    refine Eq.trans ?_ (storeAt_done .word _ _ s ((reaches_alignDown _ _).2 hstore) (.inl (crosses_eq_false hfits)))
    rw [← hea]
    rfl
  have hi : instrAt s.cfg (s.mem.readWord s.pc.toNat) = some (.sw rs1 rs2 imm) :=
    instrAt_eq_some_iff.2 ⟨hdecode, fun hrow => absurd hrow (by simp only [rowOf]; decide)⟩
  have hstep := step_of_instrAt_some hlive (fetch_of_aligned_reaches hpc hreach) hi
  rw [hexec] at hstep
  have hfetch := fetch_of_aligned_reaches
    (s := retire s.pc (s.mem.readWord s.pc.toNat) (Instr.sw rs1 rs2 imm).cls
      (s.setMem (storedMemory .word (s.readReg rs2) (s.pc + 4#32) s.mem)).advance) hpc' hreach'
  have hword := hfetch.trans (congrArg Fetched.word (readWord_storedMemory_word s.mem hpc'))
  exact ⟨_, hstep, rfl, hword, step_of_instrAt_some hlive hword hj⟩

end Sys2Proof.Machine
end

section
/-! PROOFS. The exception codes (spec 60_exceptions.md R302-R305, 40_engine.md R117): what a failing step leaves, and
the causes of each code, by the cases of `Effect`. -/

namespace Sys2Proof.Machine

/-! ## Failing steps (40_engine.md R117) -/

/-- The codes of a step that failed. -/
def ExcCode.IsFailure (c : ExcCode) : Prop := c = .imemError ∨ c = .illegalInst ∨ c = .dmemError

/-- What an instruction that fails has done: nothing, or the rd write of CSRRC and CSRRCI. -/
theorem exec_failure {i : Instr} {s t : State} (hs : s.status = .noException) (h : exec i s = .next t)
    (hfail : t.status.IsFailure) :
    (∃ c, t = raise c s) ∨ ∃ rd a, IsCsrClear i ∧ destRd i = some rd ∧ csrOf i = some a
      ∧ t = raise .illegalInst (s.writeRd rd (s.readCsr a)) := by
  cases effect_of_exec h
  case unreached => exact .inl ⟨_, rfl⟩
  case illegal => exact .inl ⟨_, rfl⟩
  case csrRead rd a _ hrd ha _ hclear => exact .inr ⟨rd, a, hclear, hrd, ha, rfl⟩
  all_goals simp [ExcCode.IsFailure, sysBrk, hs] at hfail

/-- Raising a code changes the status alone. -/
theorem raise_frame (c : ExcCode) (s : State) :
    (raise c s).pc = s.pc ∧ SameCsrs s (raise c s) ∧ SameMemory s (raise c s) ∧ SameBrk s (raise c s)
      ∧ SameConsole s (raise c s) ∧ (raise c s).vmFetch = s.vmFetch ∧ (raise c s).refused = s.refused
      ∧ SameRegs s (raise c s) :=
  ⟨rfl, fun _ => rfl, fun _ => rfl, fun _ => rfl, ⟨rfl, rfl, rfl⟩, rfl, rfl, fun _ => rfl⟩

/-- Settles O49: a step that fails raised its code over the old state, or over it with the rd of CSRRC or CSRRCI
written. -/
theorem failingStepsHaveNoEffect : Obligations.FailingStepsHaveNoEffect := by
  intro s t h hfail
  obtain ⟨⟨hs, -⟩, ⟨-, rfl⟩ | ⟨-, rfl⟩ | ⟨w, hf, ⟨-, rfl⟩ | ⟨i, u, hi, hexec, rfl⟩⟩⟩ := step_next_cases h
  · simp [hs] at hfail
  · obtain ⟨hpc, hcsrs, hmem, hbrk, hcon, hvm, href, hregs⟩ := raise_frame .imemError s
    exact ⟨hpc, hcsrs, hmem, hbrk, hcon, hvm, href, .inl hregs⟩
  · obtain ⟨hpc, hcsrs, hmem, hbrk, hcon, hvm, href, hregs⟩ := raise_frame .illegalInst s
    exact ⟨hpc, hcsrs, hmem, hbrk, hcon, hvm, href, .inl hregs⟩
  · rcases exec_failure hs hexec hfail with ⟨c, rfl⟩ | ⟨rd, a, hclear, hrd, ha, rfl⟩
    · obtain ⟨hpc, hcsrs, hmem, hbrk, hcon, hvm, href, hregs⟩ := raise_frame c s
      exact ⟨hpc, hcsrs, hmem, hbrk, hcon, hvm, href, .inl hregs⟩
    · refine ⟨?_, ?_, ?_, ?_, ?_, ?_, ?_, .inr ⟨w, i, rd, a, hf, instrAt_some hi, hclear, hrd, ha, rfl,
        regsUpdated_writeRd s rd _⟩⟩ <;>
        simp [SameCsrs, SameMemory, SameBrk, SameConsole]

/-! ## ILLEGAL_INST (R304) -/

/-- An instruction with a cause that comes before its effect raises ILLEGAL_INST over the old state. -/
theorem exec_of_illegalBeforeEffect {i : Instr} {s : State} (h : IllegalBeforeEffect s i) :
    exec i s = .next (raise .illegalInst s) := by
  rcases h with ⟨a, ha, hb⟩ | ⟨ea, n, haccess, hcross, hp, hr⟩ | ⟨ea, n, haccess, hcross, hp, hr⟩
  · obtain ⟨op, rd, opd, -, -, hexec⟩ := csrAccess_of_csrOf ha s
    exact hexec.trans (csrAccess_unbacked op rd a opd s (csrBacked_eq_false.2 hb))
  · obtain ⟨width, rd, rfl, hexec⟩ := exec_of_loadAccess haccess
    exact hexec.trans (loadAt_crossing_illegal hr hcross hp)
  · obtain ⟨width, v, rfl, hexec⟩ := exec_of_storeAccess haccess
    exact hexec.trans (storeAt_crossing_illegal hr hcross hp)

/-- CSRRC and CSRRCI are the access that clears. -/
theorem exec_of_isCsrClear {i : Instr} (h : IsCsrClear i) (s : State) :
    ∃ rd a opd, exec i s = csrAccess .clear rd a opd s := by
  cases i
  case csrrc rd a rs1 => exact ⟨rd, a, s.readReg rs1, rfl⟩
  case csrrci rd a z => exact ⟨rd, a, zimm z, rfl⟩
  all_goals
    simp only [IsCsrClear, rowOf] at h
    exact absurd h (by decide)

/-- On a backed CSR or not, an access that clears ends with ILLEGAL_INST (R236, 44_csr_system.md R243). -/
theorem csrAccess_clear_illegal (rd : Reg) (a : CsrAddr) (opd : Word) (s : State) :
    ∃ t, csrAccess .clear rd a opd s = .next t ∧ t.status = .illegalInst := by
  cases hb : csrBacked s.cfg a
  · exact ⟨_, csrAccess_unbacked .clear rd a opd s hb, rfl⟩
  · exact ⟨_, csrAccess_clear rd a opd s hb, rfl⟩

/-- An instruction ends with ILLEGAL_INST exactly when it is CSRRC or CSRRCI or has a cause before its effect. -/
theorem exec_illegal_iff {i : Instr} {s : State} (hs : s.status = .noException) :
    (∃ t, exec i s = .next t ∧ t.status = .illegalInst) ↔ IllegalBeforeEffect s i ∨ IsCsrClear i := by
  constructor
  · rintro ⟨t, h, hill⟩
    cases effect_of_exec h
    case illegal hcause _ => exact .inl hcause
    case csrRead hclear => exact .inr hclear
    all_goals simp [sysBrk, hs] at hill
  · rintro (h | h)
    · exact ⟨_, exec_of_illegalBeforeEffect h, rfl⟩
    · obtain ⟨rd, a, opd, hexec⟩ := exec_of_isCsrClear h s
      rw [hexec]
      exact csrAccess_clear_illegal rd a opd s

/-- A word is no instruction when no row selects it, or when `FENCE_MATCH` leaves out a word of the FENCE row. -/
theorem instrAt_eq_none_iff {c : Config} {w : Word} :
    instrAt c w = none ↔ (∀ e ∈ decodeTable, e.row.selects w = false)
      ∨ (Row.fence.selects w = true ∧ w &&& c.fenceMatch.mask ≠ c.fenceMatch.value) := by
  constructor
  · intro h
    by_cases hrows : ∀ e ∈ decodeTable, e.row.selects w = false
    · exact .inl hrows
    · push Not at hrows
      obtain ⟨e, he, hne⟩ := hrows
      have hsel : e.row.selects w = true := by simpa using hne
      have hnot : ¬ (rowOf (e.build w) = Row.fence → fenceMatches c w = true) := fun hf =>
        absurd (instrAt_eq_some_iff.2 ⟨decode_of_selects he hsel, hf⟩) (by simp [h])
      obtain ⟨hrow, hmatch⟩ := Classical.not_imp.1 hnot
      rw [rowOf_build w e he] at hrow
      exact .inr ⟨hrow ▸ hsel, by simpa [fenceMatches] using hmatch⟩
  · rintro (hrows | ⟨hsel, hmatch⟩)
    · exact instrAt_eq_none_of_unmapped c hrows
    · obtain ⟨fm, pred, succ, rs1, rd, hdecode⟩ := (fenceEndsTheRun.1 w).1 (beq_iff_eq.1 hsel)
      rw [Option.eq_none_iff_forall_ne_some]
      intro i hi
      obtain ⟨hi, hf⟩ := instrAt_eq_some_iff.1 hi
      cases hdecode.symm.trans hi
      exact hmatch (beq_iff_eq.1 (hf rfl))

theorem mapNext_eq_next {f : State → State} {r : Result} {t : State} :
    mapNext f r = .next t ↔ ∃ u, r = .next u ∧ f u = t := by
  cases r <;> simp [mapNext]

/-- Settles O50: at decode the word is no instruction; behind it the instruction has one of its causes. -/
theorem illegalInstructionCauses : Obligations.IllegalInstructionCauses := by
  intro s w hlive hf
  rw [← or_assoc, ← instrAt_eq_none_iff]
  cases hi : instrAt s.cfg w with
  | none => exact iff_of_true ⟨_, step_of_instrAt_none hlive hf hi, rfl⟩ (.inl rfl)
  | some i =>
    have hdecode := instrAt_some hi
    have hstep : (∃ t, step s = .next t ∧ t.status = .illegalInst)
        ↔ ∃ u, exec i s = .next u ∧ u.status = .illegalInst := by
      rw [step_of_instrAt_some hlive hf hi]
      constructor
      · rintro ⟨t, ht, hill⟩
        obtain ⟨u, hu, rfl⟩ := mapNext_eq_next.1 ht
        exact ⟨u, hu, hill⟩
      · rintro ⟨u, hu, hill⟩
        exact ⟨_, mapNext_eq_next.2 ⟨u, hu, rfl⟩, hill⟩
    rw [hstep, exec_illegal_iff hlive.1]
    constructor
    · rintro ((hcsr | hload | hstore) | hclear)
      · exact .inr ⟨i, hdecode, .inl hcsr⟩
      · exact .inr ⟨i, hdecode, .inr (.inr (.inl hload))⟩
      · exact .inr ⟨i, hdecode, .inr (.inr (.inr hstore))⟩
      · exact .inr ⟨i, hdecode, .inr (.inl hclear)⟩
    · rintro (hnone | ⟨j, hj, hcause⟩)
      · cases hnone
      cases hdecode.symm.trans hj
      rcases hcause with hcsr | hclear | hload | hstore
      · exact .inl (.inl hcsr)
      · exact .inr hclear
      · exact .inl (.inr (.inl hload))
      · exact .inl (.inr (.inr hstore))

/-! ## COMPLETION, FENCE and OS_ERROR (R305) -/

theorem exec_of_row_fence {i : Instr} (h : rowOf i = Row.fence) (s : State) :
    exec i s = .next (raise .fence s.advance) := by
  cases i
  case fence => rfl
  all_goals
    simp only [rowOf] at h
    exact absurd h (by decide)

section
variable {i : Instr} {s t : State} (hd : s.cfg.sysNum.all.Nodup) (hs : s.status = .noException)
  (h : exec i s = .next t)
include hs h

include hd in
theorem completion_iff : t.status = .completion ↔
    (i.cls = .ctrl ∧ t.pc = s.pc) ∨ (i = .ecall ∧ s.readReg 17 = s.cfg.sysNum.exit) := by
  obtain ⟨-, -, -, -, hexit, -, -⟩ := serviceOf_eq_some hd (s.readReg regA7)
  constructor
  · intro hst
    cases effect_of_exec h
    case stays hcls => exact .inl ⟨hcls, by simp⟩
    case exit hi hservice => exact .inr ⟨hi, hexit.1 hservice⟩
    all_goals simp [sysBrk, hs] at hst
  · rintro (⟨hcls, hpc⟩ | ⟨rfl, ha7⟩)
    · obtain ⟨u, hu, hend⟩ := controlCompletesOnlyOnItself i s hcls hs
      cases hu.symm.trans h
      rcases hend with ⟨-, hst⟩ | ⟨hne, -⟩
      · exact hst
      · exact absurd hpc hne
    · cases (execEcall_exit (hexit.2 ha7)).symm.trans h
      rfl

theorem fence_iff : t.status = .fence ↔ rowOf i = Row.fence := by
  constructor
  · intro hst
    cases effect_of_exec h
    case fence hrow => exact hrow
    all_goals simp [sysBrk, hs] at hst
  · intro hrow
    cases (exec_of_row_fence hrow s).symm.trans h
    rfl

theorem osError_iff (hp : s.cfg.syscallMemFail = .refuse) : t.status = .osError ↔
    i = .ebreak ∨ (i = .ecall ∧ s.readReg 17 ∉ s.cfg.sysNum.all) := by
  constructor
  · intro hst
    cases effect_of_exec h
    case ebreak hi => exact .inl hi
    case unknown hi hservice => exact .inr ⟨hi, serviceOf_eq_none.1 hservice⟩
    case bufferError hp' => cases hp.symm.trans hp'
    all_goals simp [sysBrk, hs] at hst
  · rintro (rfl | ⟨rfl, ha7⟩)
    · cases h
      rfl
    · cases (unknownSyscallIsOsError s ha7).symm.trans h
      rfl

theorem status_ne_imemError : t.status ≠ .imemError := by
  cases effect_of_exec h
  all_goals simp [sysBrk, hs]

end

/-- Settles O51, code by code. -/
theorem benignCodesAndOsErrorCauses : Obligations.BenignCodesAndOsErrorCauses :=
  fun _ _ _ hd hs h => ⟨completion_iff hd hs h, fence_iff hs h, osError_iff hs h, status_ne_imemError hs h⟩

end Sys2Proof.Machine
end

section
/-! PROOFS. The trace record (spec 40_engine.md R125; log 19): what an instruction leaves on the write-back latch, and
that the value there does not depend on the destination. -/

namespace Sys2Proof.Machine

/-! ## Which instructions name a CSR or a destination -/

theorem cls_of_csrOf {i : Instr} {a : CsrAddr} (h : csrOf i = some a) : i.cls = .csr := by
  cases i
  case csrrw | csrrs | csrrc | csrrwi | csrrsi | csrrci => rfl
  all_goals cases h

theorem cls_of_loadAccess {i : Instr} {s : State} {p : Word × Nat} (h : loadAccess s i = some p) : i.cls = .mem := by
  cases i
  case lb | lh | lw | lbu | lhu => rfl
  all_goals cases h

theorem cls_of_storeAccess {i : Instr} {s : State} {p : Word × Nat} (h : storeAccess s i = some p) :
    i.cls = .mem := by
  cases i
  case sb | sh | sw => rfl
  all_goals cases h

theorem destRd_of_storeAccess {i : Instr} {s : State} {p : Word × Nat} (h : storeAccess s i = some p) :
    destRd i = none := by
  cases i
  case sb | sh | sw => rfl
  all_goals cases h

theorem destRd_of_row_fence {i : Instr} (h : rowOf i = Row.fence) : destRd i = none := by
  cases i
  case fence => rfl
  all_goals
    simp only [rowOf] at h
    exact absurd h (by decide)

/-- A cause that comes before an effect is not the one of CSRRC and CSRRCI on a backed CSR. -/
theorem not_backed_of_illegalBeforeEffect {s : State} {i : Instr} (h : IllegalBeforeEffect s i) :
    ¬ ∃ a, csrOf i = some a ∧ a ∈ s.cfg.backedCsrs := by
  rintro ⟨a, ha, hb⟩
  have hcls := cls_of_csrOf ha
  rcases h with ⟨b, hb', hnot⟩ | ⟨ea, n, haccess, -⟩ | ⟨ea, n, haccess, -⟩
  · cases ha.symm.trans hb'
    exact hnot hb
  · cases hcls.symm.trans (cls_of_loadAccess haccess)
  · cases hcls.symm.trans (cls_of_storeAccess haccess)

/-! ## The latch (log 19) -/

/-- An instruction leaves the latch empty when it ends before its rd write, and else puts its rd there. -/
theorem wb_of_exec {i : Instr} {s u : State} (hs : s.status = .noException) (hwb : s.wb = none)
    (h : exec i s = .next u) :
    (EndsBeforeRd s i u.status → u.wb = none)
      ∧ (¬ EndsBeforeRd s i u.status → u.wb.map (·.rd) = destRd i) := by
  cases effect_of_exec h
  case unreached => exact ⟨fun _ => hwb, fun hgo => absurd (.inl rfl) hgo⟩
  case illegal hcause _ =>
    exact ⟨fun _ => hwb, fun hgo =>
      absurd (.inr ⟨rfl, fun hclear => not_backed_of_illegalBeforeEffect hcause hclear.2⟩) hgo⟩
  case csrRead rd a _ hrd ha hbacked hclear =>
    refine ⟨fun hend => ?_, fun _ => hrd.symm⟩
    rcases hend with hdmem | ⟨-, hnot⟩
    · cases hdmem
    · exact absurd ⟨hclear, a, ha, hbacked⟩ hnot
  case result rd v hrd _ => exact ⟨fun hend => by simp [EndsBeforeRd, hs] at hend, fun _ => hrd.symm⟩
  case csrWritten rd a v _ hrd _ _ _ => exact ⟨fun hend => by simp [EndsBeforeRd, hs] at hend, fun _ => hrd.symm⟩
  case stays | goes =>
    refine ⟨fun hend => by simp [EndsBeforeRd, hs] at hend, fun _ => ?_⟩
    cases destRd i <;> simp [hwb]
  case stored haccess _ => exact ⟨fun _ => hwb, fun _ => by simp [hwb, destRd_of_storeAccess haccess]⟩
  case fence hrow => exact ⟨fun _ => hwb, fun _ => by simp [hwb, destRd_of_row_fence hrow]⟩
  case ebreak hi => exact ⟨fun _ => hwb, fun _ => by simp [hwb, hi, destRd]⟩
  case unknown hi _ | noop hi _ | exit hi _ | brk hi _ | bufferRefused hi _ | bufferError hi _ | written hi _
      | lineRead hi _ _ _ =>
    exact ⟨fun _ => by simp [sysBrk, hwb], fun _ => by simp [sysBrk, hwb, hi, destRd]⟩

/-! ## The value does not depend on the destination -/

/-- For every destination the same: a code raised over the old state, or one value written to it. -/
def UniformInRd (s : State) (f : Reg → Result) : Prop :=
  (∃ c, ∀ r, f r = .next (raise c s))
    ∨ ∃ v, ∀ r, ∃ u, f r = .next u ∧ u.wb = some ⟨r, v⟩ ∧ RegsUpdated s u r v

theorem loadAt_uniform (width : Width) (ea : Word) (s : State) : UniformInRd s fun r => loadAt width r ea s := by
  cases hr : reaches (loadChain s.cfg) (alignDown ea)
  · exact .inl ⟨_, fun r => loadAt_unreached width r ea s hr⟩
  by_cases hc : crosses width (remainder ea) = true ∧ s.cfg.crossingLoad = .illegal
  · exact .inl ⟨_, fun r => loadAt_illegal width r ea s hr hc.1 hc.2⟩
  · have hgo : crosses width (remainder ea) = false ∨ s.cfg.crossingLoad = .truncate := by
      cases hp : s.cfg.crossingLoad <;> simp_all
    exact .inr ⟨_, fun r => ⟨_, loadAt_done width r ea s hr hgo, rfl, regsUpdated_writeRd s r _⟩⟩

theorem csrAccess_uniform (op : CsrOp) (a : CsrAddr) (opd : Word) (s : State) :
    UniformInRd s fun r => csrAccess op r a opd s := by
  cases hb : csrBacked s.cfg a
  · exact .inl ⟨_, fun r => csrAccess_unbacked op r a opd s hb⟩
  · refine .inr ⟨s.readCsr a, fun r => ?_⟩
    cases op
    · exact ⟨_, csrAccess_write r a opd s hb, rfl, regsUpdated_writeRd s r _⟩
    · exact ⟨_, csrAccess_set r a opd s hb, rfl, regsUpdated_writeRd s r _⟩
    · exact ⟨_, csrAccess_clear r a opd s hb, rfl, regsUpdated_writeRd s r _⟩

theorem exec_uniform {i : Instr} (h : destRd i ≠ none) (s : State) :
    UniformInRd s fun r => exec (withRd r i) s := by
  rcases exec_withRd i s h with ⟨v, e⟩ | ⟨-, width, ea, e⟩ | ⟨target, e⟩ | ⟨op, a, opd, -, -, e⟩
  · exact .inr ⟨v, fun r => ⟨_, e r, rfl, regsUpdated_writeRd s r v⟩⟩
  · simp only [e]
    exact loadAt_uniform width ea s
  · refine .inr ⟨s.pc + 4#32, fun r => ?_⟩
    obtain ⟨t, ht, hregs, hwb, -⟩ := transfer_links r target s
    exact ⟨t, (e r).trans ht, hwb, hregs⟩
  · simp only [e]
    exact csrAccess_uniform op a opd s

/-- The value an instruction puts on the latch is what it leaves in any other destination but x0. -/
theorem value_of_exec {i : Instr} {s u : State} {r : Reg} {v : Word} (hwb : s.wb = none) (h : exec i s = .next u)
    (hrd : destRd i = some r) (hu : u.wb = some ⟨r, v⟩) {q : Reg} (hq : q ≠ 0) :
    ∃ t, exec (withRd q i) s = .next t ∧ t.readReg q = v := by
  have hself : exec (withRd r i) s = .next u := by rw [withRd_self hrd, h]
  rcases exec_uniform (i := i) (by simp [hrd]) s with ⟨c, e⟩ | ⟨x, e⟩
  · cases (e r).symm.trans hself
    cases hwb.symm.trans hu
  · obtain ⟨u', hu', hwb', -⟩ := e r
    cases hu'.symm.trans hself
    cases hwb'.symm.trans hu
    obtain ⟨t, ht, -, hregs⟩ := e q
    exact ⟨t, ht, (hregs q).trans (if_pos ⟨rfl, hq⟩)⟩

/-- Settles O14: the record shows the latch, which holds rd and its value unless the instruction ended before. -/
theorem dispatchedStepsEmitOneTraceRecord : Obligations.DispatchedStepsEmitOneTraceRecord := by
  intro s t w i hwb hf hi h
  obtain ⟨⟨hs, -⟩, ⟨hf', -⟩ | ⟨hf', -⟩ | ⟨w', hf', ⟨hi', -⟩ | ⟨j, u, hi', hexec, rfl⟩⟩⟩ := step_next_cases h
  · cases hf.symm.trans hf'
  · cases hf.symm.trans hf'
  · cases hf.symm.trans hf'
    cases hi.symm.trans hi'
  cases hf.symm.trans hf'
  cases hi.symm.trans hi'
  obtain ⟨-, -, -, -, htrace, -⟩ := exec_engine hexec
  obtain ⟨hend, hgo⟩ := wb_of_exec hs hwb hexec
  refine ⟨u.wb.map (·.rd), u.wb.map (·.value), by rw [retire_trace, htrace, retire_pc], rfl, by simp, ?_, ?_, ?_⟩
  · intro he
    rw [hend he]
    rfl
  · exact hgo
  · intro hne q hq
    cases hu : u.wb with
    | none => exact absurd (congrArg (Option.map _) hu) hne
    | some p =>
      have hwrote : ¬ EndsBeforeRd s i u.status := fun he => by
        have hnone := hend he
        rw [hu] at hnone
        cases hnone
      have hrd : destRd i = some p.rd := (hgo hwrote).symm.trans (congrArg (Option.map _) hu)
      obtain ⟨t, ht, hread⟩ := value_of_exec hwb hexec hrd hu hq
      exact ⟨t, ht, congrArg some hread.symm⟩

end Sys2Proof.Machine
end

section
/-! PROOFS. The invariant (spec 10_state.md, 20_memory.md R51-R53): `Sound` is what every operation on the state keeps,
whatever it does to the counters and the latch; `retire` restores the rest. -/

namespace Sys2Proof.Machine

/-! ## Memory inside the regions -/

/-- Memory is in canonical form, and every listed byte lies in a region. -/
def MemSound (c : Config) (m : Memory) : Prop :=
  Memory.wf m ∧ ∀ e ∈ m, ∃ r ∈ c.regions, r.base ≤ e.1 ∧ e.1 < r.base + r.size

theorem memSound_nil (c : Config) : MemSound c [] := ⟨⟨List.Pairwise.nil, by simp⟩, by simp⟩

/-- A word written through a chain of regions lies inside one of them. -/
theorem MemSound.writeWord {c : Config} (hc : WellFormedConfig c) {m : Memory} (h : MemSound c m) {chain : List Region}
    (hchain : chain ⊆ c.regions) {ea : Word} (hr : reaches chain (alignDown ea) = true) (v : Word) :
    MemSound c (m.writeWord (alignDown ea).toNat v) := by
  obtain ⟨hwf, hin⟩ := h
  refine ⟨writeWord_wf hwf _ v, fun e he => ?_⟩
  rcases mem_writeWord he with ⟨hlo, hhi⟩ | hold
  · obtain ⟨r, hmem, hword⟩ := word_in_region hc hchain hr
    exact ⟨r, hchain hmem, hword e.1 hlo hhi⟩
  · exact hin e hold

theorem MemSound.scatterBytes {c : Config} (hc : WellFormedConfig c) {m m' : Memory} {a : Word} {bs : List Byte}
    (h : MemSound c m) (hs : scatterBytes c m a bs = some m') : MemSound c m' :=
  scatterBytes_induct (P := MemSound c)
    (fun _ _ _ hm hr => hm.writeWord hc (fun _ hmem => storeChain_subset c (syscallChain_subset_storeChain c hmem)) hr _)
    hs h

/-! ## What every operation keeps -/

/-- The invariant, but for the counters, the trace and the latch. -/
structure Sound (s : State) : Prop where
  config : WellFormedConfig s.cfg
  zeroReg : s.regs[0] = 0#32
  pcEven : s.pc.getLsbD 0 = false
  mem : MemSound s.cfg s.mem
  csrsCanonical : Table.Wf 0#32 s.csrs
  csrsBacked : ∀ e ∈ s.csrs, ∃ a ∈ s.cfg.backedCsrs, a.toNat = e.1
  brkCanonical : Table.Wf 0#32 s.brkTable
  brkKeys : ∀ e ∈ s.brkTable, e.1 < 2 ^ 32

section
variable {s : State} (h : Sound s)
include h

theorem Sound.setReg (r : Reg) (v : Word) : Sound (s.setReg r v) := by
  have hzero := (setReg_zeroCell s r v).trans h.zeroReg
  by_cases hr : r = 0
  · subst hr
    exact h
  · rw [State.setReg, if_neg hr] at hzero ⊢
    exact { h with zeroReg := hzero }

theorem Sound.writeRd (rd : Reg) (v : Word) : Sound (s.writeRd rd v) := { h.setReg rd v with }

theorem Sound.linkTo (link : Option Reg) : Sound (linkTo link s) := by
  cases link
  case none => exact h
  case some rd => exact h.writeRd rd _

theorem Sound.setPc {t : Word} (ht : t.getLsbD 0 = false) : Sound (s.setPc t) := { h with pcEven := ht }

theorem Sound.advance : Sound s.advance := h.setPc (even_add h.pcEven (by decide))

theorem Sound.setMem {m : Memory} (hm : MemSound s.cfg m) : Sound (s.setMem m) := { h with mem := hm }

theorem Sound.writeCsr {a : CsrAddr} (ha : a ∈ s.cfg.backedCsrs) (v : Word) : Sound (s.writeCsr a v) :=
  { h with
    csrsCanonical := Table.put_wf 0#32 h.csrsCanonical a.toNat v
    csrsBacked := fun e he => (Table.mem_put 0#32 he).elim (fun heq => ⟨a, ha, heq ▸ rfl⟩) (h.csrsBacked e) }

theorem Sound.writeBrk (k v : Word) : Sound (s.writeBrk k v) :=
  { h with
    brkCanonical := Table.put_wf 0#32 h.brkCanonical k.toNat v
    brkKeys := fun e he => (Table.mem_put 0#32 he).elim (fun heq => heq ▸ k.isLt) (h.brkKeys e) }

theorem Sound.raise (c : ExcCode) : Sound (raise c s) := { h with }
theorem Sound.markRefused : Sound (markRefused s) := { h with }
theorem Sound.emit (bs : List Byte) : Sound (s.emit bs) := { h with }
theorem Sound.dropLine : Sound s.dropLine := { h with }
theorem Sound.countDraw : Sound s.countDraw := { h with }
theorem Sound.retire (pc w : Word) (c : ExecClass) : Sound (retire pc w c s) := { h with }

end

/-- Every instruction with an encoding keeps it: a target's evenness rests on the offset's. -/
theorem Sound.exec {i : Instr} {s t : State} (h : Sound s) (hi : i.WellFormed) (he : exec i s = .next t) :
    Sound t := by
  cases effect_of_exec he
  case result rd v _ _ => exact (h.writeRd rd v).advance
  case unreached => exact h.raise _
  case illegal => exact h.raise _
  case stored width v ea _ _ hr => exact (h.setMem (h.mem.writeWord h.config (storeChain_subset _) hr _)).advance
  case stays => exact (h.linkTo _).raise _
  case goes target _ _ heven => exact (h.linkTo _).setPc (heven hi h.pcEven)
  case csrWritten rd a v _ _ _ hbacked _ =>
    exact ((h.writeRd rd _).writeCsr (a := a) (by simpa using hbacked) v).advance
  case csrRead rd a _ _ _ _ _ => exact (h.writeRd rd _).raise _
  case fence => exact h.advance.raise _
  case ebreak => exact h.advance.raise _
  case unknown => exact h.advance.raise _
  case noop => exact h.advance
  case exit => exact h.advance.raise _
  case brk => exact ((h.advance.setReg _ _).writeBrk _ _).countDraw
  case bufferRefused => exact h.advance.markRefused
  case bufferError => exact h.advance.raise _
  case written out v _ _ => exact ((h.advance.emit out).setReg _ v).countDraw
  case lineRead m bs v _ _ _ hm =>
    exact (((h.advance.setMem (h.mem.scatterBytes h.config hm)).dropLine).setReg _ v).countDraw

/-! ## The invariant -/

theorem State.Inv.sound {s : State} (h : s.Inv) : Sound s where
  config := wellFormedConfig h.config
  zeroReg := h.zeroReg
  pcEven := h.pcEven
  mem := ⟨h.memCanonical, h.memBacked⟩
  csrsCanonical := h.csrsCanonical
  csrsBacked := h.csrsBacked
  brkCanonical := h.brkCanonical
  brkKeys := h.brkKeys

theorem Sound.inv {s : State} (h : Sound s) (hconfig : s.cfg.WellFormed)
    (hcycles : s.cycles = s.counts.alu + s.counts.mem + s.counts.ctrl + s.counts.csr)
    (htrace : s.cycles = BitVec.ofNat 32 s.trace.length) (hlatch : s.wb = none) : s.Inv where
  config := hconfig
  zeroReg := h.zeroReg
  pcEven := h.pcEven
  memCanonical := h.mem.1
  memBacked := h.mem.2
  csrsCanonical := h.csrsCanonical
  csrsBacked := h.csrsBacked
  brkCanonical := h.brkCanonical
  brkKeys := h.brkKeys
  cyclesSum := hcycles
  traceLength := htrace
  latchEmpty := hlatch

/-- Settles O52: a step that ends before dispatch changes nothing the invariant speaks of; an instruction keeps
`Sound` and the counters, and `retire` counts the step, records it and empties the latch. -/
theorem stepKeepsTheInvariant : Obligations.StepKeepsTheInvariant := by
  intro s t hinv h
  obtain ⟨-, ⟨-, rfl⟩ | ⟨-, rfl⟩ | ⟨w, -, ⟨-, rfl⟩ | ⟨i, u, hi, hexec, rfl⟩⟩⟩ := step_next_cases h
  · exact { hinv with }
  · exact { hinv with }
  · exact { hinv with }
  obtain ⟨hcfg, -, hcycles, hcounts, htrace, -⟩ := exec_engine hexec
  have hsound := hinv.sound.exec (decode_wellFormed (instrAt_some hi)) hexec
  refine (hsound.retire s.pc w i.cls).inv (hcfg ▸ hinv.config) ?_ ?_ rfl
  · rw [retire_cycles, retire_counts, bump_sum, hcycles, hcounts, hinv.cyclesSum]
  · rw [retire_cycles, retire_trace, htrace, hcycles, hinv.traceLength, List.length_append]
    exact (BitVec.ofNat_add ..).symm

end Sys2Proof.Machine
end

section
/-! PROOFS. Construction (spec 70_reset_and_hazards.md R330-R337): the launch memory lies in the regions and holds its
images, and the constructed machine has the invariant. -/

namespace Sys2Proof.Machine

/-! ## Images in memory (R334, R335) -/

/-- Every listed byte after loading an image is one of the image's addresses or an old one. -/
theorem mem_load {m : Memory} {a : Nat} {bs : List Byte} {e : Host.Cell} (h : e ∈ m.load a bs) :
    (a ≤ e.1 ∧ e.1 < a + bs.length) ∨ e ∈ m := by
  induction bs generalizing m a with
  | nil => exact .inr h
  | cons b bs ih =>
    rw [List.length_cons]
    rcases ih h with hin | hmem
    · exact .inl (by omega)
    · rcases Table.mem_put _ hmem with rfl | hold
      · exact .inl (by simp)
      · exact .inr hold

theorem read_load_outside {m : Memory} {a x : Nat} {bs : List Byte} (h : x < a ∨ a + bs.length ≤ x) :
    (m.load a bs).read x = m.read x := by
  induction bs generalizing m a with
  | nil => rfl
  | cons b bs ih =>
    rw [List.length_cons] at h
    rw [Memory.load, ih (by omega), read_write, if_neg (by omega)]

theorem read_load_inside {m : Memory} {a k : Nat} {bs : List Byte} (h : k < bs.length) :
    (m.load a bs).read (a + k) = bs[k] := by
  induction bs generalizing m a k with
  | nil => simp at h
  | cons b bs ih =>
    rw [Memory.load]
    cases k with
    | zero =>
      rw [read_load_outside (by omega), read_write, if_pos (Nat.add_zero a)]
      rfl
    | succ k =>
      have hbyte := ih (m := m.write a b) (a := a + 1) (Nat.lt_of_succ_lt_succ h)
      rwa [Nat.add_right_comm] at hbyte

theorem MemSound.load {c : Config} {m : Memory} (h : MemSound c m) {r : Region} (hr : r ∈ c.regions) {a : Nat}
    {bs : List Byte} (hlo : r.base ≤ a) (hhi : a + bs.length ≤ r.base + r.size) : MemSound c (m.load a bs) := by
  obtain ⟨hwf, hin⟩ := h
  refine ⟨load_wf hwf a bs, fun e he => ?_⟩
  rcases mem_load he with ⟨hl, hu⟩ | hold
  · exact ⟨r, hr, by omega, by omega⟩
  · exact hin e hold

/-- The launch memory lies in the regions. -/
theorem memSound_launchMemory {c : Config} (hc : WellFormedConfig c) {l : Launch} (hl : l.Fits c) :
    MemSound c (launchMemory c l) := by
  obtain ⟨himem, hdmem, hvm⟩ := hl
  have hbase : MemSound c (Memory.load (Memory.load (Memory.load [] c.bootrom.base c.bootromImage) c.imem.base
      l.imemImage) c.dmem.base l.dmemImage) := by
    have hboot := (memSound_nil c).load (r := c.bootrom) (by simp [Config.regions]) le_rfl
      (Nat.add_le_add_left hc.image _)
    have himage := hboot.load (r := c.imem) (by simp [Config.regions]) le_rfl (Nat.add_le_add_left himem _)
    exact himage.load (r := c.dmem) (by simp [Config.regions]) le_rfl (Nat.add_le_add_left hdmem _)
  unfold launchMemory
  generalize l.vmImages = images at hvm
  generalize Memory.load _ c.dmem.base l.dmemImage = m at hbase
  induction images generalizing m with
  | nil => exact hbase
  | cons p ps ih =>
    obtain ⟨r, hr, hlo, hhi⟩ := hvm p (List.mem_cons_self ..)
    exact ih (fun q hq => hvm q (List.mem_cons_of_mem _ hq)) _ (hbase.load hr hlo hhi)

/-! ## The constructed machine -/

theorem even_of_mod_four {a : Word} (h : a.toNat % 4 = 0) : a.getLsbD 0 = false := by
  rw [BitVec.getLsbD, Nat.testBit_zero]
  simp
  omega

theorem construct_sound {c : Config} (hc : WellFormedConfig c) {l : Launch} (hl : l.Fits c) :
    Sound (construct c l) where
  config := hc
  zeroReg := by simp [construct]
  pcEven := even_of_mod_four hc.resetPc
  mem := memSound_launchMemory hc hl
  csrsCanonical := ⟨hc.csrReset_rising, fun e he => (hc.csrReset_entries e he).1⟩
  csrsBacked := fun e he => (hc.csrReset_entries e he).2
  brkCanonical := ⟨List.Pairwise.nil, by simp [construct, State.reset]⟩
  brkKeys := by simp [construct, State.reset]

/-- Settles O54: construction is `Sound` with everything counted at 0, and `run` sets an even pc. -/
theorem launchMeetsTheInvariant : Obligations.LaunchMeetsTheInvariant :=
  ⟨fun _ _ hc hl => (construct_sound (wellFormedConfig hc) hl).inv hc rfl rfl rfl,
    fun _ _ _ hinv hpc => { hinv with pcEven := hpc }⟩

/-- Settles O53: the reset machine is the standard configuration constructed with an empty launch input. -/
theorem resetMeetsTheInvariant : Obligations.ResetMeetsTheInvariant := by
  have hreset : State.reset = construct Config.standard Launch.empty := by decide
  have hfits : Launch.empty.Fits Config.standard := ⟨by decide, by decide, by simp [Launch.empty]⟩
  unfold Obligations.ResetMeetsTheInvariant
  rw [hreset]
  exact launchMeetsTheInvariant.1 _ _ (by decide) hfits

/-! ## Launch values (R330) -/

/-- A listed key of a rising table reads as its entry. -/
theorem get_of_mem {α : Type} (d : α) {m : Table α} (hm : m.Pairwise (fun a b => a.1 < b.1)) {e : Nat × α}
    (he : e ∈ m) : Table.get d m e.1 = e.2 := by
  induction m with
  | nil => cases he
  | cons p m ih =>
    obtain ⟨hp, hm⟩ := List.pairwise_cons.1 hm
    rw [Table.get_cons]
    rcases List.mem_cons.1 he with rfl | he
    · rw [if_neg (Nat.lt_irrefl _), if_pos rfl]
    · have hlt := hp e he
      rw [if_neg (by omega), if_neg (by omega), ih hm he]

theorem get_of_unlisted {α : Type} (d : α) {m : Table α} {a : Nat} (h : ∀ e ∈ m, e.1 ≠ a) :
    Table.get d m a = d := by
  induction m with
  | nil => rfl
  | cons p m ih =>
    rw [Table.get_cons, if_neg (h p (List.mem_cons_self ..)), ih fun e he => h e (List.mem_cons_of_mem _ he), ite_self]

theorem disjoint_symm {r q : Region} (h : r.disjoint q = true) : q.disjoint r = true := by
  simp only [Region.disjoint, Bool.or_eq_true, decide_eq_true_eq, beq_iff_eq] at h ⊢
  omega

/-- An image in a disjoint region does not touch the byte. -/
theorem read_load_of_disjoint {m : Memory} {r q : Region} {bs : List Byte} (hbs : bs.length ≤ r.size)
    (hdis : r.disjoint q = true) {x : Nat} (hx : Holds q x) : (m.load r.base bs).read x = m.read x := by
  apply read_load_outside
  by_contra hin
  exact not_holds_of_disjoint hdis (a := x) ⟨by omega, by omega⟩ hx

/-- Settles O55: the three images lie in disjoint regions, so none is written over. -/
theorem constructionSetsTheLaunchValues : Obligations.ConstructionSetsTheLaunchValues := by
  intro c l hwf hfits hvm s
  have hc := wellFormedConfig hwf
  obtain ⟨himem, hdmem, -⟩ := hfits
  have hmem : s.mem = Memory.load (Memory.load (Memory.load [] c.bootrom.base c.bootromImage) c.imem.base
      l.imemImage) c.dmem.base l.dmemImage := by
    change launchMemory c l = _
    rw [launchMemory, hvm]
    rfl
  refine ⟨fun r => ?regs, fun e he a ha => ?csr, fun a ha => get_of_unlisted _ ha, fun k hk => ?bootrom,
    fun k hk => ?imem, fun k hk => ?dmem, fun _ => rfl, rfl, rfl, rfl, rfl⟩
  case regs =>
    by_cases hr : r = 0
    · simp [hr, readReg_zero]
    · have hne : (0 : Nat) ≠ r.val := fun h => hr (Fin.ext h.symm)
      simp [s, construct, State.readReg, hr, hne]
  case csr =>
    rw [State.readCsr, ha]
    exact get_of_mem _ hc.csrReset_rising he
  case bootrom =>
    have hholds : Holds c.bootrom (c.bootrom.base + k) := ⟨by omega, by have := hc.image; omega⟩
    rw [hmem, read_load_of_disjoint hdmem hc.dmem_bootrom hholds,
      read_load_of_disjoint himem hc.imem_bootrom hholds, read_load_inside hk]
  case imem =>
    have hholds : Holds c.imem (c.imem.base + k) := ⟨by omega, by omega⟩
    rw [hmem, read_load_of_disjoint hdmem (disjoint_symm hc.imem_dmem) hholds, read_load_inside hk]
  case dmem => rw [hmem, read_load_inside hk]

end Sys2Proof.Machine
end

section
/-! PROOFS. The outputs (spec 10_state.md R40): counters, trace and console output are written and never read. -/

namespace Sys2Proof.Machine

/-- Put the outputs of `o` in place of the state's, its console output in front. -/
def State.withOutputsOf (o s : State) : State :=
  { s with cycles := o.cycles, counts := o.counts, trace := o.trace, consoleOut := o.consoleOut ++ s.consoleOut }

theorem withOutputsOf_eraseOutputs (s : State) : s.withOutputsOf (eraseOutputs s) = s := by
  simp [State.withOutputsOf, eraseOutputs]

theorem setReg_withOutputsOf (o s : State) (r : Reg) (v : Word) :
    (o.withOutputsOf s).setReg r v = o.withOutputsOf (s.setReg r v) := by
  unfold State.setReg; split <;> rfl

theorem writeRd_withOutputsOf (o s : State) (rd : Reg) (v : Word) :
    (o.withOutputsOf s).writeRd rd v = o.withOutputsOf (s.writeRd rd v) := by
  simp only [State.writeRd, setReg_withOutputsOf]; rfl

theorem emit_withOutputsOf (o s : State) (bs : List Byte) :
    (o.withOutputsOf s).emit bs = o.withOutputsOf (s.emit bs) := by
  simp [State.emit, State.withOutputsOf]

theorem invisibleToBridge_withOutputsOf (o : State) : InvisibleToBridge o.withOutputsOf where
  cfg _ := rfl
  pc _ := rfl
  mem _ := rfl
  readReg _ _ := rfl
  writeRd := writeRd_withOutputsOf o
  setPc _ _ := rfl
  setMem _ _ := rfl
  raise _ _ := rfl
  consoleIn _ := rfl
  draws _ := rfl
  setReg := setReg_withOutputsOf o
  writeBrk _ _ _ := rfl
  emit := emit_withOutputsOf o
  dropLine _ := rfl
  countDraw _ := rfl
  markRefused _ := rfl

theorem invisibleToCsrAccess_withOutputsOf (o : State) : InvisibleToCsrAccess o.withOutputsOf where
  toInvisible := (invisibleToBridge_withOutputsOf o).toInvisible
  readCsr _ _ := rfl
  writeCsr _ _ _ := rfl

theorem exec_withOutputsOf (o s : State) (i : Instr) :
    exec i (o.withOutputsOf s) = mapNext o.withOutputsOf (exec i s) :=
  exec_of_invisible (invisibleToBridge_withOutputsOf o) (invisibleToCsrAccess_withOutputsOf o) i s

theorem fetch_withOutputsOf (o s : State) : fetch (o.withOutputsOf s) = fetch s := rfl

/-- A step does not depend on the outputs before it. -/
theorem step_withOutputsOf (o s : State) :
    mapNext eraseOutputs (step (o.withOutputsOf s)) = mapNext eraseOutputs (step s) := by
  by_cases hstatus : s.status = .noException
  swap
  · rw [step_halted hstatus, step_halted (s := o.withOutputsOf s) hstatus]
  by_cases hrefused : s.refused = true
  · rw [step_refused hstatus hrefused, step_refused (s := o.withOutputsOf s) hstatus hrefused]
  have hlive : s.live := ⟨hstatus, by simpa using hrefused⟩
  have hlive' : (o.withOutputsOf s).live := hlive
  have hfetch := fetch_withOutputsOf o s
  cases hf : fetch s with
  | refuse =>
    rw [step_of_fetch_refuse hlive hf, step_of_fetch_refuse hlive' (hfetch.trans hf)]
    rfl
  | imemError =>
    rw [step_of_fetch_imemError hlive hf, step_of_fetch_imemError hlive' (hfetch.trans hf)]
    rfl
  | word w =>
    cases hi : instrAt s.cfg w with
    | none =>
      rw [step_of_instrAt_none hlive hf hi, step_of_instrAt_none hlive' (hfetch.trans hf) hi]
      rfl
    | some i =>
      rw [step_of_instrAt_some hlive hf hi, step_of_instrAt_some hlive' (hfetch.trans hf) hi, exec_withOutputsOf]
      cases exec i s <;> rfl

/-- Settles O57: both states are their common erasure with their own outputs put in. -/
theorem outputsDoNotInfluenceTheMachine : Obligations.OutputsDoNotInfluenceTheMachine := by
  intro s s' h
  calc mapNext eraseOutputs (step s)
      = mapNext eraseOutputs (step (s.withOutputsOf (eraseOutputs s))) := by rw [withOutputsOf_eraseOutputs]
    _ = mapNext eraseOutputs (step (eraseOutputs s)) := step_withOutputsOf s _
    _ = mapNext eraseOutputs (step (eraseOutputs s')) := by rw [h]
    _ = mapNext eraseOutputs (step (s'.withOutputsOf (eraseOutputs s'))) := (step_withOutputsOf s' _).symm
    _ = mapNext eraseOutputs (step s') := by rw [withOutputsOf_eraseOutputs]

end Sys2Proof.Machine
end

section
/-! PROOFS. The run loop and the two-phase boot (spec 40_engine.md R120-R123, 70_reset_and_hazards.md R331, R336). -/

namespace Sys2Proof.Machine

/-! ## The loop, case by case -/

theorem runLoop_halted (n : Nat) {s : State} (h : s.status ≠ .noException) : runLoop n s = .ended s := by
  rw [runLoop.eq_def]
  exact if_pos h

theorem runLoop_refused (n : Nat) {s : State} (hs : s.status = .noException) (hr : s.refused = true) :
    runLoop n s = .refused s := by
  rw [runLoop.eq_def]
  exact (if_neg (not_not_intro hs)).trans (if_pos hr)

theorem runLoop_zero {s : State} (h : s.live) : runLoop 0 s = .running s := by
  obtain ⟨hs, hr⟩ := h
  simp [runLoop, hs, hr]

theorem runLoop_next (n : Nat) {s t : State} (h : s.live) (hstep : step s = .next t) :
    runLoop (n + 1) s = runLoop n t := by
  obtain ⟨hs, hr⟩ := h
  rw [runLoop.eq_def]
  simp [hs, hr, hstep]

theorem runLoop_wait (n : Nat) {s : State} (h : s.live) (hstep : step s = .fault .consoleInputWait) :
    runLoop (n + 1) s = .waiting s := by
  obtain ⟨hs, hr⟩ := h
  rw [runLoop.eq_def]
  simp [hs, hr, hstep]

/-- Every state is halted, refused or live (40_engine.md R122). -/
theorem halted_or_refused_or_live (s : State) :
    s.status ≠ .noException ∨ (s.status = .noException ∧ s.refused = true) ∨ s.live := by
  by_cases hs : s.status = .noException
  · cases hr : s.refused with
    | true => exact .inr (.inl ⟨hs, rfl⟩)
    | false => exact .inr (.inr ⟨hs, hr⟩)
  · exact .inl hs

/-- Induction along a run, one case per branch of the loop. -/
theorem runLoop_induct {P : Nat → State → RunEnd → Prop}
    (halted : ∀ n s, s.status ≠ .noException → P n s (.ended s))
    (refused : ∀ n s, s.status = .noException → s.refused = true → P n s (.refused s))
    (zero : ∀ s, s.live → P 0 s (.running s))
    (wait : ∀ n s, s.live → step s = .fault .consoleInputWait → P (n + 1) s (.waiting s))
    (next : ∀ n s t e, s.live → step s = .next t → P n t e → P (n + 1) s e) (n : Nat) (s : State) :
    P n s (runLoop n s) := by
  induction n generalizing s with
  | zero =>
    rcases halted_or_refused_or_live s with hs | ⟨hs, hr⟩ | hlive
    · rw [runLoop_halted 0 hs]; exact halted 0 s hs
    · rw [runLoop_refused 0 hs hr]; exact refused 0 s hs hr
    · rw [runLoop_zero hlive]; exact zero s hlive
  | succ n ih =>
    rcases halted_or_refused_or_live s with hs | ⟨hs, hr⟩ | hlive
    · rw [runLoop_halted _ hs]; exact halted _ s hs
    · rw [runLoop_refused _ hs hr]; exact refused _ s hs hr
    · rcases step_next_or_wait hlive with ⟨t, hstep⟩ | hstep
      · rw [runLoop_next n hlive hstep]; exact next n s t _ hlive hstep (ih t)
      · rw [runLoop_wait n hlive hstep]; exact wait n s hlive hstep

/-! ## Composition (R120, R122) -/

/-- What a run with `m` more steps makes of the end of a run. -/
def RunEnd.goOn (m : Nat) : RunEnd → RunEnd
  | .running t => runLoop m t
  | e => e

theorem runLoop_add (n m : Nat) (s : State) : runLoop (n + m) s = (runLoop n s).goOn m := by
  refine runLoop_induct (P := fun n s e => runLoop (n + m) s = e.goOn m) ?_ ?_ ?_ ?_ ?_ n s
  · exact fun n s hs => runLoop_halted _ hs
  · exact fun n s hs hr => runLoop_refused _ hs hr
  · exact fun s _ => by rw [Nat.zero_add]; rfl
  · intro n s hlive hstep
    rw [Nat.add_right_comm]
    exact runLoop_wait _ hlive hstep
  · intro n s t e hlive hstep ih
    rw [Nat.add_right_comm, runLoop_next _ hlive hstep, ih]

/-- Settles O58: the branches of the loop, and composition by induction along the run. -/
theorem runsCompose : Obligations.RunsCompose := by
  refine fun n m s => ⟨fun _ _ => rfl, runLoop_halted n, runLoop_refused n, fun hlive => ⟨runLoop_zero hlive,
    fun _ => runLoop_next n hlive, runLoop_wait n hlive, step_next_or_wait hlive⟩, ?_⟩
  rw [runLoop_add]
  cases runLoop n s <;> rfl

/-! ## Ends of a run (R123) -/

/-- What each end of a run says of the state left there. -/
def RunEnd.Described : RunEnd → Prop
  | .ended t => t.status ≠ .noException ∧ t.Inv
  | .refused t => t.refused = true ∧ t.status = .noException ∧ t.Inv
  | .waiting t => t.live ∧ step t = .fault .consoleInputWait ∧ t.Inv
  | .running t => t.live ∧ t.Inv

theorem runLoop_described (n : Nat) (s : State) : s.Inv → (runLoop n s).Described := by
  refine runLoop_induct (P := fun _ s e => s.Inv → e.Described) ?_ ?_ ?_ ?_ ?_ n s
  · exact fun _ _ hs hinv => ⟨hs, hinv⟩
  · exact fun _ _ hs hr hinv => ⟨hr, hs, hinv⟩
  · exact fun _ hlive hinv => ⟨hlive, hinv⟩
  · exact fun _ _ hlive hstep hinv => ⟨hlive, hstep, hinv⟩
  · exact fun _ s t _ _ hstep ih hinv => ih (stepKeepsTheInvariant s t hinv hstep)

/-- Settles O59: along the run the invariant is kept by every step (O52). -/
theorem runsEndAsTheSpecSays : Obligations.RunsEndAsTheSpecSays := fun n s hinv => by
  have hend := runLoop_described n s hinv
  cases h : runLoop n s <;> rw [h] at hend <;> exact hend

/-! ## Two phases (R336) -/

/-- A run keeps the parameters. -/
theorem cfg_of_runLoop_ended {n : Nat} {s t : State} (h : runLoop n s = .ended t) : t.cfg = s.cfg := by
  have hkeep : ∀ u, runLoop n s = .ended u → u.cfg = s.cfg := by
    refine runLoop_induct (P := fun _ s e => ∀ u, e = .ended u → u.cfg = s.cfg) ?_ ?_ ?_ ?_ ?_ n s
    · rintro _ _ _ _ ⟨⟩; rfl
    · rintro _ _ _ _ _ ⟨⟩
    · rintro _ _ _ ⟨⟩
    · rintro _ _ _ _ _ ⟨⟩
    · intro _ _ _ _ _ hstep ih u hu
      rw [ih u hu, (stepKeepsTheModeAndOnlyAddsOutput _ _ hstep).1]
  exact hkeep t h

/-- Settles O60: `twoPhaseBoot` case by case; the boot phase leaves `RESET_PC` as it was. -/
theorem twoPhaseBootHandsOverTheState : Obligations.TwoPhaseBootHandsOverTheState := by
  intro n s
  cases h : runLoop n { s with pc := s.cfg.resetPc, vmFetch := false, status := .noException } with
  | ended t =>
    have hboot : twoPhaseBoot n s = if t.status = .fence then run n t.cfg.resetPc true t else .ended t := by
      rw [twoPhaseBoot, run, hostRun, h]
    have hcfg : t.cfg = s.cfg := (cfg_of_runLoop_ended h).trans rfl
    refine ⟨fun hfence => ?_, fun hother => hboot.trans (if_neg hother)⟩
    rw [hboot, if_pos hfence, run, hostRun, hcfg]
  | waiting t => rw [twoPhaseBoot, run, hostRun, h]
  | refused t => rw [twoPhaseBoot, run, hostRun, h]
  | running t => rw [twoPhaseBoot, run, hostRun, h]

end Sys2Proof.Machine
end
